-- ==== Sys2Proof/Word.lean ====
section
/-! DEFINITION. The bit vectors of LZ78-CE: what the spec treats as bits of a fixed width. Everything is unsigned (00_scope.md R10). -/

namespace Sys2Proof

/-- One byte of a stream, a buffer or a word; also a symbol (00_scope.md R8, SYM_BITS = 8). -/
abbrev Byte := BitVec 8

/-- A dictionary code (00_scope.md R8, CODE_BITS = 16). -/
abbrev Code := BitVec 16

/-- The width operand of WRITE_PAIR and READ_PAIR (40_bitchannel.md R113: 5 bits). -/
abbrev Width := BitVec 5

/-- The counters `total_bits`, `total_syms`, `zin_pos` (00_scope.md R8, CTR_BITS = 64). -/
abbrev Counter := BitVec 64

/-- A dictionary word: "a finite byte sequence" (10_state.md R37). -/
abbrev ByteSeq := List Byte

end Sys2Proof
end

