-- ==== Sys2Proof/Config.lean ====
section
/-! DEFINITION. What is fixed when an engine is built (00_scope.md R8): the parameters, and the constants the source settles. -/

namespace Sys2Proof

/-- The parameters of 00_scope.md R8. They are a field of the machine's state (10_state.md R29, R32 makes three of them
readable registers), hardwired: no step changes them. -/
structure Config where
  /-- MAX_CODE: exclusive upper bound of the code space. -/
  maxCode : Nat
  /-- BLOCK: the size in bytes of WBUF, RBUF and OBUF. -/
  block : Nat
  /-- MAGIC: the header's format identifier. -/
  magic : BitVec 32
  /-- HEADER_PAD: the number of zero bytes after the protection field. -/
  headerPad : Nat
  deriving DecidableEq, Repr

/-- EMPTY_CODE = 0: the root, the empty word (R8). -/
abbrev emptyCode : Code := 0#16
/-- STOP_CODE = 1: the sentinel (R8). -/
abbrev stopCode : Code := 1#16
/-- START_CODE = 2: the first assignable code (R8). -/
abbrev startCode : Code := 2#16

/-- HEADER_BYTES = 6 + HEADER_PAD (R8). -/
def Config.headerBytes (c : Config) : Nat := 6 + c.headerPad

/-- EPOCH_PAIRS = MAX_CODE - START_CODE: the number of codes assignable in one epoch (R9). -/
def Config.epochPairs (c : Config) : Nat := c.maxCode - 2

/-- The constraints of R8 and R9: MAX_CODE is a power of two from 4 to 65536, and BLOCK is at least 1. -/
abbrev Config.Ok (c : Config) : Prop :=
  4 ≤ c.maxCode ∧ c.maxCode ≤ 65536 ∧ c.maxCode = 2 ^ Nat.log2 c.maxCode ∧ 1 ≤ c.block

/-- MAGIC is OPEN in the spec (00_scope.md R8, 92_eei_decisions.md D6: "No default is normative"), so the value an engine
is built with is a free value: it has no body, and nothing in Lean can evaluate it. DESIGN CHOICE, safe: log entry 2. -/
opaque Config.openMagic : BitVec 32

/-- The code that a new trie node carries where the operand of TRIE_INSERT is outside its range START_CODE <= code < MAX_CODE:
41_trie.md R134 states no result there, so it is a free value, a fresh one each time. It has no body: nothing in Lean can evaluate
it. DESIGN CHOICE, safe: log entry 10. -/
opaque Config.freeCode : Nat → Code

/-- The defaults of R8: MAX_CODE 65536, BLOCK 4096, HEADER_PAD 0; MAGIC open. -/
def Config.standard : Config :=
  { maxCode := 65536, block := 4096, magic := Config.openMagic, headerPad := 0 }

end Sys2Proof
end

