-- ==== Sys2Proof/Syntax.lean ====
section
/-! DEFINITION. The operations of LZ78-CE: one constructor per row of spec/opcode_table.json, and the named operand ports of
the unit-request interface (30_encoding.md R95, R96). -/

namespace Sys2Proof

/-- Every row of spec/opcode_table.json. -/
inductive Instr where
  /-- RESET (43_codec.md R154). -/
  | reset
  /-- ENC_START prot (R155). -/
  | encStart (prot : BitVec 16)
  /-- ENC_SYM sym (R157). -/
  | encSym (sym : Byte)
  /-- ENC_END (R158). -/
  | encEnd
  /-- DEC_START (R159). -/
  | decStart
  /-- DEC_PAIR (R160). -/
  | decPair
  /-- WRITE_HEADER(magic, prot) (40_bitchannel.md R111). -/
  | writeHeader (magic : BitVec 32) (prot : BitVec 16)
  /-- READ_HEADER() (R112). -/
  | readHeader
  /-- WRITE_PAIR(code, sym, w) (R113). -/
  | writePair (code : Code) (sym : Byte) (width : Width)
  /-- READ_PAIR(w) (R114). -/
  | readPair (width : Width)
  /-- FLUSH() (R115). -/
  | flush
  /-- WRITE_WORD(word) (R116). -/
  | writeWord (word : ByteSeq)
  /-- FLUSH_WORDS() (R117). -/
  | flushWords
  /-- TRIE_CREATE() (41_trie.md R132). -/
  | trieCreate
  /-- TRIE_STEP(node, byte) (R133). -/
  | trieStep (node : Code) (byte : Byte)
  /-- TRIE_INSERT(node, byte, code) (R134). -/
  | trieInsert (node : Code) (byte : Byte) (code : Code)
  /-- TRIE_RESET() (R135). -/
  | trieReset
  /-- TRIE_DELETE(node) (R136). -/
  | trieDelete (node : Code)
  /-- WT_CREATE() (42_wordtable.md R141). -/
  | wtCreate
  /-- WT_LOOKUP(code) (R142). -/
  | wtLookup (code : Code)
  /-- WT_ASSIGN(code, parent, byte) (R143). -/
  | wtAssign (code : Code) (parent : Code) (byte : Byte)
  /-- WT_RESET() (R144). -/
  | wtReset
  /-- WT_DELETE() (R145). -/
  | wtDelete
  /-- The wire's HEADER (30_encoding.md R81); its pad bytes are written 0 and ignored on read, so the term has none. -/
  | header (magic : BitVec 32) (prot : BitVec 16)
  /-- A pair of class PAIR.STOP on the wire: code = STOP_CODE (R85, R86). -/
  | pairStop (width : Width) (sym : Byte)
  /-- A pair of class PAIR.LIT: code = EMPTY_CODE (R85). -/
  | pairLit (width : Width) (sym : Byte)
  /-- A pair of class PAIR.REF: an assigned code (R85). -/
  | pairRef (width : Width) (code : Code) (sym : Byte)
  /-- A pair of class PAIR.UNDEF: an unassigned code (R85). -/
  | pairUndef (width : Width) (code : Code) (sym : Byte)
  deriving DecidableEq, Repr

/-- The named operand ports of the unit-request interface: "each operand of rule R95 is a separate input of the stated
width" (30_encoding.md R96). A port an operation does not use is ignored. -/
structure UnitPorts where
  magic : BitVec 32
  prot : BitVec 16
  code : Code
  sym : Byte
  width : Width
  word : ByteSeq
  node : Code
  byte : Byte
  parent : Code
  deriving DecidableEq, Repr

/-- Every operand port at 0 and the word port empty. -/
def UnitPorts.zero : UnitPorts :=
  { magic := 0, prot := 0, code := 0, sym := 0, width := 0, word := [], node := 0, byte := 0, parent := 0 }

/-- A request on the unit-request interface, format UOP: an 8-bit operation id and the operand ports (R92, R96). -/
structure UnitRequest where
  opid : BitVec 8
  ports : UnitPorts
  deriving DecidableEq, Repr

end Sys2Proof
end

