-- ==== Sys2Proof/WellFormed.lean ====
section
/-! DEFINITION. The operand ranges the spec states for an operation beyond the widths of its operands. -/

namespace Sys2Proof

/-- A width operand: 1 <= w <= 16 (40_bitchannel.md R113, R114, R118). -/
def widthInRange (w : Width) : Bool := decide (1 ≤ w.toNat) && decide (w.toNat ≤ 16)

/-- The code of a new dictionary entry: START_CODE <= code < MAX_CODE (41_trie.md R134, 42_wordtable.md R143). -/
def codeAssignable (cfg : Config) (c : Code) : Bool := decide (2 ≤ c.toNat) && decide (c.toNat < cfg.maxCode)

/-- A code field that holds a dictionary reference: START_CODE <= code < 2^w (30_encoding.md R85). -/
def codeFieldInRange (w : Width) (c : Code) : Bool := decide (2 ≤ c.toNat) && decide (c.toNat < 2 ^ w.toNat)

/-- The operand ranges of every operation, for an engine of the given parameters. -/
def Instr.wellFormed (cfg : Config) : Instr → Bool
  | .reset => true
  | .encStart _ => true
  | .encSym _ => true
  | .encEnd => true
  | .decStart => true
  | .decPair => true
  | .writeHeader _ _ => true
  | .readHeader => true
  | .writePair _ _ w => widthInRange w
  | .readPair w => widthInRange w
  | .flush => true
  | .writeWord word => !word.isEmpty
  | .flushWords => true
  | .trieCreate => true
  | .trieStep _ _ => true
  | .trieInsert _ _ c => codeAssignable cfg c
  | .trieReset => true
  | .trieDelete _ => true
  | .wtCreate => true
  | .wtLookup _ => true
  | .wtAssign c _ _ => codeAssignable cfg c
  | .wtReset => true
  | .wtDelete => true
  | .header _ _ => true
  | .pairStop w _ => widthInRange w
  | .pairLit w _ => widthInRange w
  | .pairRef w c _ => widthInRange w && codeFieldInRange w c
  | .pairUndef w c _ => widthInRange w && codeFieldInRange w c

end Sys2Proof
end

