-- ==== Sys2Proof/Decode.lean ====
section
/-! DEFINITION. Bits and bytes of the encodings, the decoder (total, rejecting by name) and, after it, the encoder: command
words (30_encoding.md R90 to R93), unit requests (R92, R95, R96), and the wire's header and pairs (R81 to R86). -/

namespace Sys2Proof

/-! ### Bits, bytes and numbers -/

/-- `bit_length(n)`: 0 at 0, else floor(log2 n) + 1 (00_scope.md R11). -/
def bitLength (n : Nat) : Nat := if n = 0 then 0 else Nat.log2 n + 1

/-- The low `n` bits of `v`, least significant first: `v[0], v[1], …, v[n-1]` (R10, 20_memory.md R57). -/
def bitsOf (v n : Nat) : List Bool := (List.range n).map (fun i => v.testBit i)

/-- The number whose bit `i` is the `i`-th of the list: the sum that GetBits computes (20_memory.md R59). -/
def natOfBits : List Bool → Nat
  | [] => 0
  | b :: bs => b.toNat + 2 * natOfBits bs

/-- `LE16(v)` (00_scope.md R12). -/
def le16 (v : BitVec 16) : ByteSeq := [v.extractLsb' 0 8, v.extractLsb' 8 8]

/-- `LE32(v)` (00_scope.md R12). -/
def le32 (v : BitVec 32) : ByteSeq :=
  [v.extractLsb' 0 8, v.extractLsb' 8 8, v.extractLsb' 16 8, v.extractLsb' 24 8]

/-- `h[0] + h[1]*2^8 + h[2]*2^16 + h[3]*2^24` (40_bitchannel.md R112). -/
def headerMagic (h : ByteSeq) : BitVec 32 :=
  BitVec.ofNat 32 ((h.getD 0 0).toNat + (h.getD 1 0).toNat * 2 ^ 8 + (h.getD 2 0).toNat * 2 ^ 16
    + (h.getD 3 0).toNat * 2 ^ 24)

/-- `h[4] + h[5]*2^8` (40_bitchannel.md R112). -/
def headerProt (h : ByteSeq) : BitVec 16 :=
  BitVec.ofNat 16 ((h.getD 4 0).toNat + (h.getD 5 0).toNat * 2 ^ 8)

/-- `PairBits(c, s, w)`: the w code bits, then the 8 symbol bits, least significant first (20_memory.md R52, R75). -/
def pairBits (code : Code) (sym : Byte) (w : Nat) : List Bool := bitsOf code.toNat w ++ bitsOf sym.toNat 8

/-! ### The decoder -/

/-- Why a word, a request or a run of wire bits is no operation. -/
inductive DecodeError where
  /-- A command word whose opid is not 0x01 to 0x06 (30_encoding.md R93 (a)). -/
  | unknownCommand
  /-- A command word that violates a "must be 0" constraint on its argument (R91, R93 (b)). -/
  | reservedArgument
  /-- A unit request whose opid is none of R95's (log entry 17). -/
  | unknownUnitOperation
  /-- Wire bits whose number is not that of the pair the counter calls for (R83). -/
  | wrongPairLength
  deriving DecidableEq, Repr

/-- CMD24: `opid` is bits [7:0], `arg` is bits [23:8] (R90 to R93). -/
def decodeCmd (w : BitVec 24) : Except DecodeError Instr :=
  let opid : BitVec 8 := w.extractLsb' 0 8
  let arg : BitVec 16 := w.extractLsb' 8 16
  if opid = 0x01#8 then if arg = 0 then .ok .reset else .error .reservedArgument
  else if opid = 0x02#8 then .ok (.encStart arg)
  else if opid = 0x03#8 then
    if arg.extractLsb' 8 8 = 0 then .ok (.encSym (arg.extractLsb' 0 8)) else .error .reservedArgument
  else if opid = 0x04#8 then if arg = 0 then .ok .encEnd else .error .reservedArgument
  else if opid = 0x05#8 then if arg = 0 then .ok .decStart else .error .reservedArgument
  else if opid = 0x06#8 then if arg = 0 then .ok .decPair else .error .reservedArgument
  else .error .unknownCommand

/-- UOP: the opid selects the operation; its operands are the ports R95 names for it (R92, R95, R96). -/
def decodeUnit (r : UnitRequest) : Except DecodeError Instr :=
  let p := r.ports
  if r.opid = 0x10#8 then .ok (.writeHeader p.magic p.prot)
  else if r.opid = 0x11#8 then .ok .readHeader
  else if r.opid = 0x12#8 then .ok (.writePair p.code p.sym p.width)
  else if r.opid = 0x13#8 then .ok (.readPair p.width)
  else if r.opid = 0x14#8 then .ok .flush
  else if r.opid = 0x15#8 then .ok (.writeWord p.word)
  else if r.opid = 0x16#8 then .ok .flushWords
  else if r.opid = 0x20#8 then .ok .trieCreate
  else if r.opid = 0x21#8 then .ok (.trieStep p.node p.byte)
  else if r.opid = 0x22#8 then .ok (.trieInsert p.node p.byte p.code)
  else if r.opid = 0x23#8 then .ok .trieReset
  else if r.opid = 0x24#8 then .ok (.trieDelete p.node)
  else if r.opid = 0x30#8 then .ok .wtCreate
  else if r.opid = 0x31#8 then .ok (.wtLookup p.code)
  else if r.opid = 0x32#8 then .ok (.wtAssign p.code p.parent p.byte)
  else if r.opid = 0x33#8 then .ok .wtReset
  else if r.opid = 0x34#8 then .ok .wtDelete
  else .error .unknownUnitOperation

/-- The HEADER read from wire bytes; the pad bytes from byte 6 on are ignored (R81, 40_bitchannel.md R112). -/
def decodeHeader (h : ByteSeq) : Instr := .header (headerMagic h) (headerProt h)

/-- The class of a pair, by its code field and the counter `n` = `next_code` at the moment it is read (R85). -/
def classifyPair (n : Nat) (w : Width) (code : Code) (sym : Byte) : Instr :=
  if code = stopCode then .pairStop w sym
  else if code = emptyCode then .pairLit w sym
  else if code.toNat < n then .pairRef w code sym
  else .pairUndef w code sym

/-- The pair held by the wire bits that start at the read cursor: its code field is `bit_length(next_code)` bits wide
(R83), zero-extended to 16 bits, and its symbol the 8 bits after it (R82, R84). -/
def decodePair (n : Nat) (bits : List Bool) : Except DecodeError Instr :=
  let w := bitLength n
  if bits.length = w + 8 then
    .ok (classifyPair n (BitVec.ofNat 5 w) (BitVec.ofNat 16 (natOfBits (bits.take w)))
      (BitVec.ofNat 8 (natOfBits (bits.drop w))))
  else .error .wrongPairLength

/-- The four carriers of an encoding: a command word, a unit request, the bytes of a header, the bits of a pair. -/
inductive Encoded where
  | cmd (w : BitVec 24)
  | unit (r : UnitRequest)
  | headerBytes (bs : ByteSeq)
  | pairBits (bits : List Bool)
  deriving DecidableEq, Repr

/-- The decoder over every carrier; `n` is `next_code`, on which the meaning of pair bits depends (R83). -/
def decode (n : Nat) : Encoded → Except DecodeError Instr
  | .cmd w => decodeCmd w
  | .unit r => decodeUnit r
  | .headerBytes bs => .ok (decodeHeader bs)
  | .pairBits bits => decodePair n bits

/-- The instruction the decoder reads from a row's bits as spec/opcode_table.json numbers them: 24 bits are a command word,
8 bits the opid of a unit request whose operand ports are all 0 (the table gives the ports no bits). The wire rows have no
numbered bits in the table (log entry 16). -/
def decodeTableWord (nbits w : Nat) : Option Instr :=
  if nbits = 24 then (decodeCmd (BitVec.ofNat 24 w)).toOption
  else if nbits = 8 then (decodeUnit { opid := BitVec.ofNat 8 w, ports := .zero }).toOption
  else none

/-! ### The encoder -/

/-- `opid + arg * 2^8` (30_encoding.md R97). -/
def cmdWord (opid : BitVec 8) (arg : BitVec 16) : BitVec 24 := arg ++ opid

/-- The bytes of a header: `LE32(magic) ++ LE16(prot) ++ HEADER_PAD zero bytes` (40_bitchannel.md R111, 20_memory.md R75). -/
def headerImage (cfg : Config) (magic : BitVec 32) (prot : BitVec 16) : ByteSeq :=
  le32 magic ++ le16 prot ++ List.replicate cfg.headerPad 0#8

/-- The encoding of every operation, from R81, R82, R90 to R92, R95; unused operand ports are 0. -/
def encode (cfg : Config) : Instr → Encoded
  | .reset => .cmd (cmdWord 0x01#8 0)
  | .encStart prot => .cmd (cmdWord 0x02#8 prot)
  | .encSym sym => .cmd (cmdWord 0x03#8 (sym.setWidth 16))
  | .encEnd => .cmd (cmdWord 0x04#8 0)
  | .decStart => .cmd (cmdWord 0x05#8 0)
  | .decPair => .cmd (cmdWord 0x06#8 0)
  | .writeHeader m p => .unit { opid := 0x10#8, ports := { UnitPorts.zero with magic := m, prot := p } }
  | .readHeader => .unit { opid := 0x11#8, ports := .zero }
  | .writePair c y w => .unit { opid := 0x12#8, ports := { UnitPorts.zero with code := c, sym := y, width := w } }
  | .readPair w => .unit { opid := 0x13#8, ports := { UnitPorts.zero with width := w } }
  | .flush => .unit { opid := 0x14#8, ports := .zero }
  | .writeWord word => .unit { opid := 0x15#8, ports := { UnitPorts.zero with word := word } }
  | .flushWords => .unit { opid := 0x16#8, ports := .zero }
  | .trieCreate => .unit { opid := 0x20#8, ports := .zero }
  | .trieStep n b => .unit { opid := 0x21#8, ports := { UnitPorts.zero with node := n, byte := b } }
  | .trieInsert n b c => .unit { opid := 0x22#8, ports := { UnitPorts.zero with node := n, byte := b, code := c } }
  | .trieReset => .unit { opid := 0x23#8, ports := .zero }
  | .trieDelete n => .unit { opid := 0x24#8, ports := { UnitPorts.zero with node := n } }
  | .wtCreate => .unit { opid := 0x30#8, ports := .zero }
  | .wtLookup c => .unit { opid := 0x31#8, ports := { UnitPorts.zero with code := c } }
  | .wtAssign c p b => .unit { opid := 0x32#8, ports := { UnitPorts.zero with code := c, parent := p, byte := b } }
  | .wtReset => .unit { opid := 0x33#8, ports := .zero }
  | .wtDelete => .unit { opid := 0x34#8, ports := .zero }
  | .header m p => .headerBytes (headerImage cfg m p)
  | .pairStop w y => .pairBits (pairBits stopCode y w.toNat)
  | .pairLit w y => .pairBits (pairBits emptyCode y w.toNat)
  | .pairRef w c y => .pairBits (pairBits c y w.toNat)
  | .pairUndef w c y => .pairBits (pairBits c y w.toNat)

end Sys2Proof
end

