-- ==== Sys2Proof/Machine/State.lean ====
section
/-! DEFINITION. The state of LZ78-CE (10_state.md R20 to R42), the reasons a step can stop, and the state after reset. -/

namespace Sys2Proof.Machine

/-- The run state (10_state.md R25). -/
inductive RunState where
  | idle
  | enc
  | dec
  | done
  | error
  deriving DecidableEq, Repr

/-- Why the machine stops where the spec gives no effect. `undefined(Uk)` of 93_implementation_defined.md: "a model treats it
as a fault" (00_scope.md R13). Every one is SAFE: the model stops where the hardware may go on. -/
inductive Fault where
  /-- U1: a lookup of a code whose word-table slot is absent; raised by WT_LOOKUP, WT_ASSIGN (its parent), DEC_PAIR, PAIR.LIT,
  PAIR.REF and PAIR.UNDEF. Safe. -/
  | unassignedCode
  /-- U2: TRIE_INSERT where the child is present or a live node already holds the code; raised by TRIE_INSERT. Safe. -/
  | childExists
  /-- U3: READ_PAIR after a READ_PAIR that returned has_more = false; raised by READ_PAIR. Safe. -/
  | readAfterSentinel
  /-- U4: a trie operation while `trie_live` is false or on a node that is not live, a word-table operation while `wt_live` is
  false; raised by the trie and word-table operations. Safe. -/
  | notLive
  /-- U6: WT_ASSIGN to a populated slot, or to EMPTY_CODE, STOP_CODE or a code >= MAX_CODE; raised by WT_ASSIGN. Safe. -/
  | slotNotFree
  /-- A buffer cursor outside its buffer (10_state.md R26, R35), in states no run reaches; raised by every operation that
  touches WBUF, RBUF or OBUF. Safe: log entry 13. -/
  | bufferAddress
  deriving DecidableEq, Repr

/-- Why the machine refuses an instruction or a request. -/
inductive Refusal where
  /-- An instruction with no meaning yet; raised by the dispatcher only. Safe. -/
  | notModelled (mnemonic : String)
  /-- U5: WRITE_PAIR or READ_PAIR with width 0 or above 16, "operand outside the type"; raised by those two. Safe. -/
  | widthOutOfRange
  /-- A unit request whose opid is none of 30_encoding.md R95's; raised by the step. Safe: log entry 17. -/
  | unknownUnitOperation
  /-- The host changes ZIN in a decode run, for which "the model has no move" (20_memory.md R73); raised by the step. Safe: log
  entry 8. -/
  | zinChangedInRun
  deriving DecidableEq, Repr

/-- What the host can do to the engine between two commands: issue a command word (30_encoding.md R90), assert the hardware
reset (70_reset_and_hazards.md R200), or put a wire on ZIN (R202). -/
inductive HostInput where
  | cmd (word : BitVec 24)
  | hardReset
  | putZin (wire : ByteSeq)
  deriving DecidableEq, Repr

/-- What the result outputs of the unit-request interface show (30_encoding.md R95, column "results out"; R96). -/
inductive UnitResult where
  | none
  | header (magic : BitVec 32) (prot : BitVec 16)
  | pair (code : Code) (sym : Byte) (hasMore : Bool)
  | child (node : Option Code)
  | word (word : ByteSeq)
  deriving DecidableEq, Repr

/-- A sparse map from slot numbers, keys strictly rising: equal maps are equal data. -/
abbrev SlotMap (α : Type) := List (Nat × α)

/-- A buffer of bytes: the listed cells, every unlisted address reading as 0, the buffers' reset content (10_state.md R41). -/
abbrev Memory := List Host.Cell

/-- The state of the engine and of its ports. INVENTORY.md, heading State, names the rule of every field. -/
structure State where
  /-- The parameters: CFG_MAX_CODE, CFG_BLOCK, CFG_MAGIC (10_state.md R32) and HEADER_PAD (00_scope.md R8). -/
  cfg : Config
  /-- `state` (R25). -/
  runState : RunState
  /-- `err` (R27, R30). -/
  err : BitVec 3
  /-- `next_code` (R21). -/
  nextCode : Code
  /-- `cur` (R21). -/
  cur : Code
  /-- `prev_code` (R21). -/
  prevCode : Code
  /-- `prev_sym` (R21). -/
  prevSym : Byte
  /-- `prot` (R21). -/
  prot : BitVec 16
  /-- `rp_code` (R21). -/
  rpCode : Code
  /-- `rp_sym` (R21). -/
  rpSym : Byte
  /-- `has_more` (R27). -/
  hasMore : Bool
  /-- `trie_live` (R27). -/
  trieLive : Bool
  /-- `wt_live` (R27). -/
  wtLive : Bool
  /-- `child` (R36): the slot of (code, byte) is `code * 256 + byte`. -/
  child : SlotMap Code
  /-- `wt` (R37): the slot of a code is the code. -/
  wt : SlotMap ByteSeq
  /-- WBUF (R35). -/
  wbuf : Memory
  /-- RBUF (R35). -/
  rbuf : Memory
  /-- OBUF (R35). -/
  obuf : Memory
  /-- `widx` (R26). -/
  widx : Nat
  /-- `ridx` (R26). -/
  ridx : Nat
  /-- `oidx` (R26). -/
  oidx : Nat
  /-- `total_bits` (R33). -/
  totalBits : Counter
  /-- `total_syms` (R33). -/
  totalSyms : Counter
  /-- `zin_pos` (R33). -/
  zinPos : Counter
  /-- ZIN: the host's input sequence `Z` (R38). -/
  zin : ByteSeq
  /-- ZOUT: every byte emitted so far (R38). -/
  zout : ByteSeq
  /-- SOUT: every byte emitted so far (R38). -/
  sout : ByteSeq
  /-- The host's pending inputs, the next one first (R38: "one 24-bit command word per host step"). Log entry 3. -/
  cmdIn : List HostInput
  /-- The pending request on the unit-request interface (30_encoding.md R92, R96). Log entry 4. -/
  unitIn : Option UnitRequest
  /-- The result outputs of the unit-request interface (30_encoding.md R96). Log entry 5. -/
  unitOut : UnitResult
  /-- How many free values the engine has taken: the model's own counter, the spec has none. DESIGN CHOICE: log entry 10. -/
  freeIndex : Nat
  deriving DecidableEq, Repr

/-- The reset state of 10_state.md R41 for an engine of the given parameters, its ports idle. The values of `zin`, `cmdIn`,
`unitIn`, `unitOut` and `freeIndex` are the model's: DESIGN CHOICE, log entry 22. -/
def State.resetOf (cfg : Config) : State :=
  { cfg := cfg
    runState := .idle
    err := 0
    nextCode := startCode
    cur := emptyCode
    prevCode := 0
    prevSym := 0
    prot := 0
    rpCode := 0
    rpSym := 0
    hasMore := false
    trieLive := false
    wtLive := false
    child := []
    wt := []
    wbuf := []
    rbuf := []
    obuf := []
    widx := 0
    ridx := 8 * cfg.block
    oidx := 0
    totalBits := 0
    totalSyms := 0
    zinPos := 0
    zin := []
    zout := []
    sout := []
    cmdIn := []
    unitIn := none
    unitOut := .none
    freeIndex := 0 }

/-- The machine right after reset, with the default parameters of 00_scope.md R8 and MAGIC open (log entries 1 and 2). -/
def State.reset : State := State.resetOf Config.standard

end Sys2Proof.Machine
end

