-- ==== Sys2Proof/Machine/Maps.lean ====
section
/-! DEFINITION. Named operations over the sparse maps of the state: the slots of the trie and of the word table (10_state.md
R28, R36, R37), and the byte cells of the buffers (R35). -/

namespace Sys2Proof.Machine

/-- The value at a slot, if the slot is present. -/
def slotGet {α : Type} : SlotMap α → Nat → Option α
  | [], _ => none
  | (a, v) :: m, k => if a = k then some v else slotGet m k

/-- Write a slot, keeping the keys strictly rising. -/
def slotPut {α : Type} : SlotMap α → Nat → α → SlotMap α
  | [], k, v => [(k, v)]
  | (a, w) :: m, k, v =>
    if k < a then (k, v) :: (a, w) :: m
    else if a = k then (k, v) :: m
    else (a, w) :: slotPut m k v

/-- Make a slot absent. -/
def slotDel {α : Type} (m : SlotMap α) (k : Nat) : SlotMap α := m.filter (fun e => decide (e.1 ≠ k))

/-- The canonical form of a map: keys strictly rising. -/
abbrev SlotMap.wf {α : Type} (m : SlotMap α) : Prop := m.Pairwise (fun a b => a.1 < b.1)

/-- The byte at an address; an unlisted address reads as 0 (10_state.md R41). -/
def Memory.read (m : Memory) (a : Nat) : Byte := (slotGet m a).getD 0#8

/-- Write one byte, keeping the canonical form: writing 0 unlists the address. -/
def Memory.write (m : Memory) (a : Nat) (b : Byte) : Memory := if b = 0#8 then slotDel m a else slotPut m a b

/-- The canonical form of a buffer: addresses strictly rising, and no entry equal to what an unlisted address reads as. -/
abbrev Memory.wf (m : Memory) : Prop := m.Pairwise (fun a b => a.1 < b.1) ∧ ∀ c ∈ m, c.2 ≠ 0#8

/-- The bytes at addresses 0 to n-1, in increasing address: `BUF[0 .. n-1]`. -/
def Memory.firstBytes (m : Memory) (n : Nat) : ByteSeq := (List.range n).map (fun a => Memory.read m a)

/-- The cells of `bs` laid out from address `a`, zero bytes unlisted. -/
def Memory.ofBytesFrom : Nat → ByteSeq → Memory
  | _, [] => []
  | a, b :: bs => if b = 0#8 then Memory.ofBytesFrom (a + 1) bs else (a, b) :: Memory.ofBytesFrom (a + 1) bs

/-- The buffer whose bytes from address 0 are `bs`, every further byte 0. -/
def Memory.ofBytes (bs : ByteSeq) : Memory := Memory.ofBytesFrom 0 bs

/-- The slot of `child[(node, byte)]`: an "arena indexed by code with 256 code-wide entries per node" (41_trie.md R137). -/
def childSlot (node : Code) (byte : Byte) : Nat := node.toNat * 256 + byte.toNat

/-- The node a child slot belongs to. -/
def slotNode (slot : Nat) : Nat := slot / 256

end Sys2Proof.Machine
end

