-- ==== Sys2Proof/Machine/Operands.lean ====
section
/-! DEFINITION. Operands an operation takes from the state: the code width, live nodes, slots of the dictionaries, the bytes
of ZIN. -/

namespace Sys2Proof.Machine

/-- `CodeWidth = bit_length(next_code)`, as the 5-bit width operand (43_codec.md R151). -/
def codeWidth (s : State) : Width := BitVec.ofNat 5 (bitLength s.nextCode.toNat)

/-- `child[(node, byte)]` (10_state.md R36). -/
def childAt (s : State) (node : Code) (byte : Byte) : Option Code := slotGet s.child (childSlot node byte)

/-- `wt[code]` (10_state.md R37). -/
def wordAt (s : State) (code : Code) : Option ByteSeq := slotGet s.wt code.toNat

/-- "the live nodes are the root and the codes in the range of `child`" (41_trie.md R131). -/
def nodeLive (child : SlotMap Code) (node : Code) : Bool :=
  decide (node = emptyCode) || child.any (fun e => decide (e.2 = node))

/-- The bytes `Pull(n)` really takes: the next `min(n, len(Z) - zin_pos)` bytes of ZIN (20_memory.md R60). -/
def zinAvailable (s : State) (n : Nat) : ByteSeq := (s.zin.drop s.zinPos.toNat).take n

/-- One round of closing a set of nodes under `child`: the children of its nodes that it does not hold yet. -/
def newChildren (child : SlotMap Code) (nodes : List Code) : List Code :=
  (child.filter (fun e => nodes.any (fun p => decide (p.toNat = slotNode e.1)) && !nodes.contains e.2)).map (fun e => e.2)

/-- Close a set of nodes under `child`, at most `fuel` rounds, stopping when nothing new is found. -/
def closeNodes (child : SlotMap Code) : Nat → List Code → List Code
  | 0, nodes => nodes
  | fuel + 1, nodes =>
    match newChildren child nodes with
    | [] => nodes
    | new => closeNodes child fuel (nodes ++ new)

/-- `Sub(node)`: "the least set containing c and closed under `child`" (41_trie.md R131). Each round that finds something
adds a code of the range of `child`, so one round per entry is enough. -/
def subtree (child : SlotMap Code) (node : Code) : List Code := closeNodes child child.length [node]

end Sys2Proof.Machine
end

