-- ==== Sys2Proof/Machine/Flags.lean ====
section
/-! DEFINITION. Flags, status and the read-only register port: `has_more` (10_state.md R27), STATUS (R30), REG[n] (R29, R31,
R32), the level outputs `done` and `error` (R38). -/

namespace Sys2Proof.Machine

/-- The error causes of 60_exceptions.md R181: 1 ERR_FORMAT. -/
def errFormat : BitVec 3 := 1#3
/-- 2 ERR_CMD (R181). -/
def errCmd : BitVec 3 := 2#3

/-- The STATE field of STATUS (10_state.md R25, R30). -/
def RunState.code : RunState → BitVec 3
  | .idle => 0#3
  | .enc => 1#3
  | .dec => 2#3
  | .done => 3#3
  | .error => 4#3

/-- `has_more <- (rp_code != STOP_CODE)` (40_bitchannel.md R114). -/
def hasMoreOf (code : Code) : Bool := decide (code ≠ stopCode)

/-- STATUS: bit 7 reads 0, bit 6 HAS_MORE, bits [5:3] ERR, bits [2:0] STATE (R30). -/
def statusReg (s : State) : BitVec 8 := 0#1 ++ BitVec.ofBool s.hasMore ++ s.err ++ s.runState.code

/-- `done = (STATE = DONE)` (R38). -/
def doneOutput (s : State) : Bool := decide (s.runState = .done)

/-- `error = (STATE = ERROR)` (R38). -/
def errorOutput (s : State) : Bool := decide (s.runState = .error)

/-- The width in bits of `REG[n]` (R29); a number from 11 on has none. -/
def regWidth : Nat → Nat
  | 0 => 8
  | 1 => 16
  | 2 => 5
  | 3 => 16
  | 4 => 64
  | 5 => 64
  | 6 => 17
  | 7 => 32
  | 8 => 32
  | 9 => 16
  | 10 => 64
  | _ => 0

/-- `REG[n]`, zero-extended to 64 bits; "Numbers 11 and above read as 0"; a read has no side effect (R29). CFG_BLOCK shows
the low 32 bits of BLOCK (log entry 18). -/
def regRead (s : State) : Nat → BitVec 64
  | 0 => (statusReg s).setWidth 64
  | 1 => s.nextCode.setWidth 64
  | 2 => (codeWidth s).setWidth 64
  | 3 => s.prot.setWidth 64
  | 4 => s.totalBits
  | 5 => s.totalSyms
  | 6 => (BitVec.ofNat 17 s.cfg.maxCode).setWidth 64
  | 7 => (BitVec.ofNat 32 s.cfg.block).setWidth 64
  | 8 => s.cfg.magic.setWidth 64
  | 9 => s.cur.setWidth 64
  | 10 => s.zinPos
  | _ => 0

end Sys2Proof.Machine
end

