-- ==== Sys2Proof/Machine/Ops.lean ====
section
/-! DEFINITION. The shared operations: sequencing of outcomes, error entry (60_exceptions.md R184) and reset, the only way out
of it (R188), the buffer primitives (20_memory.md R56 to R62), and the counter advance (43_codec.md R152). -/

namespace Sys2Proof.Machine

/-- The outcome of an operation or of a part of one. -/
abbrev Res (α : Type) := Host.Outcome α Fault Refusal

/-- Run the first part, then the second on what it gives; a stop of the first is a stop of both ("a call of one operation
inside another's pseudocode executes the callee's rule to completion", 00_scope.md R13). -/
def andThen {α β : Type} (o : Res α) (f : α → Res β) : Res β :=
  match o with
  | .next a => f a
  | .fault r => .fault r
  | .refused r => .refused r

/-! ### Error entry, and reset -/

/-- `raise Error(cause)`: the cause and the state ERROR, and nothing else; in ERROR the first cause is kept (R184, R187). -/
def raiseError (cause : BitVec 3) (s : State) : State :=
  if s.runState = .error then s else { s with err := cause, runState := .error }

/-- A command legal in one run state only: elsewhere it does `raise Error(ERR_CMD)` and nothing else (30_encoding.md R93,
43_codec.md R153, 60_exceptions.md R183). -/
def inState (r : RunState) (s : State) (body : Res State) : Res State :=
  if s.runState = r then body else .next (raiseError errCmd s)

/-- Reset: every element of the engine at its reset value; the parameters, and what the host holds on ZIN, CMD and the unit
interface, stay (10_state.md R32, R38, R41, 70_reset_and_hazards.md R201; log entry 6), and so does the model's own count of free
values, so that no free value comes twice (log entry 10). -/
def resetState (s : State) : State :=
  { State.resetOf s.cfg with zin := s.zin, cmdIn := s.cmdIn, unitIn := s.unitIn, freeIndex := s.freeIndex }

/-- The host puts a wire on ZIN; in a decode run "the model has no move for it" (20_memory.md R73; log entry 8). -/
def placeZin (wire : ByteSeq) (s : State) : Res State :=
  if s.runState = .dec then .refused .zinChangedInRun else .next { s with zin := wire }

/-! ### Ports -/

/-- `Emit(ZOUT, bs)` (00_scope.md R13, 10_state.md R38). -/
def emitZout (bs : ByteSeq) (s : State) : State := { s with zout := s.zout ++ bs }

/-- `Emit(SOUT, bs)`. -/
def emitSout (bs : ByteSeq) (s : State) : State := { s with sout := s.sout ++ bs }

/-- `Pull(n)`: the next n bytes of ZIN, zero-filled past its end; `zin_pos` counts the bytes really taken (20_memory.md
R60). -/
def pull (n : Nat) (s : State) : ByteSeq × State :=
  let taken := zinAvailable s n
  (taken ++ List.replicate (n - taken.length) 0#8, { s with zinPos := s.zinPos + BitVec.ofNat 64 taken.length })

/-! ### WBUF -/

/-- The byte with bit `j` set to `b`, other bits unchanged (20_memory.md R56). -/
def setBit (x : Byte) (j : Nat) (b : Bool) : Byte :=
  if b then x ||| BitVec.twoPow 8 j else x &&& ~~~(BitVec.twoPow 8 j)

/-- Write bit `i` of a buffer: bit `i mod 8` of byte `i div 8`. -/
def Memory.writeBit (m : Memory) (i : Nat) (b : Bool) : Memory :=
  Memory.write m (i / 8) (setBit (Memory.read m (i / 8)) (i % 8) b)

/-- Read bit `i` of a buffer. -/
def Memory.readBit (m : Memory) (i : Nat) : Bool := (Memory.read m (i / 8)).getLsbD (i % 8)

/-- `PutBit(b)`, with the block auto-flush (R56). -/
def putBit (b : Bool) (s : State) : State :=
  let s1 := { s with wbuf := Memory.writeBit s.wbuf s.widx b, widx := s.widx + 1 }
  if s1.widx = 8 * s1.cfg.block then { emitZout (Memory.firstBytes s1.wbuf s1.cfg.block) s1 with widx := 0 } else s1

/-- PutBit of each bit of a list, in order: `PutBits(v, n)` is `putBits (bitsOf v n)` (R57). -/
def putBits : List Bool → State → State
  | [], s => s
  | b :: bs, s => putBits bs (putBit b s)

/-- Set `count` bits from bit `i` on to 0 (40_bitchannel.md R115). -/
def Memory.clearBits : Nat → Nat → Memory → Memory
  | 0, _, m => m
  | count + 1, i, m => Memory.clearBits count (i + 1) (Memory.writeBit m i false)

/-! ### RBUF -/

/-- `Refill()`: RBUF becomes the next BLOCK bytes of ZIN, `ridx` 0 (R61). The zero fill of `Pull(BLOCK)` needs no cells: an
unlisted address reads as 0. -/
def refill (s : State) : State :=
  { (pull s.cfg.block s).2 with rbuf := Memory.ofBytes (zinAvailable s s.cfg.block), ridx := 0 }

/-- `GetBit()`: the bit and the state after it (R58). -/
def getBit (s : State) : Bool × State :=
  let s1 := if s.ridx = 8 * s.cfg.block then refill s else s
  (Memory.readBit s1.rbuf s1.ridx, { s1 with ridx := s1.ridx + 1 })

/-- The bits of `n` calls of GetBit, first read first; `GetBits(n)` is their `natOfBits` (R59). -/
def getBits : Nat → State → List Bool × State
  | 0, s => ([], s)
  | n + 1, s =>
    let r := getBit s
    let q := getBits n r.2
    (r.1 :: q.1, q.2)

/-! ### OBUF -/

/-- `PutByteOut(x)`, with its auto-flush (R62). -/
def putByteOut (x : Byte) (s : State) : State :=
  let s1 := { s with obuf := Memory.write s.obuf s.oidx x, oidx := s.oidx + 1, totalSyms := s.totalSyms + 1 }
  if s1.oidx = s1.cfg.block then { emitSout (Memory.firstBytes s1.obuf s1.cfg.block) s1 with oidx := 0 } else s1

/-- PutByteOut of each byte of a word, in order (40_bitchannel.md R116). -/
def putBytesOut : ByteSeq → State → State
  | [], s => s
  | x :: xs, s => putBytesOut xs (putByteOut x s)

/-! ### The cursors stay in their buffers -/

/-- `widx` points into WBUF (10_state.md R26). -/
def widxInRange (s : State) : Bool := decide (s.widx < 8 * s.cfg.block)

/-- `ridx` points into RBUF or just past it, and RBUF has a byte (R26). -/
def ridxInRange (s : State) : Bool := decide (s.ridx ≤ 8 * s.cfg.block) && decide (0 < s.cfg.block)

/-- `oidx` points into OBUF (R26). -/
def oidxInRange (s : State) : Bool := decide (s.oidx < s.cfg.block)

/-! ### The code counter -/

/-- `ADVANCE_CODE(reset_op)`: count on 17 bits; at MAX_CODE reset the dictionary and start again at START_CODE (43_codec.md
R152; log entry 20). -/
def advanceCode (resetOp : State → Res State) (s : State) : Res State :=
  let n := s.nextCode.toNat + 1
  if n = s.cfg.maxCode then andThen (resetOp s) (fun s1 => .next { s1 with nextCode := startCode })
  else .next { s with nextCode := BitVec.ofNat 16 n }

end Sys2Proof.Machine
end

