-- ==== Sys2Proof/Machine/BitChannel.lean ====
section
/-! DEFINITION. The BitChannel operations (40_bitchannel.md R110 to R120), shared by the unit requests and the commands, and
the meanings of the seven unit operations. A unit operation with results shows them on the result outputs (log entry 5). -/

namespace Sys2Proof.Machine

/-- WRITE_HEADER(magic, prot): straight to ZOUT (R111). -/
def writeHeader (magic : BitVec 32) (prot : BitVec 16) (s : State) : State := emitZout (headerImage s.cfg magic prot) s


/-- WRITE_PAIR(code, sym, w) (R113). Corner case (a): only the low w bits of the code are written. -/
def writePair (code : Code) (sym : Byte) (w : Width) (s : State) : Res State :=
  if widthInRange w = false then .refused .widthOutOfRange
  else if widxInRange s = false then .fault .bufferAddress
  else
    let s1 := putBits (pairBits code sym w.toNat) s
    .next { s1 with totalBits := s1.totalBits + BitVec.ofNat 64 (w.toNat + 8) }

/-- The latches of READ_PAIR for the pair it read (R114). -/
def latchPair (w : Width) (code : Code) (sym : Byte) (s : State) : State :=
  { s with
    rpCode := code
    rpSym := sym
    totalBits := s.totalBits + BitVec.ofNat 64 (w.toNat + 8)
    hasMore := hasMoreOf code }

/-- READ_PAIR(w) (R114). Its results are what it latches. A READ_PAIR after one that read STOP_CODE is `undefined(U3)`: only
READ_PAIR writes `rp_code`, which still holds STOP_CODE then (log entry 12). -/
def readPair (w : Width) (s : State) : Res State :=
  if widthInRange w = false then .refused .widthOutOfRange
  else if s.rpCode = stopCode then .fault .readAfterSentinel
  else if ridxInRange s = false then .fault .bufferAddress
  else
    let c := getBits w.toNat s
    let y := getBits 8 c.2
    .next (latchPair w (BitVec.ofNat 16 (natOfBits c.1)) (BitVec.ofNat 8 (natOfBits y.1)) y.2)

/-- FLUSH() (R115). -/
def flush (s : State) : Res State :=
  if widxInRange s = false then .fault .bufferAddress
  else
    let n := (s.widx + 7) / 8
    let s1 := { s with wbuf := Memory.clearBits (8 * n - s.widx) s.widx s.wbuf }
    .next { emitZout (Memory.firstBytes s1.wbuf n) s1 with widx := 0 }

/-- WRITE_WORD(word) (R116). -/
def writeWord (word : ByteSeq) (s : State) : Res State :=
  if oidxInRange s = false then .fault .bufferAddress else .next (putBytesOut word s)

/-- FLUSH_WORDS() (R117). -/
def flushWords (s : State) : Res State :=
  if oidxInRange s = false then .fault .bufferAddress
  else .next { emitSout (Memory.firstBytes s.obuf s.oidx) s with oidx := 0 }

/-! ### The meanings -/

/-- WRITE_HEADER (R111). -/
def execWriteHeader (magic : BitVec 32) (prot : BitVec 16) (s : State) : Res State := .next (writeHeader magic prot s)

/-- READ_HEADER (R112). -/
def execReadHeader (s : State) : Res State :=
  let r := pull s.cfg.headerBytes s
  .next { r.2 with unitOut := .header (headerMagic r.1) (headerProt r.1) }

/-- WRITE_PAIR (R113). -/
def execWritePair (code : Code) (sym : Byte) (w : Width) (s : State) : Res State := writePair code sym w s

/-- READ_PAIR (R114). -/
def execReadPair (w : Width) (s : State) : Res State :=
  andThen (readPair w s) (fun s1 => .next { s1 with unitOut := .pair s1.rpCode s1.rpSym s1.hasMore })

/-- FLUSH (R115). -/
def execFlush (s : State) : Res State := flush s

/-- WRITE_WORD (R116). -/
def execWriteWord (word : ByteSeq) (s : State) : Res State := writeWord word s

/-- FLUSH_WORDS (R117). -/
def execFlushWords (s : State) : Res State := flushWords s

end Sys2Proof.Machine
end

