-- ==== Sys2Proof/Machine/Trie.lean ====
section
/-! DEFINITION. The Dictionary Trie operations (41_trie.md R130 to R137), shared by the unit requests and the encoder's
commands, and the meanings of the five unit operations. -/

namespace Sys2Proof.Machine

/-- TRIE_CREATE() (R132). -/
def trieCreate (s : State) : State := { s with child := [], trieLive := true }

/-- "require trie_live and node is live, else undefined(U4)" (R133, R134, R136). -/
def trieReady (s : State) (node : Code) : Bool := s.trieLive && nodeLive s.child node

/-- TRIE_STEP(node, byte): its result; no state is written (R133). -/
def trieStep (node : Code) (byte : Byte) (s : State) : Res (Option Code) :=
  if trieReady s node then .next (childAt s node byte) else .fault .notLive

/-- The code that the new node of a TRIE_INSERT carries: the operand in its range START_CODE <= code < MAX_CODE (R134), a free
value outside it (log entry 10). -/
def insertedCode (code : Code) (s : State) : Code :=
  if codeAssignable s.cfg code then code else Config.freeCode s.freeIndex

/-- The count of free values after a TRIE_INSERT: one more where it took one. -/
def insertedIndex (code : Code) (s : State) : Nat :=
  if codeAssignable s.cfg code then s.freeIndex else s.freeIndex + 1

/-- TRIE_INSERT(node, byte, code) (R134). -/
def trieInsert (node : Code) (byte : Byte) (code : Code) (s : State) : Res State :=
  if trieReady s node = false then .fault .notLive
  else if (childAt s node byte).isSome || nodeLive s.child code then .fault .childExists
  else .next { s with
    child := slotPut s.child (childSlot node byte) (insertedCode code s), freeIndex := insertedIndex code s }

/-- TRIE_RESET() (R135). -/
def trieReset (s : State) : Res State := if s.trieLive then .next { s with child := [] } else .fault .notLive

/-- TRIE_DELETE(node) (R136). At the root "every node is a descendant of the root" (R135), so the whole map goes and the
trie is dead (log entry 11); elsewhere the links of the subtree's nodes and the link to it go. -/
def trieDelete (node : Code) (s : State) : Res State :=
  if trieReady s node = false then .fault .notLive
  else if node = emptyCode then .next { s with child := [], trieLive := false }
  else
    let gone := subtree s.child node
    .next { s with child := s.child.filter (fun e => !gone.any (fun p => decide (p.toNat = slotNode e.1)) && decide (e.2 ≠ node)) }

/-! ### The meanings -/

/-- TRIE_CREATE (R132). -/
def execTrieCreate (s : State) : Res State := .next (trieCreate s)

/-- TRIE_STEP (R133): "Pure: no state is written"; the result is shown on the result outputs. -/
def execTrieStep (node : Code) (byte : Byte) (s : State) : Res State :=
  andThen (trieStep node byte s) (fun r => .next { s with unitOut := .child r })

/-- TRIE_INSERT (R134). -/
def execTrieInsert (node : Code) (byte : Byte) (code : Code) (s : State) : Res State := trieInsert node byte code s

/-- TRIE_RESET (R135). -/
def execTrieReset (s : State) : Res State := trieReset s

/-- TRIE_DELETE (R136). -/
def execTrieDelete (node : Code) (s : State) : Res State := trieDelete node s

end Sys2Proof.Machine
end

