-- ==== Sys2Proof/Machine/WordTable.lean ====
section
/-! DEFINITION. The Word Table operations (42_wordtable.md R140 to R147), shared by the unit requests and the decoder's
commands, and the meanings of the five unit operations. -/

namespace Sys2Proof.Machine

/-- `{ EMPTY_CODE -> [] }`: "only the permanent empty word" (R141). -/
def emptyTable : SlotMap ByteSeq := [(0, [])]

/-- WT_CREATE() (R141). -/
def wtCreate (s : State) : State := { s with wt := emptyTable, wtLive := true }

/-- WT_LOOKUP(code): its result; no state is written (R142). -/
def wtLookup (code : Code) (s : State) : Res ByteSeq :=
  if s.wtLive = false then .fault .notLive
  else match wordAt s code with
    | some word => .next word
    | none => .fault .unassignedCode

/-- WT_ASSIGN(code, parent, byte) (R143). -/
def wtAssign (code : Code) (parent : Code) (byte : Byte) (s : State) : Res State :=
  if s.wtLive = false then .fault .notLive
  else if (wordAt s code).isSome || !codeAssignable s.cfg code then .fault .slotNotFree
  else andThen (wtLookup parent s) (fun word => .next { s with wt := slotPut s.wt code.toNat (word ++ [byte]) })

/-- WT_RESET() (R144). -/
def wtReset (s : State) : Res State := if s.wtLive then .next { s with wt := emptyTable } else .fault .notLive

/-- WT_DELETE() (R145). On a table that is not live it is `undefined(U4)` (log entry 9). -/
def wtDelete (s : State) : Res State :=
  if s.wtLive then .next { s with wt := [], wtLive := false } else .fault .notLive

/-! ### The meanings -/

/-- WT_CREATE (R141). -/
def execWtCreate (s : State) : Res State := .next (wtCreate s)

/-- WT_LOOKUP (R142): "Pure: no state is written"; the result is shown on the result outputs. -/
def execWtLookup (code : Code) (s : State) : Res State :=
  andThen (wtLookup code s) (fun word => .next { s with unitOut := .word word })

/-- WT_ASSIGN (R143). -/
def execWtAssign (code : Code) (parent : Code) (byte : Byte) (s : State) : Res State := wtAssign code parent byte s

/-- WT_RESET (R144). -/
def execWtReset (s : State) : Res State := wtReset s

/-- WT_DELETE (R145). -/
def execWtDelete (s : State) : Res State := wtDelete s

end Sys2Proof.Machine
end

