-- ==== Sys2Proof/Machine/Codec.lean ====
section
/-! DEFINITION. The Codec Orchestration: the six host commands (43_codec.md R150 to R160), and the meanings of the wire units
the decoder's two commands take from ZIN: HEADER (30_encoding.md R81) and the four pair classes (R85). -/

namespace Sys2Proof.Machine

/-! ### What the decoder does with a unit of the wire -/

/-- DEC_START once the header is read: the magic test, then the start of the run (R159). -/
def acceptHeader (magic : BitVec 32) (prot : BitVec 16) (s : State) : State :=
  if magic = s.cfg.magic then { wtCreate { s with prot := prot } with nextCode := startCode, runState := .dec }
  else raiseError errFormat s

/-- DEC_PAIR once a sentinel is read (R160). -/
def endOfStream (s : State) : Res State :=
  andThen (flushWords s) (fun s1 => andThen (wtDelete s1) (fun s2 => .next { s2 with runState := .done }))

/-- DEC_PAIR once a data pair is read: look up, assign, output, advance (R160). -/
def appendPair (code : Code) (sym : Byte) (s : State) : Res State :=
  andThen (wtLookup code s) (fun w =>
    andThen (wtAssign s.nextCode code sym s) (fun s1 =>
      andThen (writeWord (w ++ [sym]) s1) (fun s2 => advanceCode wtReset s2)))

/-! ### The six commands -/

/-- RESET, legal in every state (R154). -/
def execReset (s : State) : Res State := .next (resetState s)

/-- ENC_START(prot), legal in IDLE (R155). -/
def execEncStart (prot : BitVec 16) (s : State) : Res State :=
  inState .idle s
    (.next { trieCreate (writeHeader s.cfg.magic prot { s with prot := prot }) with
      nextCode := startCode, cur := emptyCode, runState := .enc })

/-- ENC_SYM(sym), legal in ENC (R156, R157). -/
def execEncSym (sym : Byte) (s : State) : Res State :=
  inState .enc s
    (let s0 := { s with totalSyms := s.totalSyms + 1 }
     andThen (trieStep s0.cur sym s0) (fun found =>
       match found with
       | some node => .next { s0 with prevCode := s0.cur, prevSym := sym, cur := node }
       | none =>
         andThen (writePair s0.cur sym (codeWidth s0) s0) (fun s1 =>
           andThen (trieInsert s1.cur sym s1.nextCode s1) (fun s2 =>
             advanceCode trieReset { s2 with cur := emptyCode }))))

/-- The first part of ENC_END: the final pair of an outstanding partial match, which the decoder assigns a code for (R158). -/
def writeFinalPair (s : State) : Res State :=
  if s.cur = emptyCode then .next s
  else andThen (writePair s.prevCode s.prevSym (codeWidth s) s) (fun s1 => advanceCode trieReset s1)

/-- ENC_END, legal in ENC (R158). -/
def execEncEnd (s : State) : Res State :=
  inState .enc s
    (andThen (writeFinalPair s) (fun s1 =>
      andThen (writePair stopCode 0 (codeWidth s1) s1) (fun s2 =>
        andThen (flush s2) (fun s3 =>
          andThen (trieDelete emptyCode s3) (fun s4 =>
            .next { s4 with cur := emptyCode, runState := .done })))))

/-- DEC_START, legal in IDLE (R159). -/
def execDecStart (s : State) : Res State :=
  inState .idle s
    (let r := pull s.cfg.headerBytes s
     .next (acceptHeader (headerMagic r.1) (headerProt r.1) r.2))

/-- DEC_PAIR, legal in DEC (R160). -/
def execDecPair (s : State) : Res State :=
  inState .dec s
    (andThen (readPair (codeWidth s) s) (fun s1 =>
      if s1.hasMore then appendPair s1.rpCode s1.rpSym s1 else endOfStream s1))

/-! ### The units of the wire (log entry 14)

The meaning of a wire unit is what the command that takes it from ZIN does once its bits are taken. -/

/-- HEADER: what DEC_START does with it (R81, R159). -/
def execHeader (magic : BitVec 32) (prot : BitVec 16) (s : State) : Res State :=
  inState .idle s (.next (acceptHeader magic prot s))

/-- PAIR.STOP: "sentinel: end of stream; symbol ignored" (30_encoding.md R85, R86, R160). -/
def execPairStop (w : Width) (sym : Byte) (s : State) : Res State :=
  inState .dec s (endOfStream (latchPair w stopCode sym s))

/-- PAIR.LIT: "new word = the one byte `symbol`" (R85, R160). -/
def execPairLit (w : Width) (sym : Byte) (s : State) : Res State :=
  inState .dec s (appendPair emptyCode sym (latchPair w emptyCode sym s))

/-- PAIR.REF: "new word = word of c with `symbol` appended" (R85, R160). -/
def execPairRef (w : Width) (code : Code) (sym : Byte) (s : State) : Res State :=
  inState .dec s (appendPair code sym (latchPair w code sym s))

/-- PAIR.UNDEF: "reference to an unassigned code: behaviour undefined", U1 (R85, R88, R211; log entry 15). -/
def execPairUndef (_w : Width) (_code : Code) (_sym : Byte) (_s : State) : Res State := .fault .unassignedCode

end Sys2Proof.Machine
end

