-- ==== Sys2Proof/Machine/Fetch.lean ====
section
/-! DEFINITION. Where the next instruction comes from. LZ78-CE "has no program counter: it fetches no instructions"
(10_state.md R24); it takes the next request off its unit interface, else the next input the host has issued. -/

namespace Sys2Proof.Machine

/-- What the next step has to serve. -/
inductive Fetched where
  /-- No request and no input: "between commands the engine holds its state indefinitely" (60_exceptions.md R195). -/
  | nothing
  /-- An operation. -/
  | instr (i : Instr)
  /-- A command word that is illegal by its encoding (30_encoding.md R93 (a), (b)). -/
  | illegalCommand
  /-- A unit request with no operation. -/
  | unknownUnit
  /-- The hardware reset input (70_reset_and_hazards.md R200). -/
  | hardReset
  /-- The host puts a wire on ZIN (R202). -/
  | putZin (wire : ByteSeq)
  deriving DecidableEq, Repr

/-- What a command word asks for. -/
def fetchCmd (word : BitVec 24) : Fetched :=
  match decodeCmd word with
  | .ok i => .instr i
  | .error _ => .illegalCommand

/-- What a unit request asks for. -/
def fetchUnit (r : UnitRequest) : Fetched :=
  match decodeUnit r with
  | .ok i => .instr i
  | .error _ => .unknownUnit

/-- What a host input asks for. -/
def fetchInput : HostInput → Fetched
  | .cmd word => fetchCmd word
  | .hardReset => .hardReset
  | .putZin wire => .putZin wire

/-- The next request and the state with it taken off its port: a pending unit request first, "executes the callee's rule to
completion" (00_scope.md R13), then the host's inputs in order (log entries 3 and 4). -/
def fetch (s : State) : Fetched × State :=
  match s.unitIn with
  | some r => (fetchUnit r, { s with unitIn := none })
  | none =>
    match s.cmdIn with
    | [] => (.nothing, s)
    | x :: rest => (fetchInput x, { s with cmdIn := rest })

/-- The state with a command word issued as the very next input. -/
def issueCmd (word : BitVec 24) (s : State) : State := { s with unitIn := none, cmdIn := .cmd word :: s.cmdIn }

/-- The state with a unit request pending. -/
def requestUnit (r : UnitRequest) (s : State) : State := { s with unitIn := some r }

end Sys2Proof.Machine
end

