-- ==== Sys2Proof/Machine/Dispatch.lean ====
section
/-! DEFINITION. One arm per constructor of Instr: a direct call of its meaning. -/

namespace Sys2Proof.Machine

/-- The meaning of every operation of LZ78-CE. -/
def exec (i : Instr) (s : State) : Host.Outcome State Fault Refusal :=
  match i with
  | .reset => Sys2Proof.Machine.execReset s
  | .encStart prot => Sys2Proof.Machine.execEncStart prot s
  | .encSym sym => Sys2Proof.Machine.execEncSym sym s
  | .encEnd => Sys2Proof.Machine.execEncEnd s
  | .decStart => Sys2Proof.Machine.execDecStart s
  | .decPair => Sys2Proof.Machine.execDecPair s
  | .writeHeader magic prot => Sys2Proof.Machine.execWriteHeader magic prot s
  | .readHeader => Sys2Proof.Machine.execReadHeader s
  | .writePair code sym w => Sys2Proof.Machine.execWritePair code sym w s
  | .readPair w => Sys2Proof.Machine.execReadPair w s
  | .flush => Sys2Proof.Machine.execFlush s
  | .writeWord word => Sys2Proof.Machine.execWriteWord word s
  | .flushWords => Sys2Proof.Machine.execFlushWords s
  | .trieCreate => Sys2Proof.Machine.execTrieCreate s
  | .trieStep node byte => Sys2Proof.Machine.execTrieStep node byte s
  | .trieInsert node byte code => Sys2Proof.Machine.execTrieInsert node byte code s
  | .trieReset => Sys2Proof.Machine.execTrieReset s
  | .trieDelete node => Sys2Proof.Machine.execTrieDelete node s
  | .wtCreate => Sys2Proof.Machine.execWtCreate s
  | .wtLookup code => Sys2Proof.Machine.execWtLookup code s
  | .wtAssign code parent byte => Sys2Proof.Machine.execWtAssign code parent byte s
  | .wtReset => Sys2Proof.Machine.execWtReset s
  | .wtDelete => Sys2Proof.Machine.execWtDelete s
  | .header magic prot => Sys2Proof.Machine.execHeader magic prot s
  | .pairStop w sym => Sys2Proof.Machine.execPairStop w sym s
  | .pairLit w sym => Sys2Proof.Machine.execPairLit w sym s
  | .pairRef w code sym => Sys2Proof.Machine.execPairRef w code sym s
  | .pairUndef w code sym => Sys2Proof.Machine.execPairUndef w code sym s

end Sys2Proof.Machine
end

