-- ==== Sys2Proof/Machine/Step.lean ====
section
/-! DEFINITION. One step: one host input or one unit request served to completion (00_scope.md R16). -/

namespace Sys2Proof.Machine

/-- One step of the engine. An illegal command word does `raise Error(ERR_CMD)` and nothing else (30_encoding.md R93). -/
def step (s : State) : Host.Outcome State Fault Refusal :=
  match fetch s with
  | (.nothing, s1) => .next s1
  | (.instr i, s1) => exec i s1
  | (.illegalCommand, s1) => .next (raiseError errCmd s1)
  | (.unknownUnit, _) => .refused .unknownUnitOperation
  | (.hardReset, s1) => .next (resetState s1)
  | (.putZin wire, s1) => placeZin wire s1

/-- The state with a row's word placed where the next step takes its instruction: a 24-bit word on the CMD port, an 8-bit
opid on the unit-request interface with every operand port 0 (log entry 16). -/
def State.withFetchWord (s : State) (nbits w : Nat) : State :=
  if nbits = 24 then issueCmd (BitVec.ofNat 24 w) s
  else if nbits = 8 then requestUnit { opid := BitVec.ofNat 8 w, ports := .zero } s
  else s

end Sys2Proof.Machine
end

