-- ==== Sys2Proof/Safety.lean ====
section
/-! DEFINITION. The terms in which claims about the engine are made: the wire-level functions (20_memory.md R75, R76), the
logical streams behind the buffers (R66), the trie as a tree (41_trie.md R131), what a legal command is (43_codec.md R153), the
invariants of the spec's prose, runs of host inputs, and the LZ78 algorithm on plain lists of words (R156, R161). -/

namespace Sys2Proof.Machine

/-! ### The wire -/

/-- The bits of a byte sequence: stream bit k is bit k mod 8 of byte k div 8 (20_memory.md R53). -/
def bytesBits (bs : ByteSeq) : List Bool := bs.flatMap (fun b => bitsOf b.toNat 8)

/-- `PackBytes(bits)`: byte m is the sum of bit(8m + j) * 2^j for j in 0..7, where bit(k) = 0 past the end (R75). -/
def packBytes (bits : List Bool) : ByteSeq :=
  (List.range ((bits.length + 7) / 8)).map
    (fun m => BitVec.ofNat 8 (natOfBits ((List.range 8).map (fun j => bits.getD (8 * m + j) false))))

/-- A pair with the width of its code field (30_encoding.md R82, R97). -/
structure WirePair where
  code : Code
  sym : Byte
  width : Nat
  deriving DecidableEq, Repr

/-- The bits of a pair list, one pair after the other (20_memory.md R75). -/
def pairListBits (ps : List WirePair) : List Bool := ps.flatMap (fun p => pairBits p.code p.sym p.width)

/-- `Wire(prot, P)` (R75). -/
def wireImage (cfg : Config) (prot : BitVec 16) (ps : List WirePair) : ByteSeq :=
  headerImage cfg cfg.magic prot ++ packBytes (pairListBits ps)

/-! ### The streams behind the buffers -/

/-- The pair bits in WBUF that are not on ZOUT yet (10_state.md R40 (a)). -/
def pendingBits (s : State) : List Bool := (List.range s.widx).map (fun i => Memory.readBit s.wbuf i)

/-- Every bit given to ZOUT or to WBUF since reset, in order. -/
def sentBits (s : State) : List Bool := bytesBits s.zout ++ pendingBits s

/-- Every decoded byte given to SOUT or to OBUF since reset, in order (R40 (b)). -/
def decodedBytes (s : State) : ByteSeq := s.sout ++ Memory.firstBytes s.obuf s.oidx

/-- `InByte(a)`: `Z[a]`, and 0 past the end of ZIN (20_memory.md R76). -/
def inByte (s : State) (a : Nat) : Byte := s.zin.getD a 0#8

/-- The bit that the k-th GetBit from now returns: first what RBUF still holds, then ZIN from `zin_pos` on, zero past its end
(R58, R60, R61, R76). -/
def upcomingBit (s : State) (k : Nat) : Bool :=
  if s.ridx + k < 8 * s.cfg.block then Memory.readBit s.rbuf (s.ridx + k)
  else
    let j := s.ridx + k - 8 * s.cfg.block
    (inByte s (s.zinPos.toNat + j / 8)).getLsbD (j % 8)

/-- The number that the next GetBits(n), after `from` bits, returns (R59). -/
def upcomingBits (s : State) (start n : Nat) : Nat := natOfBits ((List.range n).map (fun i => upcomingBit s (start + i)))

/-- The code and the symbol of the pair at the read cursor, at the width the counter calls for (30_encoding.md R83, R84). -/
def upcomingCode (s : State) : Code := BitVec.ofNat 16 (upcomingBits s 0 (bitLength s.nextCode.toNat))
def upcomingSym (s : State) : Byte := BitVec.ofNat 8 (upcomingBits s (bitLength s.nextCode.toNat) 8)

/-- How many times n calls of GetBit refill RBUF (R58, R61). -/
def refills (s : State) (n : Nat) : Nat := (s.ridx + n - 1) / (8 * s.cfg.block)

/-- The state once the next n wire bits are taken: only the cursors, RBUF and `zin_pos` move. -/
def afterBits (n : Nat) (s : State) : State := (getBits n s).2

/-- What n calls of GetBit do to RBUF, its cursor and `zin_pos`: lazy refills of whole blocks (20_memory.md R58, R60, R61), the
bits after the n taken being the ones that come next. -/
structure TookBits (n : Nat) (s t : State) : Prop where
  cursor : t.ridx = s.ridx + n - 8 * s.cfg.block * refills s n
  position : t.zinPos.toNat = s.zinPos.toNat + min (s.cfg.block * refills s n) (s.zin.length - s.zinPos.toNat)
  kept : refills s n = 0 → t.rbuf = s.rbuf
  loaded : refills s n ≠ 0 → ∀ a < s.cfg.block,
    Memory.read t.rbuf a = inByte s (s.zinPos.toNat + s.cfg.block * (refills s n - 1) + a)
  outside : ∀ a, s.cfg.block ≤ a → Memory.read t.rbuf a = Memory.read s.rbuf a
  coming : ∀ k, upcomingBit t k = upcomingBit s (k + n)

/-- `next_code` after ADVANCE_CODE (43_codec.md R152). -/
def advancedCode (s : State) : Nat := if s.nextCode.toNat + 1 = s.cfg.maxCode then 2 else s.nextCode.toNat + 1

/-- The bits ENC_END writes: the final pair of an outstanding match, if there is one, then the sentinel at the width of the
counter after it (43_codec.md R158). -/
def endBits (s : State) : List Bool :=
  if s.cur = emptyCode then pairBits stopCode 0 (bitLength s.nextCode.toNat)
  else pairBits s.prevCode s.prevSym (bitLength s.nextCode.toNat) ++ pairBits stopCode 0 (bitLength (advancedCode s))

/-- `next_code` after ENC_END: the final pair advances it, the sentinel does not (R158). -/
def endCode (s : State) : Nat := if s.cur = emptyCode then s.nextCode.toNat else advancedCode s

/-- The bytes of a header at the read position of ZIN (40_bitchannel.md R112, 20_memory.md R76). -/
def upcomingHeader (s : State) : ByteSeq :=
  (List.range s.cfg.headerBytes).map (fun i => inByte s (s.zinPos.toNat + i))

/-- `zin_pos` after n bytes are pulled (R60). -/
def pulledTo (s : State) (n : Nat) : Counter := BitVec.ofNat 64 (s.zinPos.toNat + min n (s.zin.length - s.zinPos.toNat))

/-! ### The trie as a tree -/

/-- `Sub(root)`: the least set that holds `root` and is closed under `child` (41_trie.md R131). -/
inductive InSubtree (child : SlotMap Code) (root : Code) : Code → Prop where
  | self : InSubtree child root root
  | down {p c : Code} (b : Byte) : InSubtree child root p → slotGet child (childSlot p b) = some c → InSubtree child root c

/-- `Seq(c)`: the byte sequence a node represents (R131). -/
inductive NodeSeq (child : SlotMap Code) : Code → ByteSeq → Prop where
  | root : NodeSeq child emptyCode []
  | down {p c : Code} {w : ByteSeq} (b : Byte) :
      NodeSeq child p w → slotGet child (childSlot p b) = some c → NodeSeq child c (w ++ [b])

/-- "the live nodes are the root and the codes in the range of `child`" (R131), in a live trie. -/
def LiveNode (s : State) (node : Code) : Prop :=
  s.trieLive = true ∧ (node = emptyCode ∨ ∃ (p : Code) (b : Byte), childAt s p b = some node)

/-! ### Legal commands -/

/-- The table of 43_codec.md R153 with the constraints of 30_encoding.md R91, R93: is the operation `opid` with this argument legal
in this state? -/
def opLegal (r : RunState) : Nat → Nat → Bool
  | 1, arg => decide (arg = 0)
  | 2, _ => decide (r = .idle)
  | 3, arg => decide (arg < 256) && decide (r = .enc)
  | 4, arg => decide (arg = 0) && decide (r = .enc)
  | 5, arg => decide (arg = 0) && decide (r = .idle)
  | 6, arg => decide (arg = 0) && decide (r = .dec)
  | _, _ => false

/-- The same on a command word, `opid + arg * 256` (R97). -/
def commandLegal (r : RunState) (word : BitVec 24) : Bool := opLegal r (word.toNat % 256) (word.toNat / 256)

/-- The opids 0x01 to 0x06 with the argument constraints of 30_encoding.md R91. -/
def opOk : Nat → Nat → Bool
  | 1, arg => decide (arg = 0)
  | 2, _ => true
  | 3, arg => decide (arg < 256)
  | 4, arg => decide (arg = 0)
  | 5, arg => decide (arg = 0)
  | 6, arg => decide (arg = 0)
  | _, _ => false

/-- A command word that is an operation of the CMD port, whatever the state. -/
def commandWordOk (word : BitVec 24) : Bool := opOk (word.toNat % 256) (word.toNat / 256)

/-- Error entry with cause ERR_CMD (60_exceptions.md R181, R184): 2 in ERR unless the state is ERROR already, and ERROR. -/
def errCmdEntry (s : State) : State :=
  { s with err := if s.runState = .error then s.err else 2#3, runState := .error }

/-- The column "next state" of the table of 43_codec.md R153, by the word's opid. -/
def nextStates (opid : Nat) : List RunState :=
  match opid with
  | 1 => [.idle]
  | 2 => [.enc]
  | 3 => [.enc]
  | 4 => [.done]
  | 5 => [.dec, .error]
  | 6 => [.dec, .done]
  | _ => []

/-- The seven operations of the BitChannel (40_bitchannel.md). -/
def isBitChannel : Instr → Bool
  | .writeHeader _ _ => true
  | .readHeader => true
  | .writePair _ _ _ => true
  | .readPair _ => true
  | .flush => true
  | .writeWord _ => true
  | .flushWords => true
  | _ => false

/-- A wire pair is what the counter `n` says: its width is `bit_length(n)` and its class that of 30_encoding.md R85. -/
def atCounter (n : Nat) : Instr → Prop
  | .pairStop w _ => w.toNat = bitLength n
  | .pairLit w _ => w.toNat = bitLength n
  | .pairRef w c _ => w.toNat = bitLength n ∧ c.toNat < n
  | .pairUndef w c _ => w.toNat = bitLength n ∧ n ≤ c.toNat
  | _ => True

/-- Did this command code a data pair, the final pair of ENC_END included and the sentinel not? ADVANCE_CODE "is executed exactly
once per data pair" (43_codec.md R152): the byte broke the match (R157), a match was outstanding (R158), READ_PAIR signalled more
(R160). -/
def codedPair (s t : State) : Instr → Prop
  | .encSym sym => childAt s s.cur sym = none
  | .encEnd => s.cur ≠ emptyCode
  | .decPair => t.hasMore = true
  | _ => False

/-! ### Invariants -/

/-- The child map hangs below the root: every entry's parent is a live node, every live node a descendant of the root (41_trie.md
R131, R135). -/
structure TrieInv (child : SlotMap Code) (live : Bool) : Prop where
  canonical : SlotMap.wf child
  parents : ∀ e ∈ child, ∃ p : Code, p.toNat = slotNode e.1 ∧ nodeLive child p = true
  reached : ∀ e ∈ child, InSubtree child emptyCode e.2
  dead : live = false → child = []

/-- The names of the nodes: assignable codes, "all distinct, each with exactly one parent" (41_trie.md R131, 43_codec.md R168). A
TRIE_INSERT outside its operand range may break this and nothing else (log entry 10). -/
structure NodeNames (maxCode : Nat) (child : SlotMap Code) : Prop where
  codes : ∀ e ∈ child, 2 ≤ e.2.toNat ∧ e.2.toNat < maxCode
  injective : ∀ e ∈ child, ∀ f ∈ child, e.2 = f.2 → e = f

/-- The word table: populated slots are EMPTY_CODE and assignable codes; STOP_CODE never is one (10_state.md R37). -/
structure TableInv (maxCode : Nat) (wt : SlotMap ByteSeq) (live : Bool) : Prop where
  canonical : SlotMap.wf wt
  slots : ∀ e ∈ wt, e.1 = 0 ∨ (2 ≤ e.1 ∧ e.1 < maxCode)
  emptyWord : live = true → slotGet wt 0 = some []
  dead : live = false → wt = []

/-- A buffer in its canonical form, its cells inside the buffer (10_state.md R35). -/
abbrev BufferInv (block : Nat) (m : Memory) : Prop := Memory.wf m ∧ ∀ c ∈ m, c.1 < block

/-- What holds of the engine whatever requests its units are given: the parameters are legal, the counter is in its range
(10_state.md R22), the cursors and cells are inside their buffers (R26, R35), the maps are canonical, ERR is non-zero exactly in
ERROR (R30). -/
structure EngineInv (s : State) : Prop where
  params : s.cfg.Ok
  counter : 2 ≤ s.nextCode.toNat ∧ s.nextCode.toNat < s.cfg.maxCode
  cursors : s.widx < 8 * s.cfg.block ∧ s.ridx ≤ 8 * s.cfg.block ∧ s.oidx < s.cfg.block
  wbuf : BufferInv s.cfg.block s.wbuf
  rbuf : BufferInv s.cfg.block s.rbuf
  obuf : BufferInv s.cfg.block s.obuf
  trie : TrieInv s.child s.trieLive
  table : TableInv s.cfg.maxCode s.wt s.wtLive
  errors : (s.err ≠ 0#3 ↔ s.runState = .error) ∧ s.err.toNat ≤ 2

/-- An encode run between commands (10_state.md R23, 43_codec.md R168). -/
structure EncInv (s : State) : Prop where
  live : s.trieLive = true
  tableDead : s.wtLive = false
  names : NodeNames s.cfg.maxCode s.child
  codes : ∀ c : Code, (∃ e ∈ s.child, e.2 = c) ↔ 2 ≤ c.toNat ∧ c.toNat < s.nextCode.toNat
  matched : s.cur = emptyCode ∨ childAt s s.prevCode s.prevSym = some s.cur
  noOutput : s.oidx = 0

/-- A decode run between commands (10_state.md R22, 42_wordtable.md R147; 20_memory.md R60). -/
structure DecInv (s : State) : Prop where
  live : s.wtLive = true
  trieDead : s.trieLive = false
  slots : ∀ c : Code, (wordAt s c).isSome = true ↔ c = emptyCode ∨ (2 ≤ c.toNat ∧ c.toNat < s.nextCode.toNat)
  notStopped : s.rpCode ≠ stopCode
  position : s.zinPos.toNat ≤ s.zin.length
  noPending : s.widx = 0

/-- After the end of a run (43_codec.md R162): both dictionaries torn down, nothing left in WBUF and OBUF. -/
structure DoneInv (s : State) : Prop where
  trieDead : s.trieLive = false
  tableDead : s.wtLive = false
  flushed : s.widx = 0 ∧ s.oidx = 0

/-- What holds between commands of an engine that only its host drives ("A unit operation is issued only by the orchestration
rules", 30_encoding.md R96). -/
structure HostInv (s : State) : Prop where
  engine : EngineInv s
  noRequest : s.unitIn = none
  noResult : s.unitOut = .none
  idle : s.runState = .idle → s = resetState s
  enc : s.runState = .enc → EncInv s
  dec : s.runState = .dec → DecInv s
  done : s.runState = .done → DoneInv s

/-! ### Runs of host inputs -/

/-- The engine with nothing pending on its unit interface and these inputs issued by the host. -/
def State.withInputs (s : State) (xs : List HostInput) : State := { s with unitIn := none, cmdIn := xs }

/-- Serve the given inputs, one step each. -/
def serve (xs : List HostInput) (s : State) : Res State := Sys2Proof.core.run xs.length (s.withInputs xs)

/-- `ENCODE(prot, S)` as the host's inputs (30_encoding.md R97, R98). -/
def encodeInputs (prot : BitVec 16) (input : ByteSeq) : List HostInput :=
  .cmd (cmdWord 0x01#8 0) :: .cmd (cmdWord 0x02#8 prot) ::
    (input.map (fun b => HostInput.cmd (cmdWord 0x03#8 (b.setWidth 16))) ++ [.cmd (cmdWord 0x04#8 0)])

/-- n times `DEC_PAIR`. -/
def pairInputs (n : Nat) : List HostInput := List.replicate n (.cmd (cmdWord 0x06#8 0))

/-- `RESET`, Z put on ZIN, `DEC_START`, and n times `DEC_PAIR` (R98, 70_reset_and_hazards.md R204). -/
def decodeInputs (wire : ByteSeq) (n : Nat) : List HostInput :=
  .cmd (cmdWord 0x01#8 0) :: .putZin wire :: .cmd (cmdWord 0x05#8 0) ::
    pairInputs n

/-- WRITE_PAIR of every pair of a list, in order, each with its own width. -/
def writeAll : List WirePair → State → Res State
  | [], s => .next s
  | p :: ps, s => andThen (exec (.writePair p.code p.sym (BitVec.ofNat 5 p.width)) s) (writeAll ps)

/-- READ_PAIR at every width of a list, in order: what the result outputs show after each, and the last state. -/
def readAll : List Nat → State → Res (List UnitResult × State)
  | [], s => .next ([], s)
  | w :: ws, s =>
    andThen (exec (.readPair (BitVec.ofNat 5 w)) s) (fun t =>
      andThen (readAll ws t) (fun r => .next (t.unitOut :: r.1, r.2)))

/-- Instructions run in order. -/
def execAll : List Instr → State → Res State
  | [], s => .next s
  | i :: is, s => andThen (exec i s) (execAll is)

/-- The seventeen unit operations of 30_encoding.md R95. -/
def isUnitOperation : Instr → Bool
  | .reset | .encStart _ | .encSym _ | .encEnd | .decStart | .decPair => false
  | .header _ _ | .pairStop _ _ | .pairLit _ _ | .pairRef _ _ _ | .pairUndef _ _ _ => false
  | _ => true

/-- WRITE_HEADER, whose bytes go round WBUF (40_bitchannel.md R111). -/
def isWriteHeader : Instr → Bool
  | .writeHeader _ _ => true
  | _ => false

/-- The bits given to WBUF once `i` is run after the bits `bits`: a pair's (R113), and the zero bits to the next whole byte that FLUSH
gives (R115). -/
def givenBits (bits : List Bool) : Instr → List Bool
  | .writePair code sym w => bits ++ pairBits code sym w.toNat
  | .flush => bits ++ List.replicate (8 * ((bits.length + 7) / 8) - bits.length) false
  | _ => bits

/-- The bytes an operation gives to PutByteOut (R116). -/
def givenBytes : Instr → ByteSeq
  | .writeWord word => word
  | _ => []

/-- How many times an operation calls GetBit (R114). -/
def takenBits : Instr → Nat
  | .readPair w => w.toNat + 8
  | _ => 0

/-- `StreamBit(k) = InByte(HEADER_BYTES + k div 8)[k mod 8]` of a wire (20_memory.md R76). -/
def streamBit (cfg : Config) (wire : ByteSeq) (k : Nat) : Bool :=
  (wire.getD (cfg.headerBytes + k / 8) 0#8).getLsbD (k % 8)

/-! ### LZ78 on lists of words

The algorithm of 43_codec.md R156 and R158 with the counter rule R152, over the plain list of the words learned in the epoch (the
word of code c is at place c - 2): no trie, no buffer, no register. -/

/-- The encoder's abstract state: the words of the epoch and the outstanding match. -/
structure Lz where
  dict : List ByteSeq
  cur : ByteSeq
  deriving DecidableEq, Repr

/-- At the start of a run. -/
def Lz.start : Lz := { dict := [], cur := [] }

/-- The code of a word: EMPTY_CODE for the empty word, else its place counted from START_CODE. -/
def Lz.code (dict : List ByteSeq) (w : ByteSeq) : Code := if w = [] then emptyCode else BitVec.ofNat 16 (dict.idxOf w + 2)

/-- `bit_length(next_code)`, the counter being START_CODE plus the number of words (43_codec.md R151). -/
def Lz.width (dict : List ByteSeq) : Nat := bitLength (dict.length + 2)

/-- A word gets the next code; when the counter would then equal MAX_CODE, the dictionary is emptied (R152). -/
def Lz.learn (maxCode : Nat) (dict : List ByteSeq) (w : ByteSeq) : List ByteSeq :=
  if dict.length + 3 = maxCode then [] else dict ++ [w]

/-- One input byte: extend the match, or emit a pair and learn the broken match (R156, R157). -/
def Lz.sym (maxCode : Nat) (z : Lz) (b : Byte) : Lz × List WirePair :=
  if z.cur ++ [b] ∈ z.dict then ({ z with cur := z.cur ++ [b] }, [])
  else
    ({ dict := Lz.learn maxCode z.dict (z.cur ++ [b]), cur := [] },
      [{ code := Lz.code z.dict z.cur, sym := b, width := Lz.width z.dict }])

/-- All of an input. -/
def Lz.syms (maxCode : Nat) : Lz → ByteSeq → Lz × List WirePair
  | z, [] => (z, [])
  | z, b :: bs =>
    let r := Lz.sym maxCode z b
    let q := Lz.syms maxCode r.1 bs
    (q.1, r.2 ++ q.2)

/-- The end of the input: the outstanding match re-expressed as its parent and its last byte, then the sentinel at the width
the counter then calls for (R158). -/
def Lz.finish (maxCode : Nat) (z : Lz) : List WirePair :=
  if z.cur = [] then [{ code := stopCode, sym := 0, width := Lz.width z.dict }]
  else
    [{ code := Lz.code z.dict z.cur.dropLast, sym := z.cur.getLastD 0, width := Lz.width z.dict },
      { code := stopCode, sym := 0, width := Lz.width (Lz.learn maxCode z.dict z.cur) }]

/-- The pairs of an encode run over an input, sentinel last. -/
def Lz.encode (maxCode : Nat) (input : ByteSeq) : List WirePair :=
  let r := Lz.syms maxCode .start input
  r.2 ++ Lz.finish maxCode r.1

end Sys2Proof.Machine
end

