-- ==== Sys2Proof/Certificates/Slice0/Obligations.lean ====
section
/-! DEFINITION. The statements for the provers: what the rules of spec/ say the engine and its operations do. The `t` of a
statement "exec i s = .next t" is described whole: an equation `t = { s with … }` that names every field the operation may
write, and what each of those fields then holds. -/

open Sys2Proof Sys2Proof.Machine

/-! ### Encodings -/

/-- Words written out from 30_encoding.md R81, R82, R90, R95, R97: six command words, three unit requests, one header, one
pair at next_code = 2. -/
def Obligations.WordsOfTheSpecDecode : Prop :=
  decodeCmd 0x000001#24 = .ok .reset ∧
  decodeCmd 0x01A402#24 = .ok (.encStart 0x01A4#16) ∧
  decodeCmd 0x006103#24 = .ok (.encSym 0x61#8) ∧
  decodeCmd 0x000004#24 = .ok .encEnd ∧
  decodeCmd 0x000005#24 = .ok .decStart ∧
  decodeCmd 0x000006#24 = .ok .decPair ∧
  decodeUnit { opid := 0x14#8, ports := .zero } = .ok .flush ∧
  decodeUnit { opid := 0x23#8, ports := .zero } = .ok .trieReset ∧
  decodeUnit { opid := 0x34#8, ports := .zero } = .ok .wtDelete ∧
  decodeHeader [0xAC#8, 0xBA#8, 0xAD#8, 0xBA#8, 0xA4#8, 0x01#8] = .header 0xBAADBAAC#32 0x01A4#16 ∧
  decodePair 2 [false, false, true, false, false, false, false, true, true, false] = .ok (.pairLit 2#5 0x61#8)

/-- Decode of encode is the instruction itself, for every well-formed instruction, every operand and every set of parameters; a
pair is read back at the counter it was made for, since the counter gives its width and class (R83, R85). -/
def Obligations.DecodeOfEncodeIsTheInstruction : Prop :=
  ∀ (cfg : Config) (n : Nat) (i : Instr), i.wellFormed cfg = true → atCounter n i → decode n (encode cfg i) = .ok i

/-- A command word decodes exactly if its opid is 0x01 to 0x06 and its argument meets the "must be 0" constraints of R91, and
then every bit of the word is in the instruction: encoding it gives the word back. -/
def Obligations.CommandDecodingIsExact : Prop :=
  (∀ w : BitVec 24, (∃ i, decodeCmd w = .ok i) ↔ commandWordOk w = true) ∧
  ∀ (cfg : Config) (w : BitVec 24) (i : Instr), decodeCmd w = .ok i → encode cfg i = .cmd w

/-! ### The step -/

/-- A step runs what its request or its next host input decodes to: `exec` of the instruction in the state with that request or
input taken off its port. A pending unit request goes first (log entry 4); one with no operation is refused (log entry 17). -/
def Obligations.StepRunsTheDecodedInstruction : Prop :=
  (∀ (s : State) (w : BitVec 24) (rest : List HostInput) (i : Instr),
    s.unitIn = none → s.cmdIn = .cmd w :: rest → decodeCmd w = .ok i → step s = exec i { s with cmdIn := rest }) ∧
  (∀ (s : State) (r : UnitRequest) (i : Instr),
    s.unitIn = some r → decodeUnit r = .ok i → step s = exec i { s with unitIn := none }) ∧
  ∀ (s : State) (r : UnitRequest) (e : DecodeError),
    s.unitIn = some r → decodeUnit r = .error e → step s = .refused .unknownUnitOperation

/-- R195: with no input and no request the engine holds its state. -/
def Obligations.EngineHoldsItsStateBetweenCommands : Prop :=
  ∀ s : State, s.unitIn = none → s.cmdIn = [] → step s = .next s

/-- R154 and R41: RESET puts every element at its reset value, in every state; the configuration stays; a RESET word with a
non-zero argument is no RESET. What the ports of the host then hold is the next statement's. -/
def Obligations.ResetRestoresEveryElement : Prop :=
  (∀ a : BitVec 16, decodeCmd (cmdWord 0x01#8 a) = if a = 0 then .ok .reset else .error .reservedArgument) ∧
  ∀ s : State, ∃ t, exec .reset s = .next t ∧ t.cfg = s.cfg ∧
    t.runState = .idle ∧ t.err = 0 ∧ t.nextCode = 2 ∧ t.cur = 0 ∧ t.prevCode = 0 ∧ t.prevSym = 0 ∧ t.prot = 0 ∧
    t.rpCode = 0 ∧ t.rpSym = 0 ∧ t.hasMore = false ∧ t.trieLive = false ∧ t.wtLive = false ∧
    (∀ p b, childAt t p b = none) ∧ (∀ c, wordAt t c = none) ∧
    (∀ a, Memory.read t.wbuf a = 0) ∧ (∀ a, Memory.read t.rbuf a = 0) ∧ (∀ a, Memory.read t.obuf a = 0) ∧
    t.widx = 0 ∧ t.ridx = 8 * s.cfg.block ∧ t.oidx = 0 ∧ t.totalBits = 0 ∧ t.totalSyms = 0 ∧ t.zinPos = 0 ∧
    t.zout = [] ∧ t.sout = [] ∧ statusReg t = 0

/-- The hardware reset does what RESET does, and reset leaves what the host holds on ZIN, CMD and the unit interface and clears
the result outputs. The ports are the model's choice: log entries 6, 7, 22; so is its count of free values, which goes on: log
entry 10. -/
def Obligations.HardwareResetIsReset : Prop :=
  (∀ (s : State) (rest : List HostInput), s.unitIn = none → s.cmdIn = .hardReset :: rest →
    step s = exec .reset { s with cmdIn := rest }) ∧
  ∀ s t : State, exec .reset s = .next t →
    t.zin = s.zin ∧ t.cmdIn = s.cmdIn ∧ t.unitIn = s.unitIn ∧ t.unitOut = .none ∧ t.freeIndex = s.freeIndex

/-- R93, R183: a command word that is illegal by its opid, by its argument or in the present run state does
`raise Error(ERR_CMD)` and nothing else; RESET with argument 0 is legal everywhere. -/
def Obligations.IllegalCommandRaisesErrCmd : Prop :=
  (∀ (s : State) (w : BitVec 24) (rest : List HostInput), s.unitIn = none → s.cmdIn = .cmd w :: rest →
    commandLegal s.runState w = false → step s = .next (errCmdEntry { s with cmdIn := rest })) ∧
  ∀ r : RunState, commandLegal r 0x000001#24 = true

/-- R187: in ERROR an illegal command leaves `err` and all else; a DEC_START outside IDLE is ERR_CMD, never ERR_FORMAT. -/
def Obligations.FirstErrorCauseIsKept : Prop :=
  (∀ (s : State) (w : BitVec 24) (rest : List HostInput), s.unitIn = none → s.cmdIn = .cmd w :: rest →
    s.runState = .error → w ≠ 0x000001#24 → step s = .next { s with cmdIn := rest }) ∧
  ∀ s : State, s.runState ≠ .idle → s.runState ≠ .error →
    exec .decStart s = .next { s with err := 2#3, runState := .error }

/-- R153: a legal command leads to the state the table gives, unless it is a DEC_PAIR of an unassigned code (U1); any other
command raises ERR_CMD. -/
def Obligations.CommandsFollowTheStateTable : Prop :=
  ∀ (s : State) (w : BitVec 24) (rest : List HostInput), HostInv s → s.cmdIn = .cmd w :: rest →
    (commandLegal s.runState w = true →
      (∃ t, step s = .next t ∧ t.runState ∈ nextStates (w.toNat % 256)) ∨
        (w = 0x000006#24 ∧ step s = .fault .unassignedCode)) ∧
    (commandLegal s.runState w = false →
      ∃ t, step s = .next t ∧ t.runState = .error ∧ t.err = if s.runState = .error then s.err else 2#3)

/-- R162, R188: from DONE and from ERROR a step of any kind stays there, goes to ERROR (DONE, by an illegal command), or is a
reset. -/
def Obligations.OnlyResetLeavesDoneAndError : Prop :=
  ∀ s t : State, s.runState = .done ∨ s.runState = .error → step s = .next t →
    t.runState = s.runState ∨ t.runState = .error ∨
      t = { State.resetOf s.cfg with zin := t.zin, cmdIn := t.cmdIn, unitIn := t.unitIn, freeIndex := s.freeIndex }

/-- R30: the fields of STATUS, and ERR non-zero exactly in ERROR. -/
def Obligations.StatusFields : Prop :=
  ∀ s : State, EngineInv s →
    (statusReg s).toNat % 8 = (match s.runState with | .idle => 0 | .enc => 1 | .dec => 2 | .done => 3 | .error => 4) ∧
    (statusReg s).toNat / 8 % 8 = s.err.toNat ∧ s.err.toNat ≤ 2 ∧
    (statusReg s).getLsbD 6 = s.hasMore ∧ (statusReg s).getLsbD 7 = false ∧
    ((statusReg s).toNat / 8 % 8 ≠ 0 ↔ s.runState = .error)

/-- R29: the registers of the REG port, for an engine whose parameters are legal and whose BLOCK fits in its register. -/
def Obligations.RegisterPortShowsTheState : Prop :=
  ∀ s : State, EngineInv s → s.cfg.block < 2 ^ 32 →
    (regRead s 0).toNat = (statusReg s).toNat ∧ (regRead s 1).toNat = s.nextCode.toNat ∧
    (regRead s 2).toNat = bitLength s.nextCode.toNat ∧ (regRead s 3).toNat = s.prot.toNat ∧
    regRead s 4 = s.totalBits ∧ regRead s 5 = s.totalSyms ∧ (regRead s 6).toNat = s.cfg.maxCode ∧
    (regRead s 7).toNat = s.cfg.block ∧ (regRead s 8).toNat = s.cfg.magic.toNat ∧
    (regRead s 9).toNat = s.cur.toNat ∧ regRead s 10 = s.zinPos ∧ (∀ n, 11 ≤ n → regRead s n = 0) ∧
    ∀ n, (regRead s n).toNat < 2 ^ regWidth n

/-! ### BitChannel -/

/-- R111: the header straight to ZOUT, nothing else. -/
def Obligations.WriteHeaderEmitsTheHeader : Prop :=
  (∀ p : UnitPorts, decodeUnit { opid := 0x10#8, ports := p } = .ok (.writeHeader p.magic p.prot)) ∧
  ∀ (magic : BitVec 32) (prot : BitVec 16) (s : State), exec (.writeHeader magic prot) s = .next { s with
    zout := s.zout ++ [magic.extractLsb' 0 8, magic.extractLsb' 8 8, magic.extractLsb' 16 8, magic.extractLsb' 24 8,
      prot.extractLsb' 0 8, prot.extractLsb' 8 8] ++ List.replicate s.cfg.headerPad 0#8 }

/-- R112: HEADER_BYTES bytes straight from ZIN, zero-filled past its end; the results on the result outputs. -/
def Obligations.ReadHeaderTakesTheHeader : Prop :=
  (∀ p : UnitPorts, decodeUnit { opid := 0x11#8, ports := p } = .ok .readHeader) ∧
  ∀ s : State, ∃ magic prot, exec .readHeader s = .next { s with
      zinPos := pulledTo s (6 + s.cfg.headerPad), unitOut := .header magic prot } ∧
    (∀ i < 32, magic.getLsbD i = (inByte s (s.zinPos.toNat + i / 8)).getLsbD (i % 8)) ∧
    ∀ i < 16, prot.getLsbD i = (inByte s (s.zinPos.toNat + 4 + i / 8)).getLsbD (i % 8)

/-- R113: w code bits, then 8 symbol bits, least significant first, into WBUF with its auto-flush; only the low w bits of the
code; a width outside 1 to 16 is `undefined(U5)`. -/
def Obligations.WritePairAppendsItsBits : Prop :=
  (∀ p : UnitPorts, decodeUnit { opid := 0x12#8, ports := p } = .ok (.writePair p.code p.sym p.width)) ∧
  (∀ (code : Code) (sym : Byte) (w : Width) (s : State), w.toNat = 0 ∨ 16 < w.toNat →
    exec (.writePair code sym w) s = .refused .widthOutOfRange) ∧
  ∀ (code : Code) (sym : Byte) (w : Width) (s : State), s.widx < 8 * s.cfg.block → 1 ≤ w.toNat → w.toNat ≤ 16 →
    ∃ t, exec (.writePair code sym w) s = .next t ∧
      t = { s with
        wbuf := t.wbuf, zout := t.zout
        widx := (s.widx + (w.toNat + 8)) % (8 * s.cfg.block)
        totalBits := s.totalBits + BitVec.ofNat 64 (w.toNat + 8) } ∧
      s.zout <+: t.zout ∧
      sentBits t = sentBits s ++ (bitsOf code.toNat w.toNat ++ bitsOf sym.toNat 8) ∧
      (∀ i, (∀ k < w.toNat + 8, (s.widx + k) % (8 * s.cfg.block) ≠ i) → Memory.readBit t.wbuf i = Memory.readBit s.wbuf i) ∧
      ∀ a, (∀ k < w.toNat + 8, (s.widx + k) % (8 * s.cfg.block) / 8 ≠ a) → Memory.read t.wbuf a = Memory.read s.wbuf a

/-- R114: the w + 8 bits at the read cursor, RBUF refilled from ZIN when exhausted, zero past the end of ZIN; the results latched
and on the result outputs; a width outside 1 to 16 is `undefined(U5)`; a READ_PAIR after one that returned has_more = false is
`undefined(U3)`. -/
def Obligations.ReadPairLatchesTheNextPair : Prop :=
  (∀ p : UnitPorts, decodeUnit { opid := 0x13#8, ports := p } = .ok (.readPair p.width)) ∧
  (∀ (w : Width) (s : State), w.toNat = 0 ∨ 16 < w.toNat → exec (.readPair w) s = .refused .widthOutOfRange) ∧
  (∀ (w w' : Width) (s t : State), exec (.readPair w) s = .next t → t.hasMore = false → 1 ≤ w'.toNat → w'.toNat ≤ 16 →
    exec (.readPair w') t = .fault .readAfterSentinel) ∧
  ∀ (w : Width) (s : State), EngineInv s → s.zin.length < 2 ^ 64 → s.rpCode ≠ stopCode → 1 ≤ w.toNat → w.toNat ≤ 16 →
    ∃ t, exec (.readPair w) s = .next t ∧
      t = { s with
        rbuf := t.rbuf, ridx := t.ridx, zinPos := t.zinPos
        rpCode := BitVec.ofNat 16 (upcomingBits s 0 w.toNat)
        rpSym := BitVec.ofNat 8 (upcomingBits s w.toNat 8)
        totalBits := s.totalBits + BitVec.ofNat 64 (w.toNat + 8)
        hasMore := decide (BitVec.ofNat 16 (upcomingBits s 0 w.toNat) ≠ 1#16)
        unitOut := .pair (BitVec.ofNat 16 (upcomingBits s 0 w.toNat)) (BitVec.ofNat 8 (upcomingBits s w.toNat 8))
          (decide (BitVec.ofNat 16 (upcomingBits s 0 w.toNat) ≠ 1#16)) } ∧
      TookBits (w.toNat + 8) s t

/-- R115: the pending bits to ZOUT, the last byte zero-padded, the cursor back to 0; nothing emitted at `widx` = 0. -/
def Obligations.FlushEmitsThePendingBits : Prop :=
  (∀ p : UnitPorts, decodeUnit { opid := 0x14#8, ports := p } = .ok .flush) ∧
  ∀ s : State, s.widx < 8 * s.cfg.block →
    ∃ t, exec .flush s = .next t ∧
      t = { s with wbuf := t.wbuf, widx := 0, zout := s.zout ++ Memory.firstBytes t.wbuf ((s.widx + 7) / 8) } ∧
      Memory.firstBytes t.wbuf ((s.widx + 7) / 8) = packBytes (pendingBits s) ∧
      (∀ i, Memory.readBit t.wbuf i =
        if s.widx ≤ i ∧ i < 8 * ((s.widx + 7) / 8) then false else Memory.readBit s.wbuf i) ∧
      ∀ a, s.widx % 8 = 0 ∨ a ≠ s.widx / 8 → Memory.read t.wbuf a = Memory.read s.wbuf a

/-- R116: the bytes of a word to OBUF with its auto-flush to SOUT, counted in `total_syms`; an empty word writes nothing. -/
def Obligations.WriteWordAppendsItsBytes : Prop :=
  (∀ p : UnitPorts, decodeUnit { opid := 0x15#8, ports := p } = .ok (.writeWord p.word)) ∧
  ∀ (word : ByteSeq) (s : State), s.oidx < s.cfg.block →
    ∃ t, exec (.writeWord word) s = .next t ∧
      t = { s with
        obuf := t.obuf, sout := t.sout
        oidx := (s.oidx + word.length) % s.cfg.block
        totalSyms := s.totalSyms + BitVec.ofNat 64 word.length } ∧
      s.sout <+: t.sout ∧
      decodedBytes t = decodedBytes s ++ word ∧
      ∀ a, (∀ k < word.length, (s.oidx + k) % s.cfg.block ≠ a) → Memory.read t.obuf a = Memory.read s.obuf a

/-- R117: OBUF's pending bytes to SOUT, the cursor back to 0, every byte of OBUF as before. -/
def Obligations.FlushWordsEmitsThePendingBytes : Prop :=
  (∀ p : UnitPorts, decodeUnit { opid := 0x16#8, ports := p } = .ok .flushWords) ∧
  ∀ s : State, s.oidx < s.cfg.block →
    exec .flushWords s = .next { s with
      sout := s.sout ++ (List.range s.oidx).map (fun a => Memory.read s.obuf a), oidx := 0 }

/-- R110: "no BitChannel operation reads or writes `next_code`, the trie or the word table": with any other values there it does
the same to all the rest and leaves those values. -/
def Obligations.BitChannelIsALeaf : Prop :=
  ∀ (i : Instr), isBitChannel i = true →
    ∀ (s : State) (n : Code) (child : SlotMap Code) (wt : SlotMap ByteSeq) (tl wl : Bool),
      exec i { s with nextCode := n, child := child, wt := wt, trieLive := tl, wtLive := wl } =
        andThen (exec i s) (fun t =>
          .next { t with nextCode := n, child := child, wt := wt, trieLive := tl, wtLive := wl })

/-- R119: what WRITE_HEADER, WRITE_PAIR at every width and FLUSH put on ZOUT, READ_HEADER and READ_PAIR at the same widths
return, for any BLOCK on either side. Only the last pair may be the sentinel: a READ_PAIR after it is U3. -/
def Obligations.ReadPairInvertsWritePair : Prop :=
  ∀ (cfg cfg' : Config) (magic : BitVec 32) (prot : BitVec 16) (ps : List WirePair),
    cfg.Ok → cfg'.Ok → cfg'.headerPad = cfg.headerPad →
    (∀ p ∈ ps, 1 ≤ p.width ∧ p.width ≤ 16 ∧ p.code.toNat < 2 ^ p.width) →
    (∀ p ∈ ps.dropLast, p.code ≠ stopCode) →
    ∃ t, andThen (exec (.writeHeader magic prot) (State.resetOf cfg)) (fun s1 =>
        andThen (writeAll ps s1) (exec .flush)) = .next t ∧
      t.zout = headerImage cfg magic prot ++ packBytes (pairListBits ps) ∧
      (t.zout.length < 2 ^ 64 →
        ∃ u r, exec .readHeader { State.resetOf cfg' with zin := t.zout } = .next u ∧
          u.unitOut = .header magic prot ∧
          readAll (ps.map (fun p => p.width)) u = .next r ∧
          r.1 = ps.map (fun p => UnitResult.pair p.code p.sym (decide (p.code ≠ 1#16))))

/-- R66, with R75 and R76: for any sequence of unit operations from reset, whatever BLOCK is, ZOUT after a FLUSH holds the header
bytes, if WRITE_HEADER came first, then the packed bits written; SOUT after FLUSH_WORDS holds the bytes given to PutByteOut; and
GetBit returns the stream bits in order. No right-hand side has a BLOCK in it. The commands' sequences are in EncodeEmitsTheLz78Wire
and DecodedBytesDoNotDependOnBlock. -/
def Obligations.PortsDoNotDependOnBlock : Prop :=
  ∀ (cfg : Config) (wire : ByteSeq) (is : List Instr), cfg.Ok → (∀ i ∈ is, isUnitOperation i = true) →
    (∀ t, (∀ i ∈ is, isWriteHeader i = false) → execAll is { State.resetOf cfg with zin := wire } = .next t →
      ∃ u, exec .flush t = .next u ∧ u.zout = packBytes (is.foldl givenBits [])) ∧
    (∀ t magic prot, (∀ i ∈ is, isWriteHeader i = false) →
      execAll (.writeHeader magic prot :: is) { State.resetOf cfg with zin := wire } = .next t →
      ∃ u, exec .flush t = .next u ∧
        u.zout = le32 magic ++ le16 prot ++ List.replicate cfg.headerPad 0#8 ++ packBytes (is.foldl givenBits [])) ∧
    (∀ t, execAll is { State.resetOf cfg with zin := wire } = .next t →
      ∃ u, exec .flushWords t = .next u ∧ u.sout = is.flatMap givenBytes) ∧
    ∀ t, wire.length < 2 ^ 64 → (∀ i ∈ is, i ≠ .readHeader) →
      execAll (.readHeader :: is) { State.resetOf cfg with zin := wire } = .next t →
      ∀ n, (getBits n t).1 = (List.range n).map (fun k => streamBit cfg wire ((is.map takenBits).sum + k))

/-! ### Dictionary Trie -/

/-- R132. -/
def Obligations.TrieCreateMakesTheRoot : Prop :=
  (∀ p : UnitPorts, decodeUnit { opid := 0x20#8, ports := p } = .ok .trieCreate) ∧
  ∀ s : State, ∃ t, exec .trieCreate s = .next t ∧ t = { s with child := t.child, trieLive := true } ∧
    (∀ p b, childAt t p b = none) ∧ ∀ n, LiveNode t n ↔ n = emptyCode

/-- R133: the child of a live node, on the result outputs; `undefined(U4)` on a trie or a node that is not live. -/
def Obligations.TrieStepShowsTheChild : Prop :=
  (∀ p : UnitPorts, decodeUnit { opid := 0x21#8, ports := p } = .ok (.trieStep p.node p.byte)) ∧
  ∀ (s : State) (node : Code) (byte : Byte), EngineInv s →
    (LiveNode s node → exec (.trieStep node byte) s = .next { s with unitOut := .child (childAt s node byte) }) ∧
    (¬ LiveNode s node → exec (.trieStep node byte) s = .fault .notLive)

/-- R134: a new child, every other slot as before; U4 on a node that is not live, U2 where the child exists or a live node holds
the code. Where the code is outside the operand's range the new child carries a free value, whichever it is: the model's choice, log
entry 10. -/
def Obligations.TrieInsertAddsOneChild : Prop :=
  (∀ p : UnitPorts, decodeUnit { opid := 0x22#8, ports := p } = .ok (.trieInsert p.node p.byte p.code)) ∧
  ∀ (s : State) (node : Code) (byte : Byte) (code : Code), EngineInv s →
    (LiveNode s node → childAt s node byte = none → ¬ LiveNode s code → 2 ≤ code.toNat → code.toNat < s.cfg.maxCode →
      ∃ t, exec (.trieInsert node byte code) s = .next t ∧ t = { s with child := t.child } ∧
        (∀ p b, childAt t p b = if p = node ∧ b = byte then some code else childAt s p b) ∧
        ∀ b, childAt t code b = none) ∧
    (LiveNode s node → childAt s node byte = none → ¬ LiveNode s code → code.toNat < 2 ∨ s.cfg.maxCode ≤ code.toNat →
      ∃ t, exec (.trieInsert node byte code) s = .next t ∧
        t = { s with child := t.child, freeIndex := s.freeIndex + 1 } ∧
        ∀ p b, childAt t p b = if p = node ∧ b = byte then some (Config.freeCode s.freeIndex) else childAt s p b) ∧
    (¬ LiveNode s node → exec (.trieInsert node byte code) s = .fault .notLive) ∧
    (LiveNode s node → childAt s node byte ≠ none ∨ LiveNode s code →
      exec (.trieInsert node byte code) s = .fault .childExists)

/-- R135: every link gone, the root alive; U4 on a trie that is not live. -/
def Obligations.TrieResetKeepsOnlyTheRoot : Prop :=
  (∀ p : UnitPorts, decodeUnit { opid := 0x23#8, ports := p } = .ok .trieReset) ∧
  ∀ s : State,
    (s.trieLive = true → ∃ t, exec .trieReset s = .next t ∧ t = { s with child := t.child } ∧
      (∀ p b, childAt t p b = none) ∧ ∀ n, LiveNode t n ↔ n = emptyCode) ∧
    (s.trieLive = false → exec .trieReset s = .fault .notLive)

/-- R136: the links of the subtree's nodes and the link to it go, every other link stays; the root's deletion ends the trie; U4
on a node that is not live. -/
def Obligations.TrieDeleteRemovesTheSubtree : Prop :=
  (∀ p : UnitPorts, decodeUnit { opid := 0x24#8, ports := p } = .ok (.trieDelete p.node)) ∧
  ∀ (s : State) (node : Code), EngineInv s →
    (LiveNode s node → ∃ t, exec (.trieDelete node) s = .next t ∧
      t = { s with child := t.child, trieLive := decide (node ≠ emptyCode) } ∧
      ∀ p b c, childAt t p b = some c ↔
        childAt s p b = some c ∧ ¬ InSubtree s.child node p ∧ (node ≠ emptyCode → c ≠ node)) ∧
    (¬ LiveNode s node → exec (.trieDelete node) s = .fault .notLive)

/-! ### Word Table -/

/-- R141. -/
def Obligations.WtCreateHoldsTheEmptyWord : Prop :=
  (∀ p : UnitPorts, decodeUnit { opid := 0x30#8, ports := p } = .ok .wtCreate) ∧
  ∀ s : State, ∃ t, exec .wtCreate s = .next t ∧ t = { s with wt := t.wt, wtLive := true } ∧
    ∀ c, wordAt t c = if c = emptyCode then some [] else none

/-- R142: the word of an assigned code, on the result outputs; U4 on a table that is not live, U1 for an unassigned code. -/
def Obligations.WtLookupShowsTheWord : Prop :=
  (∀ p : UnitPorts, decodeUnit { opid := 0x31#8, ports := p } = .ok (.wtLookup p.code)) ∧
  ∀ (s : State) (code : Code),
    (s.wtLive = false → exec (.wtLookup code) s = .fault .notLive) ∧
    (s.wtLive = true → wordAt s code = none → exec (.wtLookup code) s = .fault .unassignedCode) ∧
    ∀ word, s.wtLive = true → wordAt s code = some word →
      exec (.wtLookup code) s = .next { s with unitOut := .word word }

/-- R143: a new word, every other word as before; U4, U6 and U1 where the rule has them. -/
def Obligations.WtAssignAppendsOneByte : Prop :=
  (∀ p : UnitPorts, decodeUnit { opid := 0x32#8, ports := p } = .ok (.wtAssign p.code p.parent p.byte)) ∧
  ∀ (s : State) (code parent : Code) (byte : Byte),
    (s.wtLive = false → exec (.wtAssign code parent byte) s = .fault .notLive) ∧
    (s.wtLive = true → wordAt s code ≠ none ∨ code.toNat < 2 ∨ s.cfg.maxCode ≤ code.toNat →
      exec (.wtAssign code parent byte) s = .fault .slotNotFree) ∧
    (s.wtLive = true → wordAt s code = none → 2 ≤ code.toNat → code.toNat < s.cfg.maxCode →
      (wordAt s parent = none → exec (.wtAssign code parent byte) s = .fault .unassignedCode) ∧
      ∀ word, wordAt s parent = some word →
        ∃ t, exec (.wtAssign code parent byte) s = .next t ∧ t = { s with wt := t.wt } ∧
          ∀ c, wordAt t c = if c = code then some (word ++ [byte]) else wordAt s c)

/-- R144: every word but the empty one gone; U4 on a table that is not live. -/
def Obligations.WtResetKeepsTheEmptyWord : Prop :=
  (∀ p : UnitPorts, decodeUnit { opid := 0x33#8, ports := p } = .ok .wtReset) ∧
  ∀ s : State,
    (s.wtLive = true → ∃ t, exec .wtReset s = .next t ∧ t = { s with wt := t.wt } ∧
      ∀ c, wordAt t c = if c = emptyCode then some [] else none) ∧
    (s.wtLive = false → exec .wtReset s = .fault .notLive)

/-- R145: a live table is emptied and no longer live; "After it only WT_CREATE is defined". -/
def Obligations.WtDeleteEmptiesTheTable : Prop :=
  (∀ p : UnitPorts, decodeUnit { opid := 0x34#8, ports := p } = .ok .wtDelete) ∧
  (∀ s : State, s.wtLive = true → ∃ t, exec .wtDelete s = .next t ∧ t = { s with wt := t.wt, wtLive := false } ∧
    ∀ c, wordAt t c = none) ∧
  ∀ (s t : State), exec .wtDelete s = .next t →
    (∀ c, exec (.wtLookup c) t = .fault .notLive) ∧ (∀ c p b, exec (.wtAssign c p b) t = .fault .notLive) ∧
    exec .wtReset t = .fault .notLive ∧ ∃ u, exec .wtCreate t = .next u

/-- Stops the model reads from the spec by inference: a READ_PAIR after a sentinel is told by `rp_code` (U3, log entry 12), a
WT_DELETE on a table that is not live is U4 (log entry 9). -/
def Obligations.StopsTheModelDeduces : Prop :=
  (∀ (w : Width) (s : State), s.rpCode = stopCode → 1 ≤ w.toNat → w.toNat ≤ 16 →
    exec (.readPair w) s = .fault .readAfterSentinel) ∧
  ∀ s : State, s.wtLive = false → exec .wtDelete s = .fault .notLive

/-- R146: no operation changes a word that is present; it stays or its slot becomes absent. -/
def Obligations.WordsAreNeverModified : Prop :=
  ∀ (i : Instr) (s t : State), EngineInv s → exec i s = .next t →
    ∀ (c : Code) (w : ByteSeq), wordAt s c = some w → wordAt t c = some w ∨ wordAt t c = none

/-! ### Codec Orchestration -/

/-- R155. -/
def Obligations.EncStartOpensAnEncodeRun : Prop :=
  (∀ prot : BitVec 16, decodeCmd (cmdWord 0x02#8 prot) = .ok (.encStart prot)) ∧
  ∀ (prot : BitVec 16) (s : State),
    (s.runState = .idle → exec (.encStart prot) s = .next { s with
      prot := prot
      zout := s.zout ++ (le32 s.cfg.magic ++ le16 prot ++ List.replicate s.cfg.headerPad 0#8)
      child := [], trieLive := true, nextCode := 2#16, cur := 0#16, runState := .enc }) ∧
    (s.runState ≠ .idle → exec (.encStart prot) s = .next (errCmdEntry s))

/-- R157: a byte that extends the match moves `cur` and writes nothing; a byte that breaks it writes the pair at the width before
the increment, inserts the node, advances the counter and resets the trie at MAX_CODE. -/
def Obligations.EncSymExtendsOrBreaksTheMatch : Prop :=
  (∀ a : BitVec 16, decodeCmd (cmdWord 0x03#8 a) =
    if a.toNat < 256 then .ok (.encSym (a.setWidth 8)) else .error .reservedArgument) ∧
  (∀ (sym : Byte) (s : State), s.runState ≠ .enc → exec (.encSym sym) s = .next (errCmdEntry s)) ∧
  ∀ (sym : Byte) (s : State), s.runState = .enc → EngineInv s → EncInv s →
    (∀ node, childAt s s.cur sym = some node → exec (.encSym sym) s = .next { s with
      totalSyms := s.totalSyms + 1, prevCode := s.cur, prevSym := sym, cur := node }) ∧
    (childAt s s.cur sym = none → ∃ t, exec (.encSym sym) s = .next t ∧
      t = { s with
        wbuf := t.wbuf, zout := t.zout, child := t.child
        widx := (s.widx + (bitLength s.nextCode.toNat + 8)) % (8 * s.cfg.block)
        totalBits := s.totalBits + BitVec.ofNat 64 (bitLength s.nextCode.toNat + 8)
        totalSyms := s.totalSyms + 1, cur := 0#16, nextCode := BitVec.ofNat 16 (advancedCode s) } ∧
      s.zout <+: t.zout ∧
      sentBits t = sentBits s ++ pairBits s.cur sym (bitLength s.nextCode.toNat) ∧
      (s.nextCode.toNat + 1 = s.cfg.maxCode → t.nextCode = 2#16 ∧ ∀ p b, childAt t p b = none) ∧
      (s.nextCode.toNat + 1 ≠ s.cfg.maxCode → t.nextCode.toNat = s.nextCode.toNat + 1 ∧
        ∀ p b, childAt t p b = if p = s.cur ∧ b = sym then some s.nextCode else childAt s p b) ∧
      ∀ a, (∀ k < bitLength s.nextCode.toNat + 8, (s.widx + k) % (8 * s.cfg.block) / 8 ≠ a) →
        Memory.read t.wbuf a = Memory.read s.wbuf a)

/-- R158: the final pair of an outstanding match (its parent, its last byte), then the sentinel, then the padded flush; the trie
torn down; DONE. -/
def Obligations.EncEndClosesTheStream : Prop :=
  (∀ a : BitVec 16, decodeCmd (cmdWord 0x04#8 a) = if a = 0 then .ok .encEnd else .error .reservedArgument) ∧
  (∀ s : State, s.runState ≠ .enc → exec .encEnd s = .next (errCmdEntry s)) ∧
  ∀ s : State, s.runState = .enc → EngineInv s → EncInv s →
    ∃ t, exec .encEnd s = .next t ∧
      t = { s with
        wbuf := t.wbuf, widx := 0
        zout := s.zout ++ packBytes (pendingBits s ++ endBits s)
        totalBits := s.totalBits + BitVec.ofNat 64 (endBits s).length
        nextCode := BitVec.ofNat 16 (endCode s)
        child := [], trieLive := false, cur := 0#16, runState := .done } ∧
      ∀ a, (∀ k < (endBits s).length, (s.widx + k) % (8 * s.cfg.block) / 8 ≠ a) →
        Memory.read t.wbuf a = Memory.read s.wbuf a

/-- R159: the header taken from ZIN; with the right magic the decode run opens, with another ERR_FORMAT is raised and nothing else
changes. -/
def Obligations.DecStartChecksTheMagic : Prop :=
  (∀ a : BitVec 16, decodeCmd (cmdWord 0x05#8 a) = if a = 0 then .ok .decStart else .error .reservedArgument) ∧
  ∀ s : State,
    (s.runState ≠ .idle → exec .decStart s = .next (errCmdEntry s)) ∧
    (s.runState = .idle → headerMagic (upcomingHeader s) ≠ s.cfg.magic → exec .decStart s = .next { s with
      zinPos := pulledTo s s.cfg.headerBytes, err := 1#3, runState := .error }) ∧
    (s.runState = .idle → headerMagic (upcomingHeader s) = s.cfg.magic → ∃ t, exec .decStart s = .next t ∧
      t = { s with
        zinPos := pulledTo s s.cfg.headerBytes, prot := headerProt (upcomingHeader s)
        wt := t.wt, wtLive := true, nextCode := 2#16, runState := .dec } ∧
      ∀ c, wordAt t c = if c = emptyCode then some [] else none)

/-- R160: the sentinel ends the run; a data pair is looked up, assigned, output, and the counter advances, the table reset at
MAX_CODE; an unassigned code is U1. -/
def Obligations.DecPairDecodesOnePair : Prop :=
  (∀ a : BitVec 16, decodeCmd (cmdWord 0x06#8 a) = if a = 0 then .ok .decPair else .error .reservedArgument) ∧
  (∀ s : State, s.runState ≠ .dec → exec .decPair s = .next (errCmdEntry s)) ∧
  ∀ s : State, s.runState = .dec → EngineInv s → DecInv s → s.zin.length < 2 ^ 64 →
    (upcomingCode s = 1#16 → ∃ t, exec .decPair s = .next t ∧
      t = { s with
        rbuf := t.rbuf, ridx := t.ridx, zinPos := t.zinPos
        rpCode := 1#16, rpSym := upcomingSym s, hasMore := false
        totalBits := s.totalBits + BitVec.ofNat 64 (bitLength s.nextCode.toNat + 8)
        sout := s.sout ++ Memory.firstBytes s.obuf s.oidx, oidx := 0
        wt := [], wtLive := false, runState := .done } ∧
      TookBits (bitLength s.nextCode.toNat + 8) s t) ∧
    (upcomingCode s ≠ 1#16 → wordAt s (upcomingCode s) = none → exec .decPair s = .fault .unassignedCode) ∧
    ∀ word, upcomingCode s ≠ 1#16 → wordAt s (upcomingCode s) = some word → ∃ t, exec .decPair s = .next t ∧
      t = { s with
        rbuf := t.rbuf, ridx := t.ridx, zinPos := t.zinPos
        rpCode := upcomingCode s, rpSym := upcomingSym s, hasMore := true
        totalBits := s.totalBits + BitVec.ofNat 64 (bitLength s.nextCode.toNat + 8)
        totalSyms := s.totalSyms + BitVec.ofNat 64 (word.length + 1)
        wt := t.wt, obuf := t.obuf, sout := t.sout
        oidx := (s.oidx + (word.length + 1)) % s.cfg.block
        nextCode := BitVec.ofNat 16 (advancedCode s) } ∧
      TookBits (bitLength s.nextCode.toNat + 8) s t ∧
      s.sout <+: t.sout ∧ decodedBytes t = decodedBytes s ++ (word ++ [upcomingSym s]) ∧
      (s.nextCode.toNat + 1 = s.cfg.maxCode → t.nextCode = 2#16 ∧
        ∀ c, wordAt t c = if c = emptyCode then some [] else none) ∧
      (s.nextCode.toNat + 1 ≠ s.cfg.maxCode → t.nextCode.toNat = s.nextCode.toNat + 1 ∧
        ∀ c, wordAt t c = if c = s.nextCode then some (word ++ [upcomingSym s]) else wordAt s c) ∧
      ∀ a, (∀ k < word.length + 1, (s.oidx + k) % s.cfg.block ≠ a) → Memory.read t.obuf a = Memory.read s.obuf a

/-- The bits at the read cursor decode to a pair of one of the four classes of R85, and DEC_PAIR is that pair's meaning once its
bits are taken. -/
def Obligations.DecPairRunsThePairOnTheWire : Prop :=
  ∀ s : State, s.runState = .dec → EngineInv s → DecInv s → s.zin.length < 2 ^ 64 →
    ∃ i, decodePair s.nextCode.toNat ((List.range (bitLength s.nextCode.toNat + 8)).map (upcomingBit s)) = .ok i ∧
      atCounter s.nextCode.toNat i ∧
      exec .decPair s = exec i (afterBits (bitLength s.nextCode.toNat + 8) s) ∧
      TookBits (bitLength s.nextCode.toNat + 8) s (afterBits (bitLength s.nextCode.toNat + 8) s)

/-- What the wire's units do once their bits are taken: the header in IDLE (right or wrong magic), the sentinel, a literal and a
reference in DEC; in another run state each raises ERR_CMD. That wire units are instructions with these meanings is the model's
choice: log entry 14. -/
def Obligations.WireUnitsComplete : Prop :=
  (∀ (magic : BitVec 32) (prot : BitVec 16) (s : State),
    (s.runState ≠ .idle → exec (.header magic prot) s = .next (errCmdEntry s)) ∧
    (s.runState = .idle → magic ≠ s.cfg.magic →
      exec (.header magic prot) s = .next { s with err := 1#3, runState := .error }) ∧
    (s.runState = .idle → magic = s.cfg.magic → ∃ t, exec (.header magic prot) s = .next t ∧
      t = { s with prot := prot, wt := t.wt, wtLive := true, nextCode := 2#16, runState := .dec } ∧
      ∀ c, wordAt t c = if c = emptyCode then some [] else none)) ∧
  (∀ (w : Width) (sym : Byte) (s : State),
    (s.runState ≠ .dec → exec (.pairStop w sym) s = .next (errCmdEntry s) ∧
      exec (.pairLit w sym) s = .next (errCmdEntry s) ∧ ∀ c, exec (.pairRef w c sym) s = .next (errCmdEntry s)) ∧
    (s.runState = .dec → EngineInv s → DecInv s → exec (.pairStop w sym) s = .next { s with
      rpCode := 1#16, rpSym := sym, hasMore := false
      totalBits := s.totalBits + BitVec.ofNat 64 (w.toNat + 8)
      sout := s.sout ++ Memory.firstBytes s.obuf s.oidx, oidx := 0
      wt := [], wtLive := false, runState := .done })) ∧
  ∀ (w : Width) (code : Code) (sym : Byte) (s : State), s.runState = .dec → EngineInv s → DecInv s →
    ∀ i, (code = 0#16 ∧ i = .pairLit w sym) ∨ (2 ≤ code.toNat ∧ code.toNat < s.nextCode.toNat ∧ i = .pairRef w code sym) →
      ∃ word t, wordAt s code = some word ∧ exec i s = .next t ∧
        t = { s with
          rpCode := code, rpSym := sym, hasMore := true
          totalBits := s.totalBits + BitVec.ofNat 64 (w.toNat + 8)
          totalSyms := s.totalSyms + BitVec.ofNat 64 (word.length + 1)
          wt := t.wt, obuf := t.obuf, sout := t.sout
          oidx := (s.oidx + (word.length + 1)) % s.cfg.block
          nextCode := BitVec.ofNat 16 (advancedCode s) } ∧
        s.sout <+: t.sout ∧ decodedBytes t = decodedBytes s ++ (word ++ [sym]) ∧
        (s.nextCode.toNat + 1 = s.cfg.maxCode → ∀ c, wordAt t c = if c = emptyCode then some [] else none) ∧
        (s.nextCode.toNat + 1 ≠ s.cfg.maxCode →
          ∀ c, wordAt t c = if c = s.nextCode then some (word ++ [sym]) else wordAt s c) ∧
        ∀ a, (∀ k < word.length + 1, (s.oidx + k) % s.cfg.block ≠ a) → Memory.read t.obuf a = Memory.read s.obuf a

/-- R85, R88, R211: a reference to an unassigned code is `undefined(U1)`; "a model faults". -/
def Obligations.UndefinedPairFaults : Prop :=
  ∀ (w : Width) (code : Code) (sym : Byte) (s : State), exec (.pairUndef w code sym) s = .fault .unassignedCode

/-- R151, R165: the width is `bit_length(next_code)`, from 2 to `bit_length(MAX_CODE - 1)`. A command that codes a data pair adds
one to the counter and does not lower the width, except the pair that ends the epoch, after which the counter and the width are 2;
a command that codes no data pair (a match extended, only a sentinel) leaves both. -/
def Obligations.WidthGrowsWithinAnEpoch : Prop :=
  (∀ s : State, EngineInv s → (codeWidth s).toNat = bitLength s.nextCode.toNat ∧ 2 ≤ (codeWidth s).toNat ∧
    (codeWidth s).toNat ≤ bitLength (s.cfg.maxCode - 1) ∧ bitLength (s.cfg.maxCode - 1) ≤ 16) ∧
  ∀ (i : Instr) (s t : State), HostInv s →
    (s.runState = .enc ∧ ((∃ y, i = .encSym y) ∨ i = .encEnd)) ∨ (s.runState = .dec ∧ i = .decPair) →
    exec i s = .next t →
    (codedPair s t i → s.nextCode.toNat + 1 = s.cfg.maxCode → t.nextCode = 2#16 ∧ (codeWidth t).toNat = 2) ∧
    (codedPair s t i → s.nextCode.toNat + 1 ≠ s.cfg.maxCode →
      t.nextCode.toNat = s.nextCode.toNat + 1 ∧ (codeWidth s).toNat ≤ (codeWidth t).toNat) ∧
    (¬ codedPair s t i → t.nextCode = s.nextCode ∧ (codeWidth t).toNat = (codeWidth s).toNat)

/-- R166: after any number of pairs, on either side, `next_code` is START_CODE + (pairs mod EPOCH_PAIRS), and the dictionary is
empty whenever that is START_CODE: both sides reset after the same number of pairs. -/
def Obligations.EpochSynchrony : Prop :=
  (∀ (input : ByteSeq) (s : State), HostInv s → s.runState = .enc → s.child = [] → s.cur = emptyCode →
    s.nextCode = startCode →
    ∃ t, serve (input.map (fun b => HostInput.cmd (cmdWord 0x03#8 (b.setWidth 16)))) s = .next t ∧
      t.nextCode.toNat = 2 + (Lz.syms s.cfg.maxCode .start input).2.length % (s.cfg.maxCode - 2) ∧
      (t.nextCode = startCode → ∀ p b, childAt t p b = none)) ∧
  ∀ (n : Nat) (s t : State), HostInv s → s.runState = .dec → s.nextCode = startCode →
    serve (pairInputs n) s = .next t → t.runState = .dec →
    t.nextCode.toNat = 2 + n % (s.cfg.maxCode - 2) ∧
      (t.nextCode = startCode → ∀ c, wordAt t c = if c = emptyCode then some [] else none)

/-- R209: past the end of ZIN every bit is 0, so each further DEC_PAIR appends one byte 0x00, the counter cycles, and the run
never ends. -/
def Obligations.TruncatedWireNeverEnds : Prop :=
  (∀ s : State, s.ridx = 8 * s.cfg.block → s.zin.length ≤ s.zinPos.toNat → ∀ k, upcomingBit s k = false) ∧
  ∀ (n : Nat) (s : State), HostInv s → s.runState = .dec → s.zin.length < 2 ^ 64 → (∀ k, upcomingBit s k = false) →
    ∃ t, serve (pairInputs n) s = .next t ∧ t.runState = .dec ∧
      decodedBytes t = decodedBytes s ++ List.replicate n 0#8 ∧
      t.nextCode.toNat = 2 + (s.nextCode.toNat - 2 + n) % (s.cfg.maxCode - 2)

/-- R210: how far a decode run has read ahead: `min(len(Z), HEADER_BYTES + BLOCK * ceil(ceil(T/8) / BLOCK))` for T pair bits. -/
def Obligations.DecoderReadsAheadByBlocks : Prop :=
  ∀ (s t : State) (wire : ByteSeq) (n : Nat), s.cfg.Ok → wire.length < 2 ^ 64 → 24 * n < 2 ^ 64 →
    serve (decodeInputs wire n) s = .next t → t.runState = .dec ∨ t.runState = .done →
    t.zinPos.toNat = min wire.length (s.cfg.headerBytes +
      s.cfg.block * (((t.totalBits.toNat + 7) / 8 + s.cfg.block - 1) / s.cfg.block))

/-- R70 (i): what is on ZOUT and on SOUT is final; only RESET clears it. -/
def Obligations.EmittedBytesAreFinal : Prop :=
  ∀ (i : Instr) (s t : State), i ≠ .reset → exec i s = .next t → s.zout <+: t.zout ∧ s.sout <+: t.sout

/-- R32: the configuration never changes, not even at reset. -/
def Obligations.ConfigurationNeverChanges : Prop :=
  ∀ s t : State, step s = .next t → t.cfg = s.cfg

/-- R73: the engine never writes ZIN; only the host's own move changes it, and never in a decode run, for which the model has no
move (log entry 8). -/
def Obligations.OnlyTheHostWritesZin : Prop :=
  (∀ (i : Instr) (s t : State), exec i s = .next t → t.zin = s.zin) ∧
  (∀ (s : State) (wire : ByteSeq) (rest : List HostInput), s.unitIn = none → s.cmdIn = .putZin wire :: rest →
    step s = if s.runState = .dec then .refused .zinChangedInRun else .next { s with zin := wire, cmdIn := rest }) ∧
  ∀ s t : State, step s = .next t → t.zin ≠ s.zin → ∃ rest, s.cmdIn = .putZin t.zin :: rest ∧ s.runState ≠ .dec

/-! ### Invariants -/

/-- Both invariants hold right after reset, for the default parameters and for every legal set of them. -/
def Obligations.InvariantsHoldAtReset : Prop :=
  (EngineInv State.reset ∧ HostInv State.reset) ∧
  ∀ cfg : Config, cfg.Ok → EngineInv (State.resetOf cfg) ∧ HostInv (State.resetOf cfg) ∧
    NodeNames cfg.maxCode (State.resetOf cfg).child

/-- Every step keeps the engine's invariant, whatever its units are asked: the counter in its range (R22), the cursors and cells
in their buffers (R26), the buffers canonical, every trie node below the root (R131, R135), the table's slots as R37 says, ERR as R30
says. It keeps the nodes' names distinct and assignable (R131) too, unless it is a TRIE_INSERT outside its operand range, whose child
carries a free value (log entry 10). -/
def Obligations.EveryStepKeepsEngineInv : Prop :=
  (∀ s t : State, EngineInv s → step s = .next t → EngineInv t) ∧
  ∀ s t : State, EngineInv s → NodeNames s.cfg.maxCode s.child →
    (∀ node byte code, (fetch s).1 = .instr (.trieInsert node byte code) → 2 ≤ code.toNat ∧ code.toNat < s.cfg.maxCode) →
    step s = .next t → NodeNames t.cfg.maxCode t.child

/-- Every step of an engine that only its host drives keeps the invariants of its run state: IDLE is the reset state (R25), ENC
as R23 and R168 say, DEC as R147 says, DONE as R162 says. -/
def Obligations.EveryStepKeepsHostInv : Prop :=
  ∀ s t : State, HostInv s → step s = .next t → HostInv t

/-- The host reaches no undefined behaviour but U1, by a DEC_PAIR, and has no move but a change of ZIN in a decode run that the
model refuses: every other step answers a next state (93_implementation_defined.md, column "reachable from the host?"). -/
def Obligations.HostReachesNoOtherStop : Prop :=
  ∀ s : State, HostInv s →
    (∃ t, step s = .next t) ∨
    (s.runState = .dec ∧ (∃ rest, s.cmdIn = .cmd 0x000006#24 :: rest) ∧ step s = .fault .unassignedCode) ∨
    (s.runState = .dec ∧ (∃ wire rest, s.cmdIn = .putZin wire :: rest) ∧ step s = .refused .zinChangedInRun)

/-! ### Whole runs -/

/-- R161: from any state, ENCODE(prot, S) ends in DONE with `Wire(prot, P)` on ZOUT, P being the pairs of the LZ78 algorithm of
R156 and R158 run on plain lists of words, sentinel last; the counters as R170 uses them. -/
def Obligations.EncodeEmitsTheLz78Wire : Prop :=
  ∀ (s : State) (prot : BitVec 16) (input : ByteSeq), s.cfg.Ok →
    ∃ t, serve (encodeInputs prot input) s = .next t ∧ t.runState = .done ∧ t.prot = prot ∧
      t.zout = wireImage s.cfg prot (Lz.encode s.cfg.maxCode input) ∧
      t.totalSyms = BitVec.ofNat 64 input.length ∧
      t.totalBits = BitVec.ofNat 64 (pairListBits (Lz.encode s.cfg.maxCode input)).length

/-- R163: decoding what was encoded gives the input back, with the same protection field and counters, for the same MAX_CODE,
MAGIC and HEADER_PAD and any two BLOCK values, for a wire that a 64-bit `zin_pos` can count. -/
def Obligations.RoundTrip : Prop :=
  ∀ (s s' : State) (prot : BitVec 16) (input : ByteSeq), s.cfg.Ok → s'.cfg.Ok →
    s'.cfg.maxCode = s.cfg.maxCode → s'.cfg.magic = s.cfg.magic → s'.cfg.headerPad = s.cfg.headerPad →
    ∃ t, serve (encodeInputs prot input) s = .next t ∧
      (t.zout.length < 2 ^ 64 → ∃ n u, serve (decodeInputs t.zout n) s' = .next u ∧ u.runState = .done ∧
        u.sout = input ∧ u.prot = prot ∧ u.totalSyms = BitVec.ofNat 64 input.length ∧ u.totalBits = t.totalBits)

/-- R164: a wire whose magic differs from MAGIC ends in ERROR with ERR = 1 and no output byte, however many DEC_PAIR follow. -/
def Obligations.AlteredMagicIsRejected : Prop :=
  ∀ (s : State) (wire : ByteSeq) (n : Nat), s.cfg.Ok →
    headerMagic ((List.range 4).map (fun i => wire.getD i 0#8)) ≠ s.cfg.magic →
    ∃ t, serve (decodeInputs wire n) s = .next t ∧ t.runState = .error ∧ t.err = 1#3 ∧ t.sout = [] ∧ t.prot = 0

/-- R167, R89: the encoder's pairs are data pairs with a code that fits its width and is not STOP_CODE, then exactly one
sentinel, last. -/
def Obligations.SentinelIsLastAndOnlyLast : Prop :=
  ∀ (s : State) (prot : BitVec 16) (input : ByteSeq), s.cfg.Ok →
    ∃ t ps w, serve (encodeInputs prot input) s = .next t ∧
      t.zout = wireImage s.cfg prot (ps ++ [{ code := 1#16, sym := 0#8, width := w }]) ∧
      Lz.encode s.cfg.maxCode input = ps ++ [{ code := 1#16, sym := 0#8, width := w }] ∧
      ∀ p ∈ ps, p.code ≠ 1#16 ∧ p.code.toNat < 2 ^ p.width ∧ 2 ≤ p.width ∧ p.width ≤ 16

/-- R66, R9: two engines that differ in BLOCK only put the same bytes on SOUT, and end alike, for every wire and every number of
DEC_PAIR. -/
def Obligations.DecodedBytesDoNotDependOnBlock : Prop :=
  ∀ (s s' : State) (wire : ByteSeq) (n : Nat), s.cfg.Ok → s'.cfg.Ok →
    s'.cfg.maxCode = s.cfg.maxCode → s'.cfg.magic = s.cfg.magic → s'.cfg.headerPad = s.cfg.headerPad →
    wire.length < 2 ^ 64 →
    (∀ t, serve (decodeInputs wire n) s = .next t → ∃ t', serve (decodeInputs wire n) s' = .next t' ∧
      t'.runState = t.runState ∧ decodedBytes t' = decodedBytes t ∧ (t.runState = .done → t'.sout = t.sout) ∧
      t'.nextCode = t.nextCode ∧ t'.prot = t.prot ∧ t'.totalBits = t.totalBits ∧ t'.totalSyms = t.totalSyms) ∧
    (∀ r, serve (decodeInputs wire n) s = .fault r → serve (decodeInputs wire n) s' = .fault r)
end

