-- ==== Sys2Proof/Laws/State.lean ====
section
/-! SUPPORT. One lemma per field for each shared update of the state, true by rfl, so that no later proof unfolds a record
update. -/

namespace Sys2Proof.Machine

/-! ### emitZout -/

@[simp] theorem emitZout_cfg (bs : ByteSeq) (s : State) : (emitZout bs s).cfg = s.cfg := rfl
@[simp] theorem emitZout_runState (bs : ByteSeq) (s : State) : (emitZout bs s).runState = s.runState := rfl
@[simp] theorem emitZout_err (bs : ByteSeq) (s : State) : (emitZout bs s).err = s.err := rfl
@[simp] theorem emitZout_nextCode (bs : ByteSeq) (s : State) : (emitZout bs s).nextCode = s.nextCode := rfl
@[simp] theorem emitZout_cur (bs : ByteSeq) (s : State) : (emitZout bs s).cur = s.cur := rfl
@[simp] theorem emitZout_prevCode (bs : ByteSeq) (s : State) : (emitZout bs s).prevCode = s.prevCode := rfl
@[simp] theorem emitZout_prevSym (bs : ByteSeq) (s : State) : (emitZout bs s).prevSym = s.prevSym := rfl
@[simp] theorem emitZout_prot (bs : ByteSeq) (s : State) : (emitZout bs s).prot = s.prot := rfl
@[simp] theorem emitZout_rpCode (bs : ByteSeq) (s : State) : (emitZout bs s).rpCode = s.rpCode := rfl
@[simp] theorem emitZout_rpSym (bs : ByteSeq) (s : State) : (emitZout bs s).rpSym = s.rpSym := rfl
@[simp] theorem emitZout_hasMore (bs : ByteSeq) (s : State) : (emitZout bs s).hasMore = s.hasMore := rfl
@[simp] theorem emitZout_trieLive (bs : ByteSeq) (s : State) : (emitZout bs s).trieLive = s.trieLive := rfl
@[simp] theorem emitZout_wtLive (bs : ByteSeq) (s : State) : (emitZout bs s).wtLive = s.wtLive := rfl
@[simp] theorem emitZout_child (bs : ByteSeq) (s : State) : (emitZout bs s).child = s.child := rfl
@[simp] theorem emitZout_wt (bs : ByteSeq) (s : State) : (emitZout bs s).wt = s.wt := rfl
@[simp] theorem emitZout_wbuf (bs : ByteSeq) (s : State) : (emitZout bs s).wbuf = s.wbuf := rfl
@[simp] theorem emitZout_rbuf (bs : ByteSeq) (s : State) : (emitZout bs s).rbuf = s.rbuf := rfl
@[simp] theorem emitZout_obuf (bs : ByteSeq) (s : State) : (emitZout bs s).obuf = s.obuf := rfl
@[simp] theorem emitZout_widx (bs : ByteSeq) (s : State) : (emitZout bs s).widx = s.widx := rfl
@[simp] theorem emitZout_ridx (bs : ByteSeq) (s : State) : (emitZout bs s).ridx = s.ridx := rfl
@[simp] theorem emitZout_oidx (bs : ByteSeq) (s : State) : (emitZout bs s).oidx = s.oidx := rfl
@[simp] theorem emitZout_totalBits (bs : ByteSeq) (s : State) : (emitZout bs s).totalBits = s.totalBits := rfl
@[simp] theorem emitZout_totalSyms (bs : ByteSeq) (s : State) : (emitZout bs s).totalSyms = s.totalSyms := rfl
@[simp] theorem emitZout_zinPos (bs : ByteSeq) (s : State) : (emitZout bs s).zinPos = s.zinPos := rfl
@[simp] theorem emitZout_zin (bs : ByteSeq) (s : State) : (emitZout bs s).zin = s.zin := rfl
@[simp] theorem emitZout_zout (bs : ByteSeq) (s : State) : (emitZout bs s).zout = s.zout ++ bs := rfl
@[simp] theorem emitZout_sout (bs : ByteSeq) (s : State) : (emitZout bs s).sout = s.sout := rfl
@[simp] theorem emitZout_cmdIn (bs : ByteSeq) (s : State) : (emitZout bs s).cmdIn = s.cmdIn := rfl
@[simp] theorem emitZout_unitIn (bs : ByteSeq) (s : State) : (emitZout bs s).unitIn = s.unitIn := rfl
@[simp] theorem emitZout_unitOut (bs : ByteSeq) (s : State) : (emitZout bs s).unitOut = s.unitOut := rfl
@[simp] theorem emitZout_freeIndex (bs : ByteSeq) (s : State) : (emitZout bs s).freeIndex = s.freeIndex := rfl

/-! ### emitSout -/

@[simp] theorem emitSout_cfg (bs : ByteSeq) (s : State) : (emitSout bs s).cfg = s.cfg := rfl
@[simp] theorem emitSout_runState (bs : ByteSeq) (s : State) : (emitSout bs s).runState = s.runState := rfl
@[simp] theorem emitSout_err (bs : ByteSeq) (s : State) : (emitSout bs s).err = s.err := rfl
@[simp] theorem emitSout_nextCode (bs : ByteSeq) (s : State) : (emitSout bs s).nextCode = s.nextCode := rfl
@[simp] theorem emitSout_cur (bs : ByteSeq) (s : State) : (emitSout bs s).cur = s.cur := rfl
@[simp] theorem emitSout_prevCode (bs : ByteSeq) (s : State) : (emitSout bs s).prevCode = s.prevCode := rfl
@[simp] theorem emitSout_prevSym (bs : ByteSeq) (s : State) : (emitSout bs s).prevSym = s.prevSym := rfl
@[simp] theorem emitSout_prot (bs : ByteSeq) (s : State) : (emitSout bs s).prot = s.prot := rfl
@[simp] theorem emitSout_rpCode (bs : ByteSeq) (s : State) : (emitSout bs s).rpCode = s.rpCode := rfl
@[simp] theorem emitSout_rpSym (bs : ByteSeq) (s : State) : (emitSout bs s).rpSym = s.rpSym := rfl
@[simp] theorem emitSout_hasMore (bs : ByteSeq) (s : State) : (emitSout bs s).hasMore = s.hasMore := rfl
@[simp] theorem emitSout_trieLive (bs : ByteSeq) (s : State) : (emitSout bs s).trieLive = s.trieLive := rfl
@[simp] theorem emitSout_wtLive (bs : ByteSeq) (s : State) : (emitSout bs s).wtLive = s.wtLive := rfl
@[simp] theorem emitSout_child (bs : ByteSeq) (s : State) : (emitSout bs s).child = s.child := rfl
@[simp] theorem emitSout_wt (bs : ByteSeq) (s : State) : (emitSout bs s).wt = s.wt := rfl
@[simp] theorem emitSout_wbuf (bs : ByteSeq) (s : State) : (emitSout bs s).wbuf = s.wbuf := rfl
@[simp] theorem emitSout_rbuf (bs : ByteSeq) (s : State) : (emitSout bs s).rbuf = s.rbuf := rfl
@[simp] theorem emitSout_obuf (bs : ByteSeq) (s : State) : (emitSout bs s).obuf = s.obuf := rfl
@[simp] theorem emitSout_widx (bs : ByteSeq) (s : State) : (emitSout bs s).widx = s.widx := rfl
@[simp] theorem emitSout_ridx (bs : ByteSeq) (s : State) : (emitSout bs s).ridx = s.ridx := rfl
@[simp] theorem emitSout_oidx (bs : ByteSeq) (s : State) : (emitSout bs s).oidx = s.oidx := rfl
@[simp] theorem emitSout_totalBits (bs : ByteSeq) (s : State) : (emitSout bs s).totalBits = s.totalBits := rfl
@[simp] theorem emitSout_totalSyms (bs : ByteSeq) (s : State) : (emitSout bs s).totalSyms = s.totalSyms := rfl
@[simp] theorem emitSout_zinPos (bs : ByteSeq) (s : State) : (emitSout bs s).zinPos = s.zinPos := rfl
@[simp] theorem emitSout_zin (bs : ByteSeq) (s : State) : (emitSout bs s).zin = s.zin := rfl
@[simp] theorem emitSout_zout (bs : ByteSeq) (s : State) : (emitSout bs s).zout = s.zout := rfl
@[simp] theorem emitSout_sout (bs : ByteSeq) (s : State) : (emitSout bs s).sout = s.sout ++ bs := rfl
@[simp] theorem emitSout_cmdIn (bs : ByteSeq) (s : State) : (emitSout bs s).cmdIn = s.cmdIn := rfl
@[simp] theorem emitSout_unitIn (bs : ByteSeq) (s : State) : (emitSout bs s).unitIn = s.unitIn := rfl
@[simp] theorem emitSout_unitOut (bs : ByteSeq) (s : State) : (emitSout bs s).unitOut = s.unitOut := rfl
@[simp] theorem emitSout_freeIndex (bs : ByteSeq) (s : State) : (emitSout bs s).freeIndex = s.freeIndex := rfl

/-! ### latchPair -/

@[simp] theorem latchPair_cfg (w : Width) (c : Code) (y : Byte) (s : State) : (latchPair w c y s).cfg = s.cfg := rfl
@[simp] theorem latchPair_runState (w : Width) (c : Code) (y : Byte) (s : State) : (latchPair w c y s).runState = s.runState := rfl
@[simp] theorem latchPair_err (w : Width) (c : Code) (y : Byte) (s : State) : (latchPair w c y s).err = s.err := rfl
@[simp] theorem latchPair_nextCode (w : Width) (c : Code) (y : Byte) (s : State) : (latchPair w c y s).nextCode = s.nextCode := rfl
@[simp] theorem latchPair_cur (w : Width) (c : Code) (y : Byte) (s : State) : (latchPair w c y s).cur = s.cur := rfl
@[simp] theorem latchPair_prevCode (w : Width) (c : Code) (y : Byte) (s : State) : (latchPair w c y s).prevCode = s.prevCode := rfl
@[simp] theorem latchPair_prevSym (w : Width) (c : Code) (y : Byte) (s : State) : (latchPair w c y s).prevSym = s.prevSym := rfl
@[simp] theorem latchPair_prot (w : Width) (c : Code) (y : Byte) (s : State) : (latchPair w c y s).prot = s.prot := rfl
@[simp] theorem latchPair_rpCode (w : Width) (c : Code) (y : Byte) (s : State) : (latchPair w c y s).rpCode = c := rfl
@[simp] theorem latchPair_rpSym (w : Width) (c : Code) (y : Byte) (s : State) : (latchPair w c y s).rpSym = y := rfl
@[simp] theorem latchPair_hasMore (w : Width) (c : Code) (y : Byte) (s : State) : (latchPair w c y s).hasMore = hasMoreOf c := rfl
@[simp] theorem latchPair_trieLive (w : Width) (c : Code) (y : Byte) (s : State) : (latchPair w c y s).trieLive = s.trieLive := rfl
@[simp] theorem latchPair_wtLive (w : Width) (c : Code) (y : Byte) (s : State) : (latchPair w c y s).wtLive = s.wtLive := rfl
@[simp] theorem latchPair_child (w : Width) (c : Code) (y : Byte) (s : State) : (latchPair w c y s).child = s.child := rfl
@[simp] theorem latchPair_wt (w : Width) (c : Code) (y : Byte) (s : State) : (latchPair w c y s).wt = s.wt := rfl
@[simp] theorem latchPair_wbuf (w : Width) (c : Code) (y : Byte) (s : State) : (latchPair w c y s).wbuf = s.wbuf := rfl
@[simp] theorem latchPair_rbuf (w : Width) (c : Code) (y : Byte) (s : State) : (latchPair w c y s).rbuf = s.rbuf := rfl
@[simp] theorem latchPair_obuf (w : Width) (c : Code) (y : Byte) (s : State) : (latchPair w c y s).obuf = s.obuf := rfl
@[simp] theorem latchPair_widx (w : Width) (c : Code) (y : Byte) (s : State) : (latchPair w c y s).widx = s.widx := rfl
@[simp] theorem latchPair_ridx (w : Width) (c : Code) (y : Byte) (s : State) : (latchPair w c y s).ridx = s.ridx := rfl
@[simp] theorem latchPair_oidx (w : Width) (c : Code) (y : Byte) (s : State) : (latchPair w c y s).oidx = s.oidx := rfl
@[simp] theorem latchPair_totalBits (w : Width) (c : Code) (y : Byte) (s : State) : (latchPair w c y s).totalBits = s.totalBits + BitVec.ofNat 64 (w.toNat + 8) := rfl
@[simp] theorem latchPair_totalSyms (w : Width) (c : Code) (y : Byte) (s : State) : (latchPair w c y s).totalSyms = s.totalSyms := rfl
@[simp] theorem latchPair_zinPos (w : Width) (c : Code) (y : Byte) (s : State) : (latchPair w c y s).zinPos = s.zinPos := rfl
@[simp] theorem latchPair_zin (w : Width) (c : Code) (y : Byte) (s : State) : (latchPair w c y s).zin = s.zin := rfl
@[simp] theorem latchPair_zout (w : Width) (c : Code) (y : Byte) (s : State) : (latchPair w c y s).zout = s.zout := rfl
@[simp] theorem latchPair_sout (w : Width) (c : Code) (y : Byte) (s : State) : (latchPair w c y s).sout = s.sout := rfl
@[simp] theorem latchPair_cmdIn (w : Width) (c : Code) (y : Byte) (s : State) : (latchPair w c y s).cmdIn = s.cmdIn := rfl
@[simp] theorem latchPair_unitIn (w : Width) (c : Code) (y : Byte) (s : State) : (latchPair w c y s).unitIn = s.unitIn := rfl
@[simp] theorem latchPair_unitOut (w : Width) (c : Code) (y : Byte) (s : State) : (latchPair w c y s).unitOut = s.unitOut := rfl
@[simp] theorem latchPair_freeIndex (w : Width) (c : Code) (y : Byte) (s : State) : (latchPair w c y s).freeIndex = s.freeIndex := rfl

/-! ### trieCreate -/

@[simp] theorem trieCreate_cfg (s : State) : (trieCreate s).cfg = s.cfg := rfl
@[simp] theorem trieCreate_runState (s : State) : (trieCreate s).runState = s.runState := rfl
@[simp] theorem trieCreate_err (s : State) : (trieCreate s).err = s.err := rfl
@[simp] theorem trieCreate_nextCode (s : State) : (trieCreate s).nextCode = s.nextCode := rfl
@[simp] theorem trieCreate_cur (s : State) : (trieCreate s).cur = s.cur := rfl
@[simp] theorem trieCreate_prevCode (s : State) : (trieCreate s).prevCode = s.prevCode := rfl
@[simp] theorem trieCreate_prevSym (s : State) : (trieCreate s).prevSym = s.prevSym := rfl
@[simp] theorem trieCreate_prot (s : State) : (trieCreate s).prot = s.prot := rfl
@[simp] theorem trieCreate_rpCode (s : State) : (trieCreate s).rpCode = s.rpCode := rfl
@[simp] theorem trieCreate_rpSym (s : State) : (trieCreate s).rpSym = s.rpSym := rfl
@[simp] theorem trieCreate_hasMore (s : State) : (trieCreate s).hasMore = s.hasMore := rfl
@[simp] theorem trieCreate_trieLive (s : State) : (trieCreate s).trieLive = true := rfl
@[simp] theorem trieCreate_wtLive (s : State) : (trieCreate s).wtLive = s.wtLive := rfl
@[simp] theorem trieCreate_child (s : State) : (trieCreate s).child = [] := rfl
@[simp] theorem trieCreate_wt (s : State) : (trieCreate s).wt = s.wt := rfl
@[simp] theorem trieCreate_wbuf (s : State) : (trieCreate s).wbuf = s.wbuf := rfl
@[simp] theorem trieCreate_rbuf (s : State) : (trieCreate s).rbuf = s.rbuf := rfl
@[simp] theorem trieCreate_obuf (s : State) : (trieCreate s).obuf = s.obuf := rfl
@[simp] theorem trieCreate_widx (s : State) : (trieCreate s).widx = s.widx := rfl
@[simp] theorem trieCreate_ridx (s : State) : (trieCreate s).ridx = s.ridx := rfl
@[simp] theorem trieCreate_oidx (s : State) : (trieCreate s).oidx = s.oidx := rfl
@[simp] theorem trieCreate_totalBits (s : State) : (trieCreate s).totalBits = s.totalBits := rfl
@[simp] theorem trieCreate_totalSyms (s : State) : (trieCreate s).totalSyms = s.totalSyms := rfl
@[simp] theorem trieCreate_zinPos (s : State) : (trieCreate s).zinPos = s.zinPos := rfl
@[simp] theorem trieCreate_zin (s : State) : (trieCreate s).zin = s.zin := rfl
@[simp] theorem trieCreate_zout (s : State) : (trieCreate s).zout = s.zout := rfl
@[simp] theorem trieCreate_sout (s : State) : (trieCreate s).sout = s.sout := rfl
@[simp] theorem trieCreate_cmdIn (s : State) : (trieCreate s).cmdIn = s.cmdIn := rfl
@[simp] theorem trieCreate_unitIn (s : State) : (trieCreate s).unitIn = s.unitIn := rfl
@[simp] theorem trieCreate_unitOut (s : State) : (trieCreate s).unitOut = s.unitOut := rfl
@[simp] theorem trieCreate_freeIndex (s : State) : (trieCreate s).freeIndex = s.freeIndex := rfl

/-! ### wtCreate -/

@[simp] theorem wtCreate_cfg (s : State) : (wtCreate s).cfg = s.cfg := rfl
@[simp] theorem wtCreate_runState (s : State) : (wtCreate s).runState = s.runState := rfl
@[simp] theorem wtCreate_err (s : State) : (wtCreate s).err = s.err := rfl
@[simp] theorem wtCreate_nextCode (s : State) : (wtCreate s).nextCode = s.nextCode := rfl
@[simp] theorem wtCreate_cur (s : State) : (wtCreate s).cur = s.cur := rfl
@[simp] theorem wtCreate_prevCode (s : State) : (wtCreate s).prevCode = s.prevCode := rfl
@[simp] theorem wtCreate_prevSym (s : State) : (wtCreate s).prevSym = s.prevSym := rfl
@[simp] theorem wtCreate_prot (s : State) : (wtCreate s).prot = s.prot := rfl
@[simp] theorem wtCreate_rpCode (s : State) : (wtCreate s).rpCode = s.rpCode := rfl
@[simp] theorem wtCreate_rpSym (s : State) : (wtCreate s).rpSym = s.rpSym := rfl
@[simp] theorem wtCreate_hasMore (s : State) : (wtCreate s).hasMore = s.hasMore := rfl
@[simp] theorem wtCreate_trieLive (s : State) : (wtCreate s).trieLive = s.trieLive := rfl
@[simp] theorem wtCreate_wtLive (s : State) : (wtCreate s).wtLive = true := rfl
@[simp] theorem wtCreate_child (s : State) : (wtCreate s).child = s.child := rfl
@[simp] theorem wtCreate_wt (s : State) : (wtCreate s).wt = emptyTable := rfl
@[simp] theorem wtCreate_wbuf (s : State) : (wtCreate s).wbuf = s.wbuf := rfl
@[simp] theorem wtCreate_rbuf (s : State) : (wtCreate s).rbuf = s.rbuf := rfl
@[simp] theorem wtCreate_obuf (s : State) : (wtCreate s).obuf = s.obuf := rfl
@[simp] theorem wtCreate_widx (s : State) : (wtCreate s).widx = s.widx := rfl
@[simp] theorem wtCreate_ridx (s : State) : (wtCreate s).ridx = s.ridx := rfl
@[simp] theorem wtCreate_oidx (s : State) : (wtCreate s).oidx = s.oidx := rfl
@[simp] theorem wtCreate_totalBits (s : State) : (wtCreate s).totalBits = s.totalBits := rfl
@[simp] theorem wtCreate_totalSyms (s : State) : (wtCreate s).totalSyms = s.totalSyms := rfl
@[simp] theorem wtCreate_zinPos (s : State) : (wtCreate s).zinPos = s.zinPos := rfl
@[simp] theorem wtCreate_zin (s : State) : (wtCreate s).zin = s.zin := rfl
@[simp] theorem wtCreate_zout (s : State) : (wtCreate s).zout = s.zout := rfl
@[simp] theorem wtCreate_sout (s : State) : (wtCreate s).sout = s.sout := rfl
@[simp] theorem wtCreate_cmdIn (s : State) : (wtCreate s).cmdIn = s.cmdIn := rfl
@[simp] theorem wtCreate_unitIn (s : State) : (wtCreate s).unitIn = s.unitIn := rfl
@[simp] theorem wtCreate_unitOut (s : State) : (wtCreate s).unitOut = s.unitOut := rfl
@[simp] theorem wtCreate_freeIndex (s : State) : (wtCreate s).freeIndex = s.freeIndex := rfl

/-! ### writeHeader -/

@[simp] theorem writeHeader_cfg (m : BitVec 32) (p : BitVec 16) (s : State) : (writeHeader m p s).cfg = s.cfg := rfl
@[simp] theorem writeHeader_runState (m : BitVec 32) (p : BitVec 16) (s : State) : (writeHeader m p s).runState = s.runState := rfl
@[simp] theorem writeHeader_err (m : BitVec 32) (p : BitVec 16) (s : State) : (writeHeader m p s).err = s.err := rfl
@[simp] theorem writeHeader_nextCode (m : BitVec 32) (p : BitVec 16) (s : State) : (writeHeader m p s).nextCode = s.nextCode := rfl
@[simp] theorem writeHeader_cur (m : BitVec 32) (p : BitVec 16) (s : State) : (writeHeader m p s).cur = s.cur := rfl
@[simp] theorem writeHeader_prevCode (m : BitVec 32) (p : BitVec 16) (s : State) : (writeHeader m p s).prevCode = s.prevCode := rfl
@[simp] theorem writeHeader_prevSym (m : BitVec 32) (p : BitVec 16) (s : State) : (writeHeader m p s).prevSym = s.prevSym := rfl
@[simp] theorem writeHeader_prot (m : BitVec 32) (p : BitVec 16) (s : State) : (writeHeader m p s).prot = s.prot := rfl
@[simp] theorem writeHeader_rpCode (m : BitVec 32) (p : BitVec 16) (s : State) : (writeHeader m p s).rpCode = s.rpCode := rfl
@[simp] theorem writeHeader_rpSym (m : BitVec 32) (p : BitVec 16) (s : State) : (writeHeader m p s).rpSym = s.rpSym := rfl
@[simp] theorem writeHeader_hasMore (m : BitVec 32) (p : BitVec 16) (s : State) : (writeHeader m p s).hasMore = s.hasMore := rfl
@[simp] theorem writeHeader_trieLive (m : BitVec 32) (p : BitVec 16) (s : State) : (writeHeader m p s).trieLive = s.trieLive := rfl
@[simp] theorem writeHeader_wtLive (m : BitVec 32) (p : BitVec 16) (s : State) : (writeHeader m p s).wtLive = s.wtLive := rfl
@[simp] theorem writeHeader_child (m : BitVec 32) (p : BitVec 16) (s : State) : (writeHeader m p s).child = s.child := rfl
@[simp] theorem writeHeader_wt (m : BitVec 32) (p : BitVec 16) (s : State) : (writeHeader m p s).wt = s.wt := rfl
@[simp] theorem writeHeader_wbuf (m : BitVec 32) (p : BitVec 16) (s : State) : (writeHeader m p s).wbuf = s.wbuf := rfl
@[simp] theorem writeHeader_rbuf (m : BitVec 32) (p : BitVec 16) (s : State) : (writeHeader m p s).rbuf = s.rbuf := rfl
@[simp] theorem writeHeader_obuf (m : BitVec 32) (p : BitVec 16) (s : State) : (writeHeader m p s).obuf = s.obuf := rfl
@[simp] theorem writeHeader_widx (m : BitVec 32) (p : BitVec 16) (s : State) : (writeHeader m p s).widx = s.widx := rfl
@[simp] theorem writeHeader_ridx (m : BitVec 32) (p : BitVec 16) (s : State) : (writeHeader m p s).ridx = s.ridx := rfl
@[simp] theorem writeHeader_oidx (m : BitVec 32) (p : BitVec 16) (s : State) : (writeHeader m p s).oidx = s.oidx := rfl
@[simp] theorem writeHeader_totalBits (m : BitVec 32) (p : BitVec 16) (s : State) : (writeHeader m p s).totalBits = s.totalBits := rfl
@[simp] theorem writeHeader_totalSyms (m : BitVec 32) (p : BitVec 16) (s : State) : (writeHeader m p s).totalSyms = s.totalSyms := rfl
@[simp] theorem writeHeader_zinPos (m : BitVec 32) (p : BitVec 16) (s : State) : (writeHeader m p s).zinPos = s.zinPos := rfl
@[simp] theorem writeHeader_zin (m : BitVec 32) (p : BitVec 16) (s : State) : (writeHeader m p s).zin = s.zin := rfl
@[simp] theorem writeHeader_zout (m : BitVec 32) (p : BitVec 16) (s : State) : (writeHeader m p s).zout = s.zout ++ headerImage s.cfg m p := rfl
@[simp] theorem writeHeader_sout (m : BitVec 32) (p : BitVec 16) (s : State) : (writeHeader m p s).sout = s.sout := rfl
@[simp] theorem writeHeader_cmdIn (m : BitVec 32) (p : BitVec 16) (s : State) : (writeHeader m p s).cmdIn = s.cmdIn := rfl
@[simp] theorem writeHeader_unitIn (m : BitVec 32) (p : BitVec 16) (s : State) : (writeHeader m p s).unitIn = s.unitIn := rfl
@[simp] theorem writeHeader_unitOut (m : BitVec 32) (p : BitVec 16) (s : State) : (writeHeader m p s).unitOut = s.unitOut := rfl
@[simp] theorem writeHeader_freeIndex (m : BitVec 32) (p : BitVec 16) (s : State) : (writeHeader m p s).freeIndex = s.freeIndex := rfl

/-! ### resetState -/

@[simp] theorem resetState_cfg (s : State) : (resetState s).cfg = s.cfg := rfl
@[simp] theorem resetState_runState (s : State) : (resetState s).runState = .idle := rfl
@[simp] theorem resetState_err (s : State) : (resetState s).err = 0 := rfl
@[simp] theorem resetState_nextCode (s : State) : (resetState s).nextCode = startCode := rfl
@[simp] theorem resetState_cur (s : State) : (resetState s).cur = emptyCode := rfl
@[simp] theorem resetState_prevCode (s : State) : (resetState s).prevCode = 0 := rfl
@[simp] theorem resetState_prevSym (s : State) : (resetState s).prevSym = 0 := rfl
@[simp] theorem resetState_prot (s : State) : (resetState s).prot = 0 := rfl
@[simp] theorem resetState_rpCode (s : State) : (resetState s).rpCode = 0 := rfl
@[simp] theorem resetState_rpSym (s : State) : (resetState s).rpSym = 0 := rfl
@[simp] theorem resetState_hasMore (s : State) : (resetState s).hasMore = false := rfl
@[simp] theorem resetState_trieLive (s : State) : (resetState s).trieLive = false := rfl
@[simp] theorem resetState_wtLive (s : State) : (resetState s).wtLive = false := rfl
@[simp] theorem resetState_child (s : State) : (resetState s).child = [] := rfl
@[simp] theorem resetState_wt (s : State) : (resetState s).wt = [] := rfl
@[simp] theorem resetState_wbuf (s : State) : (resetState s).wbuf = [] := rfl
@[simp] theorem resetState_rbuf (s : State) : (resetState s).rbuf = [] := rfl
@[simp] theorem resetState_obuf (s : State) : (resetState s).obuf = [] := rfl
@[simp] theorem resetState_widx (s : State) : (resetState s).widx = 0 := rfl
@[simp] theorem resetState_ridx (s : State) : (resetState s).ridx = 8 * s.cfg.block := rfl
@[simp] theorem resetState_oidx (s : State) : (resetState s).oidx = 0 := rfl
@[simp] theorem resetState_totalBits (s : State) : (resetState s).totalBits = 0 := rfl
@[simp] theorem resetState_totalSyms (s : State) : (resetState s).totalSyms = 0 := rfl
@[simp] theorem resetState_zinPos (s : State) : (resetState s).zinPos = 0 := rfl
@[simp] theorem resetState_zin (s : State) : (resetState s).zin = s.zin := rfl
@[simp] theorem resetState_zout (s : State) : (resetState s).zout = [] := rfl
@[simp] theorem resetState_sout (s : State) : (resetState s).sout = [] := rfl
@[simp] theorem resetState_cmdIn (s : State) : (resetState s).cmdIn = s.cmdIn := rfl
@[simp] theorem resetState_unitIn (s : State) : (resetState s).unitIn = s.unitIn := rfl
@[simp] theorem resetState_unitOut (s : State) : (resetState s).unitOut = .none := rfl
@[simp] theorem resetState_freeIndex (s : State) : (resetState s).freeIndex = s.freeIndex := rfl

end Sys2Proof.Machine
end

