-- ==== Sys2Proof/Laws/Maps.lean ====
section
/-! SUPPORT. The laws of the sparse maps and of the byte buffers: read after write, canonical form kept, equal reads make equal
maps. -/

namespace Sys2Proof.Machine

variable {α : Type}

/-! ### Slots -/

theorem slotGet_put (m : SlotMap α) (k : Nat) (v : α) (k' : Nat) :
    slotGet (slotPut m k v) k' = if k' = k then some v else slotGet m k' := by
  induction m with
  | nil =>
    by_cases h : k' = k
    · simp [slotPut, slotGet, h]
    · have hne : k ≠ k' := fun e => h e.symm
      simp [slotPut, slotGet, h, hne]
  | cons e m ih =>
    obtain ⟨a, w⟩ := e
    rcases Nat.lt_trichotomy k a with h1 | h1 | h1
    · simp only [slotPut, h1, if_true]
      by_cases h : k' = k
      · simp [slotGet, h]
      · have hne : k ≠ k' := fun e => h e.symm
        simp [slotGet, h, hne]
    · subst h1
      simp only [slotPut, lt_irrefl, if_false, if_true]
      by_cases h : k' = k
      · simp [slotGet, h]
      · have hne : k ≠ k' := fun e => h e.symm
        simp [slotGet, h, hne]
    · have h2 : a ≠ k := by omega
      simp only [slotPut, show ¬ k < a by omega, h2, if_false]
      by_cases h : a = k'
      · subst h; simp [slotGet, h2]
      · simp [slotGet, h, ih]

@[simp] theorem slotGet_put_self (m : SlotMap α) (k : Nat) (v : α) : slotGet (slotPut m k v) k = some v := by
  simp [slotGet_put]

theorem slotGet_put_ne (m : SlotMap α) {k k' : Nat} (v : α) (h : k' ≠ k) :
    slotGet (slotPut m k v) k' = slotGet m k' := by
  simp [slotGet_put, h]

theorem slotGet_del (m : SlotMap α) (k k' : Nat) :
    slotGet (slotDel m k) k' = if k' = k then none else slotGet m k' := by
  induction m with
  | nil => simp [slotDel, slotGet]
  | cons e m ih =>
    obtain ⟨a, w⟩ := e
    unfold slotDel at ih ⊢
    by_cases h : a = k
    · subst h
      rw [List.filter_cons_of_neg (by simp), ih]
      by_cases h2 : k' = a
      · simp [h2]
      · have : a ≠ k' := fun e => h2 e.symm
        simp [h2, slotGet, this]
    · rw [List.filter_cons_of_pos (by simpa using h)]
      by_cases h2 : a = k'
      · subst h2; simp [slotGet, h]
      · simp only [slotGet, h2, if_false]; exact ih

theorem mem_of_slotGet {m : SlotMap α} {k : Nat} {v : α} (h : slotGet m k = some v) : (k, v) ∈ m := by
  induction m with
  | nil => simp [slotGet] at h
  | cons e m ih =>
    obtain ⟨a, w⟩ := e
    by_cases hk : a = k
    · subst hk; simp [slotGet] at h; simp [h]
    · simp [slotGet, hk] at h; exact List.mem_cons_of_mem _ (ih h)

theorem slotGet_of_mem {m : SlotMap α} (hw : SlotMap.wf m) {k : Nat} {v : α} (h : (k, v) ∈ m) : slotGet m k = some v := by
  induction m with
  | nil => simp at h
  | cons e m ih =>
    obtain ⟨a, w⟩ := e
    rw [SlotMap.wf, List.pairwise_cons] at hw
    rcases List.mem_cons.1 h with h | h
    · cases h; simp [slotGet]
    · have : a < k := hw.1 _ h
      have hne : a ≠ k := by omega
      simp [slotGet, hne, ih hw.2 h]

theorem slotGet_eq_some_iff {m : SlotMap α} (hw : SlotMap.wf m) {k : Nat} {v : α} :
    slotGet m k = some v ↔ (k, v) ∈ m := ⟨mem_of_slotGet, slotGet_of_mem hw⟩

theorem slotGet_eq_none {m : SlotMap α} {k : Nat} (h : ∀ e ∈ m, e.1 ≠ k) : slotGet m k = none := by
  cases hg : slotGet m k with
  | none => rfl
  | some v => exact absurd rfl (h _ (mem_of_slotGet hg))

theorem key_mem_slotPut {m : SlotMap α} {k : Nat} {v : α} {e : Nat × α} (h : e ∈ slotPut m k v) :
    e = (k, v) ∨ e ∈ m := by
  induction m with
  | nil => simp [slotPut] at h; exact .inl h
  | cons f m ih =>
    obtain ⟨a, w⟩ := f
    unfold slotPut at h
    split_ifs at h with h1 h2
    · simpa using h
    · simp at h; rcases h with h | h <;> simp [h]
    · rcases List.mem_cons.1 h with h | h
      · simp [h]
      · rcases ih h with h | h <;> simp [h]

theorem slotPut_wf {m : SlotMap α} (hw : SlotMap.wf m) (k : Nat) (v : α) : SlotMap.wf (slotPut m k v) := by
  induction m with
  | nil => simp [slotPut, SlotMap.wf]
  | cons e m ih =>
    obtain ⟨a, w⟩ := e
    have hw' := hw
    rw [SlotMap.wf, List.pairwise_cons] at hw'
    unfold slotPut
    split_ifs with h1 h2
    · rw [SlotMap.wf, List.pairwise_cons]
      refine ⟨fun e he => ?_, hw⟩
      rcases List.mem_cons.1 he with rfl | he
      · exact h1
      · exact Nat.lt_trans h1 (hw'.1 e he)
    · subst h2
      rw [SlotMap.wf, List.pairwise_cons]
      exact ⟨fun e he => hw'.1 e he, hw'.2⟩
    · rw [SlotMap.wf, List.pairwise_cons]
      refine ⟨fun e he => ?_, ih hw'.2⟩
      rcases key_mem_slotPut he with rfl | he
      · show a < k; omega
      · exact hw'.1 e he

theorem mem_slotPut {m : SlotMap α} (hw : SlotMap.wf m) {k : Nat} {v : α} {e : Nat × α} :
    e ∈ slotPut m k v ↔ e = (k, v) ∨ (e ∈ m ∧ e.1 ≠ k) := by
  obtain ⟨a, w⟩ := e
  rw [← slotGet_eq_some_iff (slotPut_wf hw k v), slotGet_put, ← slotGet_eq_some_iff hw]
  by_cases h : a = k
  · subst h; simp [eq_comm]
  · simp [h]

theorem slotDel_wf {m : SlotMap α} (hw : SlotMap.wf m) (k : Nat) : SlotMap.wf (slotDel m k) :=
  List.Pairwise.filter _ hw

theorem filter_wf {m : SlotMap α} (hw : SlotMap.wf m) (p : Nat × α → Bool) : SlotMap.wf (m.filter p) :=
  List.Pairwise.filter _ hw

theorem slotGet_filter {m : SlotMap α} (hw : SlotMap.wf m) (p : Nat × α → Bool) {k : Nat} {v : α} :
    slotGet (m.filter p) k = some v ↔ slotGet m k = some v ∧ p (k, v) = true := by
  rw [slotGet_eq_some_iff (filter_wf hw p), slotGet_eq_some_iff hw, List.mem_filter]

/-- Equal reads make equal canonical maps. -/
theorem slotMap_ext {m m' : SlotMap α} (hw : SlotMap.wf m) (hw' : SlotMap.wf m') (h : ∀ k, slotGet m k = slotGet m' k) :
    m = m' := by
  induction m generalizing m' with
  | nil =>
    cases m' with
    | nil => rfl
    | cons e m' => have := h e.1; simp [slotGet] at this
  | cons e m ih =>
    cases m' with
    | nil => have := h e.1; simp [slotGet] at this
    | cons f m' =>
      obtain ⟨a, v⟩ := e
      obtain ⟨b, w⟩ := f
      have hw1 := hw
      have hw1' := hw'
      rw [SlotMap.wf, List.pairwise_cons] at hw1 hw1'
      have hab : a = b := by
        rcases Nat.lt_trichotomy a b with hlt | heq | hgt
        · have := h a
          rw [slotGet_eq_none (m := (b, w) :: m') (by
            intro e he
            rcases List.mem_cons.1 he with rfl | he
            · show b ≠ a; omega
            · have := hw1'.1 e he; simp at this; omega)] at this
          simp [slotGet] at this
        · exact heq
        · have := h b
          rw [slotGet_eq_none (m := (a, v) :: m) (by
            intro e he
            rcases List.mem_cons.1 he with rfl | he
            · show a ≠ b; omega
            · have := hw1.1 e he; simp at this; omega)] at this
          simp [slotGet] at this
      subst hab
      have hv : v = w := by have := h a; simpa [slotGet] using this
      subst hv
      congr 1
      refine ih hw1.2 hw1'.2 fun k => ?_
      by_cases hk : a = k
      · subst hk
        rw [slotGet_eq_none fun e he => ?_, slotGet_eq_none fun e he => ?_]
        · have := hw1'.1 e he; simp at this; omega
        · have := hw1.1 e he; simp at this; omega
      · have := h k; simpa [slotGet, hk] using this

/-! ### Bytes -/

@[simp] theorem Memory.read_nil (a : Nat) : Memory.read [] a = 0#8 := rfl

theorem Memory.read_write (m : Memory) (a : Nat) (b : Byte) (a' : Nat) :
    Memory.read (Memory.write m a b) a' = if a' = a then b else Memory.read m a' := by
  unfold Memory.read Memory.write
  by_cases hb : b = 0#8
  · rw [if_pos hb, slotGet_del]; by_cases h : a' = a <;> simp [h, hb]
  · rw [if_neg hb, slotGet_put]; by_cases h : a' = a <;> simp [h]

theorem Memory.write_wf {m : Memory} (hw : Memory.wf m) (a : Nat) (b : Byte) : Memory.wf (Memory.write m a b) := by
  unfold Memory.write
  by_cases hb : b = 0#8
  · rw [if_pos hb]
    exact ⟨slotDel_wf hw.1 a, fun c hc => hw.2 c (List.mem_of_mem_filter hc)⟩
  · rw [if_neg hb]
    refine ⟨slotPut_wf hw.1 a b, fun c hc => ?_⟩
    rcases key_mem_slotPut hc with rfl | hc
    · exact hb
    · exact hw.2 c hc

theorem Memory.write_below {m : Memory} {n : Nat} (hm : ∀ c ∈ m, c.1 < n) {a : Nat} (ha : a < n) (b : Byte) :
    ∀ c ∈ Memory.write m a b, c.1 < n := by
  unfold Memory.write
  split
  · exact fun c hc => hm c (List.mem_of_mem_filter hc)
  · intro c hc
    rcases key_mem_slotPut hc with rfl | hc
    · exact ha
    · exact hm c hc

/-- Equal reads make equal canonical buffers. -/
theorem Memory.ext {m m' : Memory} (hw : Memory.wf m) (hw' : Memory.wf m') (h : ∀ a, Memory.read m a = Memory.read m' a) :
    m = m' := by
  refine slotMap_ext hw.1 hw'.1 fun k => ?_
  have key : ∀ {m : Memory}, Memory.wf m → ∀ v, slotGet m k = some v → v ≠ 0#8 :=
    fun hw v hv => hw.2 _ (mem_of_slotGet hv)
  have hk := h k
  unfold Memory.read at hk
  cases h1 : slotGet m k with
  | none =>
    cases h2 : slotGet m' k with
    | none => rfl
    | some w => rw [h1, h2] at hk; exact absurd hk.symm (key hw' w h2)
  | some v =>
    cases h2 : slotGet m' k with
    | none => rw [h1, h2] at hk; exact absurd hk (key hw v h1)
    | some w => rw [h1, h2] at hk; simpa using hk

theorem Memory.ofBytesFrom_keys (bs : ByteSeq) (a : Nat) :
    ∀ c ∈ Memory.ofBytesFrom a bs, a ≤ c.1 ∧ c.1 < a + bs.length := by
  induction bs generalizing a with
  | nil => simp [Memory.ofBytesFrom]
  | cons b bs ih =>
    intro c hc
    unfold Memory.ofBytesFrom at hc
    split at hc
    · have := ih (a + 1) c hc; simp; omega
    · rcases List.mem_cons.1 hc with rfl | hc
      · simp
      · have := ih (a + 1) c hc; simp; omega

theorem Memory.ofBytesFrom_wf (bs : ByteSeq) (a : Nat) : Memory.wf (Memory.ofBytesFrom a bs) := by
  induction bs generalizing a with
  | nil => exact ⟨List.Pairwise.nil, by simp [Memory.ofBytesFrom]⟩
  | cons b bs ih =>
    unfold Memory.ofBytesFrom
    split_ifs with hb
    · exact ih (a + 1)
    · refine ⟨List.pairwise_cons.2 ⟨fun c hc => ?_, (ih (a + 1)).1⟩, fun c hc => ?_⟩
      · have := (Memory.ofBytesFrom_keys bs (a + 1) c hc).1; simp; omega
      · rcases List.mem_cons.1 hc with rfl | hc
        · exact hb
        · exact (ih (a + 1)).2 c hc

theorem Memory.read_ofBytesFrom (bs : ByteSeq) (a k : Nat) :
    Memory.read (Memory.ofBytesFrom a bs) k = if a ≤ k then bs.getD (k - a) 0#8 else 0#8 := by
  induction bs generalizing a with
  | nil => simp [Memory.ofBytesFrom]
  | cons b bs ih =>
    unfold Memory.ofBytesFrom
    by_cases hk : k = a
    · subst hk
      split_ifs with hb <;> simp_all [Memory.read, slotGet]
    · have hne : a ≠ k := fun e => hk e.symm
      have hcons : (if a ≤ k then (b :: bs).getD (k - a) 0#8 else 0#8) = if a + 1 ≤ k then bs.getD (k - (a + 1)) 0#8 else 0#8 := by
        by_cases h : a ≤ k
        · have h' : a + 1 ≤ k := by omega
          rw [if_pos h, if_pos h', show k - a = (k - (a + 1)) + 1 by omega, List.getD_cons_succ]
        · rw [if_neg h, if_neg (by omega)]
      rw [hcons, ← ih (a + 1)]
      split_ifs with hb
      · rfl
      · simp [Memory.read, slotGet, hne]

theorem Memory.read_ofBytes (bs : ByteSeq) (k : Nat) : Memory.read (Memory.ofBytes bs) k = bs.getD k 0#8 := by
  simp [Memory.ofBytes, Memory.read_ofBytesFrom]

theorem Memory.ofBytes_wf (bs : ByteSeq) : Memory.wf (Memory.ofBytes bs) := Memory.ofBytesFrom_wf bs 0

theorem Memory.ofBytes_below (bs : ByteSeq) : ∀ c ∈ Memory.ofBytes bs, c.1 < bs.length := fun c hc => by
  have := (Memory.ofBytesFrom_keys bs 0 c hc).2; simpa using this

@[simp] theorem Memory.firstBytes_length (m : Memory) (n : Nat) : (Memory.firstBytes m n).length = n := by
  simp [Memory.firstBytes]

theorem Memory.firstBytes_succ (m : Memory) (n : Nat) :
    Memory.firstBytes m (n + 1) = Memory.firstBytes m n ++ [Memory.read m n] := by
  simp [Memory.firstBytes, List.range_succ]

theorem Memory.firstBytes_congr {m m' : Memory} {n : Nat} (h : ∀ a < n, Memory.read m a = Memory.read m' a) :
    Memory.firstBytes m n = Memory.firstBytes m' n :=
  List.map_congr_left fun a ha => h a (List.mem_range.1 ha)

/-! ### Slots of the child map -/

theorem childSlot_inj {n n' : Code} {b b' : Byte} : childSlot n b = childSlot n' b' ↔ n = n' ∧ b = b' := by
  unfold childSlot
  have h1 := b.isLt
  have h2 := b'.isLt
  constructor
  · intro h
    have hn : n.toNat = n'.toNat := by omega
    exact ⟨BitVec.eq_of_toNat_eq hn, BitVec.eq_of_toNat_eq (by omega)⟩
  · rintro ⟨rfl, rfl⟩; rfl

@[simp] theorem slotNode_childSlot (n : Code) (b : Byte) : slotNode (childSlot n b) = n.toNat := by
  unfold slotNode childSlot; have := b.isLt; omega

theorem nodeLive_iff {child : SlotMap Code} {c : Code} : nodeLive child c = true ↔ c = emptyCode ∨ ∃ e ∈ child, e.2 = c := by
  simp [nodeLive]

end Sys2Proof.Machine
end

