-- ==== Sys2Proof/Laws/Bits.lean ====
section
/-! SUPPORT. The laws of bits, bytes and numbers: GetBits inverts PutBits, packing inverts unpacking, one bit of a buffer at a
time. -/

namespace Sys2Proof.Machine

theorem list_ext_getD {β : Type} {l l' : List β} (d : β) (hlen : l.length = l'.length)
    (h : ∀ i < l.length, l.getD i d = l'.getD i d) : l = l' := by
  refine List.ext_getElem hlen fun i h1 h2 => ?_
  have := h i h1
  rwa [List.getD_eq_getElem _ _ h1, List.getD_eq_getElem _ _ h2] at this

theorem getD_map_range {β : Type} (f : Nat → β) (n i : Nat) (d : β) :
    ((List.range n).map f).getD i d = if i < n then f i else d := by
  by_cases h : i < n
  · rw [List.getD_eq_getElem _ _ (by simpa using h)]; simp [h]
  · rw [List.getD_eq_default _ _ (by simpa using h)]; simp [h]

theorem getD_append {β : Type} (l l' : List β) (i : Nat) (d : β) :
    (l ++ l').getD i d = if i < l.length then l.getD i d else l'.getD (i - l.length) d := by
  split_ifs with h
  · exact List.getD_append _ _ _ _ h
  · exact List.getD_append_right _ _ _ _ (by omega)

/-! ### Numbers and their bits -/

@[simp] theorem bitsOf_length (v n : Nat) : (bitsOf v n).length = n := by simp [bitsOf]

theorem bitsOf_getD (v n i : Nat) : (bitsOf v n).getD i false = if i < n then v.testBit i else false :=
  getD_map_range _ _ _ _

theorem bitsOf_succ (v n : Nat) : bitsOf v (n + 1) = v.testBit 0 :: bitsOf (v / 2) n := by
  simp only [bitsOf, List.range_succ_eq_map, List.map_cons, List.map_map]
  congr 1
  refine List.map_congr_left fun i _ => ?_
  simp [Function.comp, Nat.testBit_succ]

theorem natOfBits_testBit (bs : List Bool) (i : Nat) : (natOfBits bs).testBit i = bs.getD i false := by
  induction bs generalizing i with
  | nil => simp [natOfBits]
  | cons b bs ih =>
    cases i with
    | zero => cases b <;> simp [natOfBits, Nat.testBit_zero, Nat.add_mod]
    | succ i =>
      rw [Nat.testBit_succ, List.getD_cons_succ, ← ih]
      congr 1
      cases b
      · simp [natOfBits]
      · simp [natOfBits]; omega

theorem natOfBits_lt (bs : List Bool) : natOfBits bs < 2 ^ bs.length := by
  induction bs with
  | nil => simp [natOfBits]
  | cons b bs ih =>
    have : b.toNat ≤ 1 := Bool.toNat_le b
    simp only [natOfBits, List.length_cons, pow_succ]; omega

theorem natOfBits_bitsOf (v n : Nat) : natOfBits (bitsOf v n) = v % 2 ^ n := by
  refine Nat.eq_of_testBit_eq fun i => ?_
  rw [natOfBits_testBit, bitsOf_getD, Nat.testBit_mod_two_pow]
  by_cases h : i < n <;> simp [h]

theorem bitsOf_natOfBits (bs : List Bool) : bitsOf (natOfBits bs) bs.length = bs := by
  refine list_ext_getD false (by simp) fun i hi => ?_
  simp only [bitsOf_length] at hi
  rw [bitsOf_getD, if_pos hi, natOfBits_testBit]

/-- A 16-bit code whose value fits the width is read back from its bits. -/
theorem code_of_bits {c : Code} {w : Nat} (h : c.toNat < 2 ^ w) : BitVec.ofNat 16 (natOfBits (bitsOf c.toNat w)) = c := by
  rw [natOfBits_bitsOf, Nat.mod_eq_of_lt h]; simp

/-- A byte is read back from its eight bits. -/
theorem byte_of_bits (y : Byte) : BitVec.ofNat 8 (natOfBits (bitsOf y.toNat 8)) = y := by
  rw [natOfBits_bitsOf, Nat.mod_eq_of_lt y.isLt]; simp

@[simp] theorem pairBits_length (c : Code) (y : Byte) (w : Nat) : (pairBits c y w).length = w + 8 := by simp [pairBits]

/-! ### Bit length -/

theorem lt_two_pow_bitLength (n : Nat) : n < 2 ^ bitLength n := by
  unfold bitLength
  split_ifs with h
  · simp [h]
  · exact Nat.lt_log2_self

theorem bitLength_le {n k : Nat} (h : n < 2 ^ k) : bitLength n ≤ k := by
  unfold bitLength
  split_ifs with h0
  · simp
  · have := (Nat.log2_lt h0).2 h; omega

theorem two_pow_le_bitLength {n : Nat} (h : n ≠ 0) : 2 ^ (bitLength n - 1) ≤ n := by
  unfold bitLength
  rw [if_neg h]
  exact Nat.log2_self_le h

theorem bitLength_mono {m n : Nat} (h : m ≤ n) : bitLength m ≤ bitLength n :=
  bitLength_le (Nat.lt_of_le_of_lt h (lt_two_pow_bitLength n))

theorem two_le_bitLength {n : Nat} (h : 2 ≤ n) : 2 ≤ bitLength n := by
  have := bitLength_mono h
  have h2 : bitLength 2 = 2 := by decide
  omega

/-! ### Bytes and their bits -/

@[simp] theorem bytesBits_nil : bytesBits [] = [] := rfl

theorem bytesBits_cons (b : Byte) (bs : ByteSeq) : bytesBits (b :: bs) = bitsOf b.toNat 8 ++ bytesBits bs := rfl

theorem bytesBits_append (bs bs' : ByteSeq) : bytesBits (bs ++ bs') = bytesBits bs ++ bytesBits bs' := by
  simp [bytesBits]

@[simp] theorem bytesBits_length (bs : ByteSeq) : (bytesBits bs).length = 8 * bs.length := by
  induction bs with
  | nil => rfl
  | cons b bs ih => simp [bytesBits_cons, ih]; omega

theorem bytesBits_getD (bs : ByteSeq) (i : Nat) : (bytesBits bs).getD i false = (bs.getD (i / 8) 0#8).getLsbD (i % 8) := by
  induction bs generalizing i with
  | nil => simp
  | cons b bs ih =>
    rw [bytesBits_cons, getD_append]
    by_cases h : i < 8
    · rw [if_pos (by simpa using h), bitsOf_getD, if_pos h, Nat.div_eq_of_lt h, Nat.mod_eq_of_lt h]
      simp [BitVec.testBit_toNat]
    · rw [if_neg (by simpa using h), ih]
      have h1 : i / 8 = (i - 8) / 8 + 1 := by omega
      have h2 : (i - 8) % 8 = i % 8 := by omega
      simp [h1, h2]

@[simp] theorem packBytes_length (bits : List Bool) : (packBytes bits).length = (bits.length + 7) / 8 := by simp [packBytes]

/-- Unpacking a packed bit list gives it back, zero-padded to whole bytes. -/
theorem bytesBits_packBytes (bits : List Bool) :
    bytesBits (packBytes bits) = bits ++ List.replicate (8 * ((bits.length + 7) / 8) - bits.length) false := by
  refine list_ext_getD false (by simp; omega) fun i hi => ?_
  simp only [bytesBits_length, packBytes_length] at hi
  rw [bytesBits_getD]
  unfold packBytes
  rw [getD_map_range, if_pos (by omega)]
  simp only [BitVec.getLsbD_ofNat, natOfBits_testBit, getD_map_range]
  have h8 : i % 8 < 8 := Nat.mod_lt _ (by omega)
  have hi8 : 8 * (i / 8) + i % 8 = i := Nat.div_add_mod i 8
  simp only [h8, if_true, decide_true, Bool.true_and, hi8]
  rw [getD_append]
  split_ifs with h
  · rfl
  · rw [List.getD_eq_default _ _ (by omega)]
    by_cases h2 : i - bits.length < 8 * ((bits.length + 7) / 8) - bits.length
    · rw [List.getD_eq_getElem _ _ (by simpa using h2)]; simp
    · rw [List.getD_eq_default _ _ (by simpa using h2)]

theorem bytesBits_injective {bs bs' : ByteSeq} (h : bytesBits bs = bytesBits bs') : bs = bs' := by
  have hlen : bs.length = bs'.length := by
    have := congrArg List.length h; simp at this; exact this
  refine list_ext_getD 0#8 hlen fun i _ => BitVec.eq_of_getLsbD_eq fun j hj => ?_
  have := congrArg (fun l => l.getD (8 * i + j) false) h
  simp only [bytesBits_getD] at this
  rwa [show (8 * i + j) / 8 = i by omega, show (8 * i + j) % 8 = j by omega] at this

/-- Whole bytes at the front of a bit list pack to themselves. -/
theorem packBytes_bytesBits_append (bs : ByteSeq) (bits : List Bool) :
    packBytes (bytesBits bs ++ bits) = bs ++ packBytes bits := by
  apply bytesBits_injective
  rw [bytesBits_packBytes, bytesBits_append, bytesBits_packBytes, List.append_assoc]
  congr 3
  simp; omega

@[simp] theorem packBytes_nil : packBytes [] = [] := rfl

theorem packBytes_bytesBits (bs : ByteSeq) : packBytes (bytesBits bs) = bs := by
  have := packBytes_bytesBits_append bs []
  simpa using this

/-! ### One bit of a buffer -/

theorem setBit_getLsbD (x : Byte) {j : Nat} (hj : j < 8) (b : Bool) (i : Nat) :
    (setBit x j b).getLsbD i = if i = j then b else x.getLsbD i := by
  unfold setBit
  by_cases hi : i < 8
  · by_cases h : i = j
    · subst h; cases b <;> simp [hi]
    · cases b
      · simp [hi, h]
      · have hne : j ≠ i := fun e => h e.symm
        simp [h, hne]
  · have hne : i ≠ j := by omega
    rw [if_neg hne, BitVec.getLsbD_of_ge _ _ (by omega), BitVec.getLsbD_of_ge _ _ (by omega)]

theorem Memory.readBit_writeBit (m : Memory) (i : Nat) (b : Bool) (k : Nat) :
    Memory.readBit (Memory.writeBit m i b) k = if k = i then b else Memory.readBit m k := by
  unfold Memory.readBit Memory.writeBit
  rw [Memory.read_write]
  by_cases h : k / 8 = i / 8
  · rw [if_pos h, setBit_getLsbD _ (Nat.mod_lt _ (by omega))]
    by_cases h2 : k = i
    · simp [h2]
    · rw [if_neg (by omega), if_neg h2, h]
  · rw [if_neg h, if_neg (by intro e; exact h (by rw [e]))]

theorem Memory.read_writeBit_ne (m : Memory) (i : Nat) (b : Bool) {a : Nat} (h : a ≠ i / 8) :
    Memory.read (Memory.writeBit m i b) a = Memory.read m a := by
  unfold Memory.writeBit; rw [Memory.read_write, if_neg h]

/-- The bits of the first bytes of a buffer are its first bits. -/
theorem bytesBits_firstBytes (m : Memory) (n : Nat) :
    bytesBits (Memory.firstBytes m n) = (List.range (8 * n)).map (Memory.readBit m) := by
  refine list_ext_getD false (by simp) fun i hi => ?_
  simp at hi
  rw [bytesBits_getD, getD_map_range, if_pos hi]
  unfold Memory.firstBytes
  rw [getD_map_range, if_pos (by omega)]
  rfl

end Sys2Proof.Machine
end

