-- ==== Sys2Proof/Laws/Outcome.lean ====
section
/-! SUPPORT. What a sequence of two parts can answer: the inversion lemmas of `andThen`. -/

namespace Sys2Proof.Machine

variable {α β : Type}

@[simp] theorem andThen_next (a : α) (f : α → Res β) : andThen (.next a) f = f a := rfl
@[simp] theorem andThen_fault (r : Fault) (f : α → Res β) : andThen (.fault r) f = .fault r := rfl
@[simp] theorem andThen_refused (r : Refusal) (f : α → Res β) : andThen (.refused r) f = .refused r := rfl

theorem andThen_eq_next {o : Res α} {f : α → Res β} {b : β} :
    andThen o f = .next b ↔ ∃ a, o = .next a ∧ f a = .next b := by
  cases o <;> simp

theorem andThen_eq_fault {o : Res α} {f : α → Res β} {r : Fault} :
    andThen o f = .fault r ↔ o = .fault r ∨ ∃ a, o = .next a ∧ f a = .fault r := by
  cases o <;> simp

theorem andThen_eq_refused {o : Res α} {f : α → Res β} {r : Refusal} :
    andThen o f = .refused r ↔ o = .refused r ∨ ∃ a, o = .next a ∧ f a = .refused r := by
  cases o <;> simp

/-! ### Error entry and the state table -/

theorem inState_of_eq {r : RunState} {s : State} (body : Res State) (h : s.runState = r) : inState r s body = body :=
  if_pos h

theorem inState_of_ne {r : RunState} {s : State} (body : Res State) (h : s.runState ≠ r) :
    inState r s body = .next (raiseError errCmd s) := if_neg h

/-- What `raise Error` does, whole: outside ERROR the cause and the state, in ERROR nothing. -/
theorem raiseError_eq (cause : BitVec 3) (s : State) :
    raiseError cause s =
      { s with err := if s.runState = .error then s.err else cause, runState := .error } := by
  unfold raiseError
  split_ifs with h
  · cases s; simp_all
  · rfl

theorem raiseError_of_ne {s : State} (cause : BitVec 3) (h : s.runState ≠ .error) :
    raiseError cause s = { s with err := cause, runState := .error } := if_neg h

theorem raiseError_of_error {s : State} (cause : BitVec 3) (h : s.runState = .error) : raiseError cause s = s := if_pos h

@[simp] theorem raiseError_runState (cause : BitVec 3) (s : State) : (raiseError cause s).runState = .error := by
  rw [raiseError_eq]

@[simp] theorem raiseError_cfg (cause : BitVec 3) (s : State) : (raiseError cause s).cfg = s.cfg := by rw [raiseError_eq]

/-! ### The counter -/

theorem advanceCode_eq_next {op : State → Res State} {s t : State} :
    advanceCode op s = .next t ↔
      (s.nextCode.toNat + 1 = s.cfg.maxCode ∧ ∃ u, op s = .next u ∧ t = { u with nextCode := startCode }) ∨
      (s.nextCode.toNat + 1 ≠ s.cfg.maxCode ∧ t = { s with nextCode := BitVec.ofNat 16 (s.nextCode.toNat + 1) }) := by
  by_cases h : s.nextCode.toNat + 1 = s.cfg.maxCode
  · have e : advanceCode op s = andThen (op s) (fun s1 => .next { s1 with nextCode := startCode }) := if_pos h
    rw [e, andThen_eq_next]
    constructor
    · rintro ⟨u, hu, ht⟩
      exact .inl ⟨h, u, hu, (Host.Outcome.next.inj ht).symm⟩
    · rintro (⟨-, u, hu, rfl⟩ | ⟨h', -⟩)
      · exact ⟨u, hu, rfl⟩
      · exact absurd h h'
  · have e : advanceCode op s = .next { s with nextCode := BitVec.ofNat 16 (s.nextCode.toNat + 1) } := if_neg h
    rw [e]
    constructor
    · intro ht
      exact .inr ⟨h, (Host.Outcome.next.inj ht).symm⟩
    · rintro (⟨h', -⟩ | ⟨-, rfl⟩)
      · exact absurd h' h
      · rfl

end Sys2Proof.Machine
end

