-- ==== Sys2Proof/Laws/BitChannel.lean ====
section
/-! SUPPORT. What the buffer primitives and the BitChannel operations do, once: PutBits appends to the stream of sent bits,
GetBits takes from the stream of upcoming bits, PutByteOut appends to the decoded bytes, whatever BLOCK is (20_memory.md R66). -/

namespace Sys2Proof.Machine

/-! ### WBUF -/

/-- PutBit, whole. -/
theorem putBit_eq (b : Bool) (s : State) :
    putBit b s = { s with
      wbuf := Memory.writeBit s.wbuf s.widx b
      widx := if s.widx + 1 = 8 * s.cfg.block then 0 else s.widx + 1
      zout := if s.widx + 1 = 8 * s.cfg.block then
          s.zout ++ Memory.firstBytes (Memory.writeBit s.wbuf s.widx b) s.cfg.block else s.zout } := by
  unfold putBit
  by_cases h : s.widx + 1 = 8 * s.cfg.block <;> simp [h, emitZout]

/-- Only WBUF, its cursor and ZOUT change. -/
theorem putBits_frame (bs : List Bool) (s : State) :
    putBits bs s = { s with
      wbuf := (putBits bs s).wbuf, widx := (putBits bs s).widx, zout := (putBits bs s).zout } := by
  induction bs generalizing s with
  | nil => rfl
  | cons b bs ih => rw [putBits, ih, putBit_eq]

theorem putBits_append (bs bs' : List Bool) (s : State) : putBits (bs ++ bs') s = putBits bs' (putBits bs s) := by
  induction bs generalizing s with
  | nil => rfl
  | cons b bs ih => exact ih _

theorem putBit_widx {s : State} (h : s.widx < 8 * s.cfg.block) (b : Bool) :
    (putBit b s).widx = (s.widx + 1) % (8 * s.cfg.block) := by
  rw [putBit_eq]
  show (if s.widx + 1 = 8 * s.cfg.block then 0 else s.widx + 1) = _
  split_ifs with h1
  · rw [h1, Nat.mod_self]
  · exact (Nat.mod_eq_of_lt (Nat.lt_of_le_of_ne h h1)).symm

theorem putBit_sent (s : State) (b : Bool) :
    sentBits (putBit b s) = sentBits s ++ [b] := by
  have hbits : ∀ n ≤ s.widx, (List.range n).map (Memory.readBit (Memory.writeBit s.wbuf s.widx b)) =
      (List.range n).map (Memory.readBit s.wbuf) := fun n hn =>
    List.map_congr_left fun i hi => by
      rw [Memory.readBit_writeBit, if_neg (by have := List.mem_range.1 hi; omega)]
  have hall : (List.range (s.widx + 1)).map (Memory.readBit (Memory.writeBit s.wbuf s.widx b)) = pendingBits s ++ [b] := by
    rw [List.range_succ, List.map_append, hbits _ le_rfl]
    simp [pendingBits, Memory.readBit_writeBit]
  rw [putBit_eq]
  unfold sentBits
  by_cases h1 : s.widx + 1 = 8 * s.cfg.block
  · simp only [h1, if_true, bytesBits_append, bytesBits_firstBytes, pendingBits, List.range_zero, List.map_nil,
      List.append_nil]
    rw [← h1, hall, List.append_assoc]
    rfl
  · simp only [h1, if_false]
    rw [show pendingBits { s with wbuf := Memory.writeBit s.wbuf s.widx b, widx := s.widx + 1, zout := s.zout } =
      pendingBits s ++ [b] from hall, List.append_assoc]

/-- What PutBit keeps. -/
theorem putBit_cfg (b : Bool) (s : State) : (putBit b s).cfg = s.cfg := by rw [putBit_eq]

theorem putBits_cfg (bs : List Bool) (s : State) : (putBits bs s).cfg = s.cfg := by rw [putBits_frame]

theorem putBit_widx_lt {s : State} (h : s.widx < 8 * s.cfg.block) (b : Bool) :
    (putBit b s).widx < 8 * (putBit b s).cfg.block := by
  rw [putBit_widx h, putBit_cfg]; exact Nat.mod_lt _ (by omega)

/-- PutBits appends its bits to the stream of sent bits, whatever BLOCK is (20_memory.md R66). -/
theorem putBits_sent (s : State) (bs : List Bool) :
    sentBits (putBits bs s) = sentBits s ++ bs := by
  induction bs generalizing s with
  | nil => simp [putBits]
  | cons b bs ih => rw [putBits, ih, putBit_sent]; simp

theorem putBits_widx {s : State} (h : s.widx < 8 * s.cfg.block) (bs : List Bool) :
    (putBits bs s).widx = (s.widx + bs.length) % (8 * s.cfg.block) := by
  induction bs generalizing s with
  | nil => simp [putBits, Nat.mod_eq_of_lt h]
  | cons b bs ih =>
    rw [putBits, ih (putBit_widx_lt h b), putBit_widx h, putBit_cfg, List.length_cons, Nat.mod_add_mod]
    congr 1; omega

theorem putBits_widx_lt {s : State} (h : s.widx < 8 * s.cfg.block) (bs : List Bool) :
    (putBits bs s).widx < 8 * s.cfg.block := by
  rw [putBits_widx h]; exact Nat.mod_lt _ (by omega)

/-- The canonical form and the bounds of WBUF are kept. -/
theorem putBits_wbuf {s : State} (h : s.widx < 8 * s.cfg.block) (hb : BufferInv s.cfg.block s.wbuf) (bs : List Bool) :
    BufferInv s.cfg.block (putBits bs s).wbuf := by
  induction bs generalizing s with
  | nil => exact hb
  | cons b bs ih =>
    have hb1 : BufferInv s.cfg.block (putBit b s).wbuf := by
      rw [putBit_eq]
      exact ⟨Memory.write_wf hb.1 _ _, Memory.write_below hb.2 (by omega) _⟩
    have := ih (s := putBit b s) (putBit_widx_lt h b) (by rw [putBit_cfg]; exact hb1)
    rw [putBit_cfg] at this
    exact this

/-- PutBits stores to the bytes its bits lie in, and to no other byte of WBUF. -/
theorem putBits_other {s : State} (h : s.widx < 8 * s.cfg.block) (bs : List Bool) {a : Nat}
    (ha : ∀ k < bs.length, (s.widx + k) % (8 * s.cfg.block) / 8 ≠ a) :
    Memory.read (putBits bs s).wbuf a = Memory.read s.wbuf a := by
  induction bs generalizing s with
  | nil => rfl
  | cons b bs ih =>
    rw [putBits, ih (putBit_widx_lt h b)]
    · rw [putBit_eq]
      refine Memory.read_writeBit_ne _ _ _ fun e => ?_
      have := ha 0 (by simp)
      rw [Nat.add_zero, Nat.mod_eq_of_lt h] at this
      exact this e.symm
    · intro k hk
      have := ha (k + 1) (by simpa using hk)
      rwa [putBit_widx h, putBit_cfg, Nat.mod_add_mod, show s.widx + 1 + k = s.widx + (k + 1) by omega]

/-- "every byte on ZOUT is final once emitted" (20_memory.md R70 (i)). -/
theorem putBits_zout (bs : List Bool) (s : State) : s.zout <+: (putBits bs s).zout := by
  induction bs generalizing s with
  | nil => exact List.prefix_rfl
  | cons b bs ih =>
    refine List.IsPrefix.trans ?_ (ih _)
    rw [putBit_eq]
    show s.zout <+: if _ then _ else _
    split_ifs
    · exact List.prefix_append _ _
    · exact List.prefix_rfl

theorem pendingBits_length (s : State) : (pendingBits s).length = s.widx := by simp [pendingBits]

/-- WRITE_PAIR, whole, where its operand and WBUF's cursor are in range. -/
theorem writePair_eq {w : Width} {s : State} (hw : widthInRange w = true) (h : s.widx < 8 * s.cfg.block) (c : Code)
    (y : Byte) :
    writePair c y w s = .next
      { putBits (pairBits c y w.toNat) s with totalBits := s.totalBits + BitVec.ofNat 64 (w.toNat + 8) } := by
  have h1 : widxInRange s = true := by simpa [widxInRange] using h
  unfold writePair
  simp only [hw, h1, Bool.true_eq_false, if_false]
  rw [putBits_frame]

/-- What WRITE_PAIR can answer. -/
theorem writePair_eq_next {w : Width} {s t : State} {c : Code} {y : Byte} (ht : writePair c y w s = .next t) :
    widthInRange w = true ∧ s.widx < 8 * s.cfg.block ∧
      t = { putBits (pairBits c y w.toNat) s with totalBits := s.totalBits + BitVec.ofNat 64 (w.toNat + 8) } := by
  unfold writePair at ht
  split_ifs at ht with h1 h2
  have hw : widthInRange w = true := by simpa using h1
  have hx : s.widx < 8 * s.cfg.block := by simpa [widxInRange] using h2
  refine ⟨hw, hx, ?_⟩
  have := writePair_eq hw hx c y
  simp only [Host.Outcome.next.injEq] at ht
  rw [← ht, putBits_frame]

theorem clearBits_readBit (n i : Nat) (m : Memory) (k : Nat) :
    Memory.readBit (Memory.clearBits n i m) k = if i ≤ k ∧ k < i + n then false else Memory.readBit m k := by
  induction n generalizing i m with
  | zero =>
    have : ¬ (i ≤ k ∧ k < i + 0) := by omega
    rw [if_neg this]; rfl
  | succ n ih =>
    rw [Memory.clearBits, ih, Memory.readBit_writeBit]
    by_cases h : i ≤ k ∧ k < i + (n + 1)
    · rw [if_pos h]
      by_cases h2 : k = i
      · rw [if_pos h2]; simp
      · rw [if_pos (by omega)]
    · rw [if_neg h, if_neg (by omega), if_neg (by omega)]

theorem clearBits_wf (n i : Nat) {m : Memory} (h : Memory.wf m) : Memory.wf (Memory.clearBits n i m) := by
  induction n generalizing i m with
  | zero => exact h
  | succ n ih => exact ih _ (Memory.write_wf h _ _)

theorem clearBits_below {n i b : Nat} {m : Memory} (h : ∀ c ∈ m, c.1 < b) (hi : i + n ≤ 8 * b) :
    ∀ c ∈ Memory.clearBits n i m, c.1 < b := by
  induction n generalizing i m with
  | zero => exact h
  | succ n ih => exact ih (Memory.write_below h (by omega) _) (by omega)

theorem clearBits_other {n i : Nat} (m : Memory) {a : Nat} (ha : ∀ k < n, (i + k) / 8 ≠ a) :
    Memory.read (Memory.clearBits n i m) a = Memory.read m a := by
  induction n generalizing i m with
  | zero => rfl
  | succ n ih =>
    rw [Memory.clearBits, ih]
    · exact Memory.read_writeBit_ne _ _ _ fun e => ha 0 (by omega) (by simpa using e.symm)
    · intro k hk
      have := ha (k + 1) (by omega)
      rwa [show i + 1 + k = i + (k + 1) by omega]

/-- What FLUSH emits: the pending bits, zero-padded to whole bytes (40_bitchannel.md R115). -/
theorem flush_bytes (s : State) :
    Memory.firstBytes (Memory.clearBits (8 * ((s.widx + 7) / 8) - s.widx) s.widx s.wbuf) ((s.widx + 7) / 8) =
      packBytes (pendingBits s) := by
  apply bytesBits_injective
  rw [bytesBits_firstBytes, bytesBits_packBytes, pendingBits_length]
  refine list_ext_getD false (by simp [pendingBits_length]; omega) fun i hi => ?_
  simp only [List.length_map, List.length_range] at hi
  rw [getD_map_range, if_pos hi, clearBits_readBit, getD_append, pendingBits_length]
  by_cases h : i < s.widx
  · rw [if_neg (by omega), if_pos h]
    unfold pendingBits
    rw [getD_map_range, if_pos h]
  · rw [if_pos (by omega), if_neg h, List.getD_eq_getElem _ _ (by simp; omega)]; simp

/-- FLUSH, whole, where WBUF's cursor is in range. -/
theorem flush_eq {s : State} (h : s.widx < 8 * s.cfg.block) :
    flush s = .next { s with
      wbuf := Memory.clearBits (8 * ((s.widx + 7) / 8) - s.widx) s.widx s.wbuf
      widx := 0
      zout := s.zout ++ packBytes (pendingBits s) } := by
  have h1 : widxInRange s = true := by simpa [widxInRange] using h
  unfold flush
  simp only [h1, Bool.true_eq_false, if_false, emitZout]
  rw [flush_bytes]

theorem flush_eq_next {s t : State} (ht : flush s = .next t) :
    s.widx < 8 * s.cfg.block ∧ t = { s with
      wbuf := Memory.clearBits (8 * ((s.widx + 7) / 8) - s.widx) s.widx s.wbuf
      widx := 0
      zout := s.zout ++ packBytes (pendingBits s) } := by
  have h : s.widx < 8 * s.cfg.block := by
    unfold flush at ht
    split_ifs at ht with h1
    simpa [widxInRange] using h1
  rw [flush_eq h] at ht
  exact ⟨h, (Host.Outcome.next.inj ht).symm⟩

/-! ### RBUF -/

theorem zinAvailable_length (s : State) (n : Nat) : (zinAvailable s n).length = min n (s.zin.length - s.zinPos.toNat) := by
  simp [zinAvailable]

theorem zinAvailable_getD (s : State) {n i : Nat} (h : i < n) : (zinAvailable s n).getD i 0#8 = inByte s (s.zinPos.toNat + i) := by
  unfold zinAvailable inByte
  rw [List.getD_eq_getElem?_getD, List.getD_eq_getElem?_getD, List.getElem?_take, if_pos h, List.getElem?_drop]

theorem pull_bytes_length (n : Nat) (s : State) : (pull n s).1.length = n := by
  simp [pull, zinAvailable_length]

/-- `Pull(n)`: byte i is `InByte(zin_pos + i)` (20_memory.md R60, R76). -/
theorem pull_bytes (n : Nat) (s : State) : (pull n s).1 = (List.range n).map (fun i => inByte s (s.zinPos.toNat + i)) := by
  refine list_ext_getD 0#8 (by rw [pull_bytes_length]; simp) fun i hi => ?_
  rw [pull_bytes_length] at hi
  rw [getD_map_range, if_pos hi]
  show (zinAvailable s n ++ _).getD i 0#8 = _
  rw [getD_append]
  split_ifs with h
  · exact zinAvailable_getD s hi
  · have h2 : (List.replicate (n - (zinAvailable s n).length) 0#8).getD (i - (zinAvailable s n).length) 0#8 = 0#8 := by
      rw [List.getD_eq_getElem?_getD, List.getElem?_replicate]; split_ifs <;> rfl
    rw [h2]
    rw [zinAvailable_length] at h
    unfold inByte
    rw [List.getD_eq_default _ _ (by omega)]

theorem pull_state (n : Nat) (s : State) :
    (pull n s).2 = { s with zinPos := s.zinPos + BitVec.ofNat 64 (min n (s.zin.length - s.zinPos.toNat)) } := by
  simp only [pull, zinAvailable_length]

/-- The position after Pull, as a number, for a ZIN that a 64-bit counter can count. -/
theorem pull_pos {s : State} (hz : s.zin.length < 2 ^ 64) (n : Nat) :
    (s.zinPos + BitVec.ofNat 64 (min n (s.zin.length - s.zinPos.toNat))).toNat =
      s.zinPos.toNat + min n (s.zin.length - s.zinPos.toNat) := by
  have := s.zinPos.isLt
  rw [BitVec.toNat_add, BitVec.toNat_ofNat, Nat.mod_eq_of_lt (a := min n _) (by omega), Nat.mod_eq_of_lt (by omega)]

theorem refill_eq (s : State) :
    refill s = { s with
      zinPos := s.zinPos + BitVec.ofNat 64 (min s.cfg.block (s.zin.length - s.zinPos.toNat))
      rbuf := Memory.ofBytes (zinAvailable s s.cfg.block)
      ridx := 0 } := by
  unfold refill; rw [pull_state]

/-- `RBUF[0 .. BLOCK-1] <- Pull(BLOCK)` (20_memory.md R61). -/
theorem refill_rbuf (s : State) : Memory.firstBytes (refill s).rbuf s.cfg.block = (pull s.cfg.block s).1 := by
  rw [refill_eq, pull_bytes]
  refine List.map_congr_left fun i hi => ?_
  show Memory.read (Memory.ofBytes _) i = _
  rw [Memory.read_ofBytes, zinAvailable_getD s (List.mem_range.1 hi)]

/-- GetBit, whole. -/
theorem getBit_eq (s : State) :
    getBit s = (upcomingBit s 0, { s with
      rbuf := if s.ridx = 8 * s.cfg.block then Memory.ofBytes (zinAvailable s s.cfg.block) else s.rbuf
      zinPos := if s.ridx = 8 * s.cfg.block then
          s.zinPos + BitVec.ofNat 64 (min s.cfg.block (s.zin.length - s.zinPos.toNat)) else s.zinPos
      ridx := if s.ridx = 8 * s.cfg.block then 1 else s.ridx + 1 }) ∨ 8 * s.cfg.block < s.ridx ∨ s.cfg.block = 0 := by
  by_cases h0 : s.cfg.block = 0
  · exact .inr (.inr h0)
  by_cases h1 : 8 * s.cfg.block < s.ridx
  · exact .inr (.inl h1)
  left
  unfold getBit upcomingBit
  by_cases h : s.ridx = 8 * s.cfg.block
  · simp only [h, if_true, refill_eq, Nat.add_zero, lt_irrefl, if_false, Nat.sub_self, Nat.zero_div, Nat.zero_mod,
      Nat.zero_add]
    congr 1
    unfold Memory.readBit
    rw [Nat.zero_div, Memory.read_ofBytes, zinAvailable_getD s (by omega)]
    rfl
  · have : s.ridx + 0 < 8 * s.cfg.block := by omega
    simp only [h, if_false, this, if_true]
    rfl

/-- GetBit where RBUF's cursor is in range. -/
theorem getBit_spec {s : State} (hr : s.ridx ≤ 8 * s.cfg.block) (hb : 0 < s.cfg.block) :
    getBit s = (upcomingBit s 0, { s with
      rbuf := if s.ridx = 8 * s.cfg.block then Memory.ofBytes (zinAvailable s s.cfg.block) else s.rbuf
      zinPos := if s.ridx = 8 * s.cfg.block then
          s.zinPos + BitVec.ofNat 64 (min s.cfg.block (s.zin.length - s.zinPos.toNat)) else s.zinPos
      ridx := if s.ridx = 8 * s.cfg.block then 1 else s.ridx + 1 }) := by
  rcases getBit_eq s with h | h | h
  · exact h
  · omega
  · omega

theorem upcomingBit_after_getBit {s : State} (hr : s.ridx ≤ 8 * s.cfg.block) (hb : 0 < s.cfg.block)
    (hz : s.zin.length < 2 ^ 64) (k : Nat) : upcomingBit (getBit s).2 k = upcomingBit s (k + 1) := by
  rw [getBit_spec hr hb]
  by_cases h : s.ridx = 8 * s.cfg.block
  · simp only [h, if_true]
    unfold upcomingBit
    simp only [inByte, pull_pos hz]
    rw [if_neg (show ¬ s.ridx + (k + 1) < 8 * s.cfg.block by omega)]
    have hj : s.ridx + (k + 1) - 8 * s.cfg.block = k + 1 := by omega
    rw [hj]
    by_cases hk : 1 + k < 8 * s.cfg.block
    · rw [if_pos hk]
      unfold Memory.readBit
      rw [Memory.read_ofBytes, zinAvailable_getD s (by omega), Nat.add_comm 1 k]
      rfl
    · rw [if_neg hk]
      have h1 : (1 + k - 8 * s.cfg.block) % 8 = (k + 1) % 8 := by omega
      rw [h1]
      by_cases hle : s.cfg.block ≤ s.zin.length - s.zinPos.toNat
      · rw [Nat.min_eq_left hle]
        congr 2
        omega
      · rw [List.getD_eq_default _ _ (by omega), List.getD_eq_default _ _ (by omega)]
  · simp only [h, if_false]
    unfold upcomingBit
    simp only [inByte]
    rw [show s.ridx + 1 + k = s.ridx + (k + 1) by omega]

theorem getBit_ridx {s : State} (hr : s.ridx ≤ 8 * s.cfg.block) (hb : 0 < s.cfg.block) :
    (getBit s).2.ridx = if s.ridx = 8 * s.cfg.block then 1 else s.ridx + 1 := by rw [getBit_spec hr hb]

theorem getBit_ridx_le {s : State} (hr : s.ridx ≤ 8 * s.cfg.block) (hb : 0 < s.cfg.block) :
    (getBit s).2.ridx ≤ 8 * s.cfg.block := by rw [getBit_ridx hr hb]; split_ifs <;> omega

/-- Only RBUF, its cursor and `zin_pos` change. -/
theorem getBit_frame (s : State) :
    (getBit s).2 = { s with rbuf := (getBit s).2.rbuf, ridx := (getBit s).2.ridx, zinPos := (getBit s).2.zinPos } := by
  unfold getBit
  by_cases h : s.ridx = 8 * s.cfg.block <;> simp [h, refill_eq]

theorem getBits_only (n : Nat) (s : State) : ∃ r i z, (getBits n s).2 = { s with rbuf := r, ridx := i, zinPos := z } := by
  induction n generalizing s with
  | zero => exact ⟨s.rbuf, s.ridx, s.zinPos, rfl⟩
  | succ n ih =>
    obtain ⟨r, i, z, h⟩ := ih (getBit s).2
    exact ⟨r, i, z, by show (getBits n (getBit s).2).2 = _; rw [h, getBit_frame s]⟩

theorem getBits_frame (n : Nat) (s : State) :
    (getBits n s).2 =
      { s with rbuf := (getBits n s).2.rbuf, ridx := (getBits n s).2.ridx, zinPos := (getBits n s).2.zinPos } := by
  obtain ⟨r, i, z, h⟩ := getBits_only n s
  rw [h]

theorem getBit_cfg (s : State) : (getBit s).2.cfg = s.cfg := by rw [getBit_frame]
theorem getBit_zin (s : State) : (getBit s).2.zin = s.zin := by rw [getBit_frame]
theorem getBits_cfg (n : Nat) (s : State) : (getBits n s).2.cfg = s.cfg := by rw [getBits_frame]
theorem getBits_zin (n : Nat) (s : State) : (getBits n s).2.zin = s.zin := by rw [getBits_frame]

/-- GetBits returns the upcoming bits and leaves the ones after them (20_memory.md R59, R66, R76). -/
theorem getBits_spec {s : State} (hr : s.ridx ≤ 8 * s.cfg.block) (hb : 0 < s.cfg.block) (hz : s.zin.length < 2 ^ 64)
    (n : Nat) :
    (getBits n s).1 = (List.range n).map (upcomingBit s) ∧
      (∀ k, upcomingBit (getBits n s).2 k = upcomingBit s (k + n)) ∧ (getBits n s).2.ridx ≤ 8 * s.cfg.block := by
  induction n generalizing s with
  | zero => exact ⟨rfl, fun k => rfl, hr⟩
  | succ n ih =>
    obtain ⟨h1, h2, h3⟩ := ih (s := (getBit s).2) (by rw [getBit_cfg]; exact getBit_ridx_le hr hb)
      (by rw [getBit_cfg]; exact hb) (by rw [getBit_zin]; exact hz)
    refine ⟨?_, fun k => ?_, ?_⟩
    · show (getBit s).1 :: (getBits n (getBit s).2).1 = _
      rw [h1, List.range_succ_eq_map, List.map_cons, List.map_map]
      congr 1
      · rw [getBit_spec hr hb]
      · exact List.map_congr_left fun i _ => upcomingBit_after_getBit hr hb hz i
    · show upcomingBit (getBits n (getBit s).2).2 k = _
      rw [h2, upcomingBit_after_getBit hr hb hz]
      congr 1
    · rw [getBit_cfg] at h3; exact h3

/-- Where the cursors stand after n calls of GetBit: a refill happens lazily, at the first bit that finds RBUF exhausted
(20_memory.md R58, R60, R61). -/
theorem getBits_cursors {s : State} (hr : s.ridx ≤ 8 * s.cfg.block) (hb : 0 < s.cfg.block) (hz : s.zin.length < 2 ^ 64)
    (n : Nat) :
    (getBits n s).2.ridx = s.ridx + n - 8 * s.cfg.block * refills s n ∧
      (getBits n s).2.zinPos.toNat =
        s.zinPos.toNat + min (s.cfg.block * refills s n) (s.zin.length - s.zinPos.toNat) := by
  induction n generalizing s with
  | zero =>
    have : refills s 0 = 0 := by unfold refills; exact Nat.div_eq_of_lt (by omega)
    rw [this]; exact ⟨by simp [getBits], by simp [getBits]⟩
  | succ n ih =>
    obtain ⟨h1, h2⟩ := ih (s := (getBit s).2) (by rw [getBit_cfg]; exact getBit_ridx_le hr hb)
      (by rw [getBit_cfg]; exact hb) (by rw [getBit_zin]; exact hz)
    have hB : 0 < 8 * s.cfg.block := by omega
    by_cases h : s.ridx = 8 * s.cfg.block
    · have hs : (getBit s).2 = { s with
          rbuf := Memory.ofBytes (zinAvailable s s.cfg.block)
          zinPos := s.zinPos + BitVec.ofNat 64 (min s.cfg.block (s.zin.length - s.zinPos.toNat))
          ridx := 1 } := by rw [getBit_spec hr hb]; simp [h]
      have hq : refills s (n + 1) = refills (getBit s).2 n + 1 := by
        unfold refills
        rw [hs]
        simp only
        rw [h, show 8 * s.cfg.block + (n + 1) - 1 = 1 + n - 1 + 8 * s.cfg.block by omega, Nat.add_div_right _ hB]
      have hz1 : (getBit s).2.zinPos.toNat = s.zinPos.toNat + min s.cfg.block (s.zin.length - s.zinPos.toNat) := by
        rw [hs]; exact pull_pos hz _
      refine ⟨?_, ?_⟩
      · show (getBits n (getBit s).2).2.ridx = _
        rw [h1, hq, getBit_cfg, Nat.mul_add, Nat.mul_one]
        have : (getBit s).2.ridx = 1 := by rw [hs]
        rw [this]; omega
      · show (getBits n (getBit s).2).2.zinPos.toNat = _
        rw [h2, hq, hz1, getBit_cfg, getBit_zin, Nat.mul_add, Nat.mul_one]
        omega
    · have hs : (getBit s).2 = { s with ridx := s.ridx + 1 } := by rw [getBit_spec hr hb]; simp [h]
      have hq : refills s (n + 1) = refills (getBit s).2 n := by
        unfold refills
        rw [hs]
        simp only
        congr 1
        omega
      refine ⟨?_, ?_⟩
      · show (getBits n (getBit s).2).2.ridx = _
        rw [h1, hq, getBit_cfg, hs]
        show s.ridx + 1 + n - _ = _
        rw [show s.ridx + 1 + n = s.ridx + (n + 1) by omega]
      · show (getBits n (getBit s).2).2.zinPos.toNat = _
        rw [h2, hq, getBit_cfg, getBit_zin, hs]

/-- The canonical form and the bounds of RBUF are kept. -/
theorem getBits_rbuf {s : State} (hb : BufferInv s.cfg.block s.rbuf) (n : Nat) : BufferInv s.cfg.block (getBits n s).2.rbuf := by
  induction n generalizing s with
  | zero => exact hb
  | succ n ih =>
    have h1 : BufferInv s.cfg.block (getBit s).2.rbuf := by
      unfold getBit
      by_cases h : s.ridx = 8 * s.cfg.block
      · simp only [h, if_true, refill_eq]
        refine ⟨Memory.ofBytes_wf _, fun c hc => ?_⟩
        have := Memory.ofBytes_below _ c hc
        rw [zinAvailable_length] at this
        omega
      · simp only [h, if_false]; exact hb
    have := ih (s := (getBit s).2) (by rw [getBit_cfg]; exact h1)
    rw [getBit_cfg] at this
    exact this

theorem getBits_ridx_le {s : State} (hr : s.ridx ≤ 8 * s.cfg.block) (hb : 0 < s.cfg.block) (n : Nat) :
    (getBits n s).2.ridx ≤ 8 * s.cfg.block := by
  induction n generalizing s with
  | zero => exact hr
  | succ n ih =>
    have := ih (s := (getBit s).2) (by rw [getBit_cfg]; exact getBit_ridx_le hr hb) (by rw [getBit_cfg]; exact hb)
    rw [getBit_cfg] at this
    exact this

theorem getBits_pos_le {s : State} (h : s.zinPos.toNat ≤ s.zin.length) (n : Nat) :
    (getBits n s).2.zinPos.toNat ≤ s.zin.length := by
  induction n generalizing s with
  | zero => exact h
  | succ n ih =>
    have h1 : (getBit s).2.zinPos.toNat ≤ s.zin.length := by
      unfold getBit
      by_cases hx : s.ridx = 8 * s.cfg.block
      · simp only [hx, if_true, refill_eq]
        rw [BitVec.toNat_add, BitVec.toNat_ofNat]
        refine Nat.le_trans (Nat.mod_le _ _) ?_
        have := Nat.mod_le (min s.cfg.block (s.zin.length - s.zinPos.toNat)) (2 ^ 64)
        omega
      · simp only [hx, if_false]; exact h
    have := ih (s := (getBit s).2) (by rw [getBit_zin]; exact h1)
    rw [getBit_zin] at this
    exact this

/-- Two GetBits in a row are one. -/
theorem getBits_add (m n : Nat) (s : State) :
    getBits (m + n) s = ((getBits m s).1 ++ (getBits n (getBits m s).2).1, (getBits n (getBits m s).2).2) := by
  induction m generalizing s with
  | zero => simp [getBits]
  | succ m ih =>
    rw [show m + 1 + n = (m + n) + 1 by omega]
    simp only [getBits]
    rw [ih]
    simp

/-- READ_PAIR as two GetBits and the latches, where it is defined. -/
theorem readPair_bits {w : Width} {s : State} (hw : widthInRange w = true) (hn : s.rpCode ≠ stopCode)
    (hr : s.ridx ≤ 8 * s.cfg.block) (hb : 0 < s.cfg.block) :
    readPair w s = .next (latchPair w (BitVec.ofNat 16 (natOfBits (getBits w.toNat s).1))
      (BitVec.ofNat 8 (natOfBits (getBits 8 (getBits w.toNat s).2).1)) (afterBits (w.toNat + 8) s)) := by
  have h1 : ridxInRange s = true := by simp [ridxInRange, hr, hb]
  unfold readPair afterBits
  rw [if_neg (by simp [hw]), if_neg hn, if_neg (by simp [h1]), getBits_add]

/-- READ_PAIR, whole, where it is defined: the pair at the read cursor is taken and latched (40_bitchannel.md R114). -/
theorem readPair_eq {w : Width} {s : State} (hw : widthInRange w = true) (hn : s.rpCode ≠ stopCode)
    (hr : s.ridx ≤ 8 * s.cfg.block) (hb : 0 < s.cfg.block) (hz : s.zin.length < 2 ^ 64) :
    readPair w s = .next (latchPair w (BitVec.ofNat 16 (upcomingBits s 0 w.toNat))
      (BitVec.ofNat 8 (upcomingBits s w.toNat 8)) (afterBits (w.toNat + 8) s)) := by
  obtain ⟨e1, e2, e3⟩ := getBits_spec hr hb hz w.toNat
  obtain ⟨f1, -, -⟩ := getBits_spec (s := (getBits w.toNat s).2) (by rw [getBits_cfg]; exact e3)
    (by rw [getBits_cfg]; exact hb) (by rw [getBits_zin]; exact hz) 8
  have hc : natOfBits (getBits w.toNat s).1 = upcomingBits s 0 w.toNat := by
    rw [e1]; unfold upcomingBits; simp only [Nat.zero_add]
  have hy : natOfBits (getBits 8 (getBits w.toNat s).2).1 = upcomingBits s w.toNat 8 := by
    rw [f1]
    unfold upcomingBits
    congr 1
    exact List.map_congr_left fun i _ => by rw [e2, Nat.add_comm]
  rw [readPair_bits hw hn hr hb, hc, hy]

/-- What READ_PAIR can answer. -/
theorem readPair_eq_next {w : Width} {s t : State} (ht : readPair w s = .next t) :
    widthInRange w = true ∧ s.rpCode ≠ stopCode ∧ s.ridx ≤ 8 * s.cfg.block ∧ 0 < s.cfg.block ∧
      t = latchPair w (BitVec.ofNat 16 (natOfBits (getBits w.toNat s).1))
        (BitVec.ofNat 8 (natOfBits (getBits 8 (getBits w.toNat s).2).1)) (afterBits (w.toNat + 8) s) := by
  have hd : widthInRange w = true ∧ s.rpCode ≠ stopCode ∧ ridxInRange s = true := by
    unfold readPair at ht
    split_ifs at ht with h1 h2 h3
    exact ⟨by simpa using h1, h2, by simpa using h3⟩
  obtain ⟨hw, hn, h3⟩ := hd
  have h3' : s.ridx ≤ 8 * s.cfg.block ∧ 0 < s.cfg.block := by
    unfold ridxInRange at h3
    rw [Bool.and_eq_true, decide_eq_true_iff, decide_eq_true_iff] at h3
    exact h3
  rw [readPair_bits hw hn h3'.1 h3'.2] at ht
  exact ⟨hw, hn, h3'.1, h3'.2, (Host.Outcome.next.inj ht).symm⟩

/-! ### OBUF -/

/-- PutByteOut, whole. -/
theorem putByteOut_eq (x : Byte) (s : State) :
    putByteOut x s = { s with
      obuf := Memory.write s.obuf s.oidx x
      totalSyms := s.totalSyms + 1
      oidx := if s.oidx + 1 = s.cfg.block then 0 else s.oidx + 1
      sout := if s.oidx + 1 = s.cfg.block then
          s.sout ++ Memory.firstBytes (Memory.write s.obuf s.oidx x) s.cfg.block else s.sout } := by
  unfold putByteOut
  by_cases h : s.oidx + 1 = s.cfg.block <;> simp [h, emitSout]

theorem putByteOut_cfg (x : Byte) (s : State) : (putByteOut x s).cfg = s.cfg := by rw [putByteOut_eq]

/-- Only OBUF, its cursor, `total_syms` and SOUT change. -/
theorem putBytesOut_frame (xs : ByteSeq) (s : State) :
    putBytesOut xs s = { s with
      obuf := (putBytesOut xs s).obuf
      oidx := (putBytesOut xs s).oidx
      sout := (putBytesOut xs s).sout
      totalSyms := s.totalSyms + BitVec.ofNat 64 xs.length } := by
  induction xs generalizing s with
  | nil => simp [putBytesOut]
  | cons x xs ih =>
    rw [putBytesOut, ih, putByteOut_eq]
    have h : s.totalSyms + 1 + BitVec.ofNat 64 xs.length = s.totalSyms + BitVec.ofNat 64 (x :: xs).length := by
      rw [List.length_cons, BitVec.ofNat_add, BitVec.add_assoc, BitVec.add_comm 1]
      rfl
    rw [h]

theorem putBytesOut_cfg (xs : ByteSeq) (s : State) : (putBytesOut xs s).cfg = s.cfg := by rw [putBytesOut_frame]

theorem putByteOut_oidx {s : State} (h : s.oidx < s.cfg.block) (x : Byte) :
    (putByteOut x s).oidx = (s.oidx + 1) % s.cfg.block := by
  rw [putByteOut_eq]
  show (if s.oidx + 1 = s.cfg.block then 0 else s.oidx + 1) = _
  split_ifs with h1
  · rw [h1, Nat.mod_self]
  · exact (Nat.mod_eq_of_lt (Nat.lt_of_le_of_ne h h1)).symm

theorem putByteOut_oidx_lt {s : State} (h : s.oidx < s.cfg.block) (x : Byte) :
    (putByteOut x s).oidx < (putByteOut x s).cfg.block := by
  rw [putByteOut_oidx h, putByteOut_cfg]; exact Nat.mod_lt _ (by omega)

theorem putByteOut_decoded (s : State) (x : Byte) :
    decodedBytes (putByteOut x s) = decodedBytes s ++ [x] := by
  have hall : Memory.firstBytes (Memory.write s.obuf s.oidx x) (s.oidx + 1) = Memory.firstBytes s.obuf s.oidx ++ [x] := by
    rw [Memory.firstBytes_succ, Memory.read_write, if_pos rfl]
    congr 1
    exact Memory.firstBytes_congr fun a ha => by rw [Memory.read_write, if_neg (by omega)]
  rw [putByteOut_eq]
  unfold decodedBytes
  by_cases h1 : s.oidx + 1 = s.cfg.block
  · simp only [h1, if_true]
    rw [← h1, hall]
    simp [Memory.firstBytes]
  · simp only [h1, if_false]
    rw [hall]
    simp

/-- WRITE_WORD appends its word to the decoded bytes, whatever BLOCK is (20_memory.md R66). -/
theorem putBytesOut_decoded (s : State) (xs : ByteSeq) :
    decodedBytes (putBytesOut xs s) = decodedBytes s ++ xs := by
  induction xs generalizing s with
  | nil => simp [putBytesOut]
  | cons x xs ih => rw [putBytesOut, ih, putByteOut_decoded]; simp

theorem putBytesOut_oidx {s : State} (h : s.oidx < s.cfg.block) (xs : ByteSeq) :
    (putBytesOut xs s).oidx = (s.oidx + xs.length) % s.cfg.block := by
  induction xs generalizing s with
  | nil => simp [putBytesOut, Nat.mod_eq_of_lt h]
  | cons x xs ih =>
    rw [putBytesOut, ih (putByteOut_oidx_lt h x), putByteOut_oidx h, putByteOut_cfg, List.length_cons, Nat.mod_add_mod]
    congr 1; omega

theorem putBytesOut_obuf {s : State} (h : s.oidx < s.cfg.block) (hb : BufferInv s.cfg.block s.obuf) (xs : ByteSeq) :
    BufferInv s.cfg.block (putBytesOut xs s).obuf := by
  induction xs generalizing s with
  | nil => exact hb
  | cons x xs ih =>
    have hb1 : BufferInv s.cfg.block (putByteOut x s).obuf := by
      rw [putByteOut_eq]
      exact ⟨Memory.write_wf hb.1 _ _, Memory.write_below hb.2 h _⟩
    have := ih (s := putByteOut x s) (putByteOut_oidx_lt h x) (by rw [putByteOut_cfg]; exact hb1)
    rw [putByteOut_cfg] at this
    exact this

/-- WRITE_WORD stores to the bytes it appends, and to no other byte of OBUF. -/
theorem putBytesOut_other {s : State} (h : s.oidx < s.cfg.block) (xs : ByteSeq) {a : Nat}
    (ha : ∀ k < xs.length, (s.oidx + k) % s.cfg.block ≠ a) :
    Memory.read (putBytesOut xs s).obuf a = Memory.read s.obuf a := by
  induction xs generalizing s with
  | nil => rfl
  | cons x xs ih =>
    rw [putBytesOut, ih (putByteOut_oidx_lt h x)]
    · rw [putByteOut_eq]
      show Memory.read (Memory.write _ _ _) a = _
      rw [Memory.read_write, if_neg]
      intro e
      have := ha 0 (by simp)
      rw [Nat.add_zero, Nat.mod_eq_of_lt h] at this
      exact this e.symm
    · intro k hk
      have := ha (k + 1) (by simpa using hk)
      rwa [putByteOut_oidx h, putByteOut_cfg, Nat.mod_add_mod, show s.oidx + 1 + k = s.oidx + (k + 1) by omega]

theorem putBytesOut_sout (xs : ByteSeq) (s : State) : s.sout <+: (putBytesOut xs s).sout := by
  induction xs generalizing s with
  | nil => exact List.prefix_rfl
  | cons x xs ih =>
    refine List.IsPrefix.trans ?_ (ih _)
    rw [putByteOut_eq]
    show s.sout <+: if _ then _ else _
    split_ifs
    · exact List.prefix_append _ _
    · exact List.prefix_rfl

theorem writeWord_eq {s : State} (h : s.oidx < s.cfg.block) (xs : ByteSeq) : writeWord xs s = .next (putBytesOut xs s) := by
  have : oidxInRange s = true := by simpa [oidxInRange] using h
  simp [writeWord, this]

theorem writeWord_eq_next {s t : State} {xs : ByteSeq} (ht : writeWord xs s = .next t) :
    s.oidx < s.cfg.block ∧ t = putBytesOut xs s := by
  unfold writeWord at ht
  split_ifs at ht with h
  exact ⟨by simpa [oidxInRange] using h, (Host.Outcome.next.inj ht).symm⟩

theorem flushWords_eq {s : State} (h : s.oidx < s.cfg.block) :
    flushWords s = .next { s with sout := decodedBytes s, oidx := 0 } := by
  have : oidxInRange s = true := by simpa [oidxInRange] using h
  simp [flushWords, this, emitSout, decodedBytes]

theorem flushWords_eq_next {s t : State} (ht : flushWords s = .next t) :
    s.oidx < s.cfg.block ∧ t = { s with sout := decodedBytes s, oidx := 0 } := by
  have h : s.oidx < s.cfg.block := by
    unfold flushWords at ht
    split_ifs at ht with h1
    simpa [oidxInRange] using h1
  rw [flushWords_eq h] at ht
  exact ⟨h, (Host.Outcome.next.inj ht).symm⟩

end Sys2Proof.Machine
end

