-- ==== Sys2Proof/Laws/Trie.lean ====
section
/-! SUPPORT. What the trie operations do, once, and that each keeps the tree (41_trie.md R131 to R136). -/

namespace Sys2Proof.Machine

/-! ### Slots and nodes -/

theorem childSlot_of_key {p : Code} {k : Nat} (h : p.toNat = slotNode k) : childSlot p (BitVec.ofNat 8 (k % 256)) = k := by
  unfold slotNode at h
  unfold childSlot
  rw [BitVec.toNat_ofNat]
  omega

/-- An entry of a canonical child map is a child of the node its key names. -/
theorem slotGet_of_entry {child : SlotMap Code} (hw : SlotMap.wf child) {e : Nat × Code} (he : e ∈ child) {p : Code}
    (hp : p.toNat = slotNode e.1) : slotGet child (childSlot p (BitVec.ofNat 8 (e.1 % 256))) = some e.2 := by
  rw [childSlot_of_key hp]; exact slotGet_of_mem hw he

theorem entry_of_slotGet {child : SlotMap Code} {p c : Code} {b : Byte} (h : slotGet child (childSlot p b) = some c) :
    (childSlot p b, c) ∈ child := mem_of_slotGet h

theorem nodeLive_of_child {child : SlotMap Code} {k : Nat} {c : Code} (h : slotGet child k = some c) :
    nodeLive child c = true := nodeLive_iff.2 (.inr ⟨_, mem_of_slotGet h, rfl⟩)

theorem InSubtree.mono {child child' : SlotMap Code} (hsub : ∀ k c, slotGet child k = some c → slotGet child' k = some c)
    {r c : Code} (h : InSubtree child r c) : InSubtree child' r c := by
  induction h with
  | self => exact .self
  | down b _ hc ih => exact .down b ih (hsub _ _ hc)

theorem InSubtree.trans {child : SlotMap Code} {r p c : Code} (h : InSubtree child r p) (h' : InSubtree child p c) :
    InSubtree child r c := by
  induction h' with
  | self => exact h
  | down b _ hc ih => exact .down b ih hc

/-! ### The computed subtree is `Sub(node)` -/

theorem mem_newChildren {child : SlotMap Code} {nodes : List Code} {c : Code} :
    c ∈ newChildren child nodes ↔ c ∉ nodes ∧ ∃ e ∈ child, e.2 = c ∧ ∃ p ∈ nodes, p.toNat = slotNode e.1 := by
  simp only [newChildren, List.mem_map, List.mem_filter, Bool.and_eq_true, List.any_eq_true, decide_eq_true_eq,
    Bool.not_eq_true', List.contains_eq_mem, decide_eq_false_iff_not]
  constructor
  · rintro ⟨e, ⟨he, hp, hn⟩, rfl⟩
    exact ⟨hn, e, he, rfl, hp⟩
  · rintro ⟨hn, e, he, rfl, hp⟩
    exact ⟨e, ⟨he, hp, hn⟩, rfl⟩

theorem subset_closeNodes (child : SlotMap Code) (fuel : Nat) (nodes : List Code) {c : Code} (h : c ∈ nodes) :
    c ∈ closeNodes child fuel nodes := by
  induction fuel generalizing nodes with
  | zero => exact h
  | succ fuel ih =>
    unfold closeNodes
    split
    · exact h
    · exact ih _ (List.mem_append_left _ h)

theorem closeNodes_sound {child : SlotMap Code} (hw : SlotMap.wf child) {r : Code} (fuel : Nat) (nodes : List Code)
    (hn : ∀ c ∈ nodes, InSubtree child r c) : ∀ c ∈ closeNodes child fuel nodes, InSubtree child r c := by
  induction fuel generalizing nodes with
  | zero => exact hn
  | succ fuel ih =>
    unfold closeNodes
    split
    · exact hn
    · refine ih _ fun c hc => ?_
      rcases List.mem_append.1 hc with hc | hc
      · exact hn c hc
      · obtain ⟨-, e, he, rfl, p, hp, hpe⟩ := mem_newChildren.1 hc
        exact .down _ (hn p hp) (slotGet_of_entry hw he hpe)

/-- How many entries lead to a node not found yet. -/
def unfound (child : SlotMap Code) (nodes : List Code) : Nat := (child.filter (fun e => !nodes.contains e.2)).length

theorem unfound_le (child : SlotMap Code) (nodes : List Code) : unfound child nodes ≤ child.length :=
  List.length_filter_le _ _

theorem filter_length_lt {β : Type} {p q : β → Bool} {l : List β} (hpq : ∀ x ∈ l, p x = true → q x = true)
    {x : β} (hx : x ∈ l) (hq : q x = true) (hp : p x = false) : (l.filter p).length < (l.filter q).length := by
  induction l with
  | nil => simp at hx
  | cons y l ih =>
    have hmono : (l.filter p).length ≤ (l.filter q).length := by
      rw [← List.countP_eq_length_filter, ← List.countP_eq_length_filter]
      exact List.countP_mono_left fun z hz => hpq z (List.mem_cons_of_mem _ hz)
    rcases List.mem_cons.1 hx with rfl | hx
    · simp [hp, hq]; omega
    · have := ih (fun z hz => hpq z (List.mem_cons_of_mem _ hz)) hx
      have hy := hpq y (List.mem_cons_self ..)
      cases hpy : p y
      · cases hqy : q y <;> simp [hpy, hqy] <;> omega
      · simp [hpy, hy hpy]; omega

theorem unfound_lt {child : SlotMap Code} {nodes : List Code} {c : Code} (hc : c ∈ newChildren child nodes)
    (new : List Code) (hnew : c ∈ new) : unfound child (nodes ++ new) < unfound child nodes := by
  obtain ⟨hn, e, he, rfl, -⟩ := mem_newChildren.1 hc
  refine filter_length_lt (x := e) (fun x _ hx => ?_) he (by simpa using hn) (by simp [hnew])
  simp only [Bool.not_eq_true', List.contains_eq_mem, decide_eq_false_iff_not, List.mem_append, not_or] at hx ⊢
  exact hx.1

theorem closeNodes_closed (child : SlotMap Code) (fuel : Nat) (nodes : List Code) (h : unfound child nodes ≤ fuel) :
    newChildren child (closeNodes child fuel nodes) = [] := by
  induction fuel generalizing nodes with
  | zero =>
    show newChildren child nodes = []
    by_contra hne
    obtain ⟨c, hc⟩ := List.exists_mem_of_ne_nil _ hne
    have := unfound_lt hc [c] (by simp)
    omega
  | succ fuel ih =>
    unfold closeNodes
    split
    · assumption
    · next hne =>
      obtain ⟨c, hc⟩ := List.exists_mem_of_ne_nil _ hne
      have := unfound_lt hc _ hc
      exact ih _ (by omega)

/-- `Sub(node)` is "the least set containing c and closed under `child`" (41_trie.md R131). -/
theorem mem_subtree {child : SlotMap Code} (hw : SlotMap.wf child) {r c : Code} :
    c ∈ subtree child r ↔ InSubtree child r c := by
  constructor
  · exact closeNodes_sound hw _ _ (by intro c hc; rw [List.mem_singleton.1 hc]; exact .self) c
  · intro h
    have hclosed := closeNodes_closed child child.length [r] (unfound_le _ _)
    induction h with
    | self => exact subset_closeNodes _ _ _ (by simp)
    | @down p c b _ hc ih =>
      by_contra hn
      have : c ∈ newChildren child (subtree child r) :=
        mem_newChildren.2 ⟨hn, _, entry_of_slotGet hc, rfl, p, ih, by simp⟩
      rw [show newChildren child (subtree child r) = [] from hclosed] at this
      simp at this

/-! ### What each operation can answer -/

theorem trieReady_iff {s : State} {n : Code} : trieReady s n = true ↔ s.trieLive = true ∧ nodeLive s.child n = true := by
  simp [trieReady]

theorem trieStep_eq {s : State} {n : Code} (h : trieReady s n = true) (b : Byte) :
    trieStep n b s = .next (childAt s n b) := if_pos h

theorem trieStep_eq_next {s : State} {n : Code} {b : Byte} {r : Option Code} (h : trieStep n b s = .next r) :
    trieReady s n = true ∧ r = childAt s n b := by
  unfold trieStep at h
  split_ifs at h with h1
  exact ⟨h1, (Host.Outcome.next.inj h).symm⟩

theorem insertedCode_of {s : State} {c : Code} (h : codeAssignable s.cfg c = true) : insertedCode c s = c := if_pos h

theorem insertedIndex_of {s : State} {c : Code} (h : codeAssignable s.cfg c = true) : insertedIndex c s = s.freeIndex := if_pos h

theorem trieInsert_run {s : State} {n : Code} {b : Byte} {c : Code} (h1 : trieReady s n = true)
    (h2 : childAt s n b = none) (h3 : nodeLive s.child c = false) :
    trieInsert n b c s =
      .next { s with child := slotPut s.child (childSlot n b) (insertedCode c s), freeIndex := insertedIndex c s } := by
  simp [trieInsert, h1, h2, h3]

theorem trieInsert_eq {s : State} {n : Code} {b : Byte} {c : Code} (h1 : trieReady s n = true)
    (h2 : childAt s n b = none) (h3 : nodeLive s.child c = false) (h4 : codeAssignable s.cfg c = true) :
    trieInsert n b c s = .next { s with child := slotPut s.child (childSlot n b) c } := by
  rw [trieInsert_run h1 h2 h3, insertedCode_of h4, insertedIndex_of h4]

/-- Everything TRIE_INSERT does where it answers a next state. -/
theorem trieInsert_eq_next {s t : State} {n : Code} {b : Byte} {c : Code} (h : trieInsert n b c s = .next t) :
    trieReady s n = true ∧ childAt s n b = none ∧ nodeLive s.child c = false ∧
      t = { s with child := slotPut s.child (childSlot n b) (insertedCode c s), freeIndex := insertedIndex c s } := by
  unfold trieInsert at h
  split_ifs at h with h1 h2
  refine ⟨by simpa using h1, ?_, ?_, (Host.Outcome.next.inj h).symm⟩
  · by_contra hn
    exact h2 (by rw [Option.isSome_iff_ne_none.2 hn]; rfl)
  · by_contra hn
    exact h2 (by rw [Bool.not_eq_false] at hn; rw [hn, Bool.or_true])

theorem trieReset_eq {s : State} (h : s.trieLive = true) : trieReset s = .next { s with child := [] } := if_pos h

theorem trieReset_eq_next {s t : State} (h : trieReset s = .next t) : s.trieLive = true ∧ t = { s with child := [] } := by
  unfold trieReset at h
  split_ifs at h with h1
  exact ⟨h1, (Host.Outcome.next.inj h).symm⟩

/-- The child map after TRIE_DELETE of a node that is not the root. -/
def prune (child : SlotMap Code) (node : Code) : SlotMap Code :=
  child.filter (fun e => !(subtree child node).any (fun p => decide (p.toNat = slotNode e.1)) && decide (e.2 ≠ node))

theorem trieDelete_root {s : State} (h : s.trieLive = true) :
    trieDelete emptyCode s = .next { s with child := [], trieLive := false } := by
  have : trieReady s emptyCode = true := trieReady_iff.2 ⟨h, nodeLive_iff.2 (.inl rfl)⟩
  simp [trieDelete, this]

theorem trieDelete_node {s : State} {n : Code} (h : trieReady s n = true) (hn : n ≠ emptyCode) :
    trieDelete n s = .next { s with child := prune s.child n } := by
  simp [trieDelete, h, hn, prune]

theorem trieDelete_eq_next {s t : State} {n : Code} (h : trieDelete n s = .next t) :
    trieReady s n = true ∧
      ((n = emptyCode ∧ t = { s with child := [], trieLive := false }) ∨
        (n ≠ emptyCode ∧ t = { s with child := prune s.child n })) := by
  have hr : trieReady s n = true := by
    unfold trieDelete at h
    split_ifs at h with h1 h2
    · simpa using h1
    · simpa using h1
  refine ⟨hr, ?_⟩
  by_cases hn : n = emptyCode
  · subst hn
    rw [trieDelete_root (trieReady_iff.1 hr).1] at h
    exact .inl ⟨rfl, (Host.Outcome.next.inj h).symm⟩
  · rw [trieDelete_node hr hn] at h
    exact .inr ⟨hn, (Host.Outcome.next.inj h).symm⟩

/-- What TRIE_DELETE leaves: the entries whose parent is outside the subtree, the link to it excepted (41_trie.md R136). -/
theorem prune_get {child : SlotMap Code} (hw : SlotMap.wf child) (node p c : Code) (b : Byte) :
    slotGet (prune child node) (childSlot p b) = some c ↔
      slotGet child (childSlot p b) = some c ∧ ¬ InSubtree child node p ∧ c ≠ node := by
  unfold prune
  rw [slotGet_filter hw]
  simp only [Bool.and_eq_true, Bool.not_eq_true', decide_eq_true_eq, List.any_eq_false, slotNode_childSlot]
  refine and_congr_right fun _ => and_congr_left fun _ => ?_
  rw [← mem_subtree hw]
  constructor
  · intro h hp; exact h p hp rfl
  · intro h q hq e
    exact h (BitVec.eq_of_toNat_eq e ▸ hq)

theorem mem_prune {child : SlotMap Code} {node : Code} {e : Nat × Code} (h : e ∈ prune child node) : e ∈ child :=
  List.mem_of_mem_filter h

/-! ### Each operation keeps the tree -/

theorem TrieInv.empty (live : Bool) : TrieInv [] live where
  canonical := List.Pairwise.nil
  parents := by simp
  reached := by simp
  dead := fun _ => rfl

theorem NodeNames.empty (maxCode : Nat) : NodeNames maxCode [] where
  codes := by simp
  injective := by simp

/-- Any child at a free slot of a live node, whatever code it carries. -/
theorem TrieInv.insert {child : SlotMap Code} {live : Bool} (h : TrieInv child live)
    (hl : live = true) {n : Code} {b : Byte} (hn : nodeLive child n = true) (hnone : slotGet child (childSlot n b) = none)
    (c : Code) : TrieInv (slotPut child (childSlot n b) c) live := by
  have hmono : ∀ k d, slotGet child k = some d → slotGet (slotPut child (childSlot n b) c) k = some d := by
    intro k d hk
    rw [slotGet_put_ne _ _ (fun e => by rw [e, hnone] at hk; simp at hk), hk]
  have hlive : ∀ p, nodeLive child p = true → nodeLive (slotPut child (childSlot n b) c) p = true := by
    intro p hp
    rcases nodeLive_iff.1 hp with rfl | ⟨e, he, rfl⟩
    · exact nodeLive_iff.2 (.inl rfl)
    · exact nodeLive_of_child (hmono e.1 e.2 (slotGet_of_mem h.canonical he))
  have hin : InSubtree (slotPut child (childSlot n b) c) emptyCode n := by
    rcases nodeLive_iff.1 hn with rfl | ⟨e, he, rfl⟩
    · exact .self
    · exact (h.reached e he).mono hmono
  refine ⟨slotPut_wf h.canonical _ _, fun e he => ?_, fun e he => ?_, ?_⟩
  · rcases key_mem_slotPut he with rfl | he
    · exact ⟨n, by simp, hlive n hn⟩
    · obtain ⟨p, hp, hpl⟩ := h.parents e he
      exact ⟨p, hp, hlive p hpl⟩
  · rcases key_mem_slotPut he with rfl | he
    · exact .down b hin (slotGet_put_self _ _ _)
    · exact (h.reached e he).mono hmono
  · rw [hl]; simp

/-- A new code in its range keeps the names. -/
theorem NodeNames.insert {maxCode : Nat} {child : SlotMap Code} (h : NodeNames maxCode child) (k : Nat) {c : Code}
    (hfree : nodeLive child c = false) (hc : 2 ≤ c.toNat ∧ c.toNat < maxCode) : NodeNames maxCode (slotPut child k c) := by
  have hfree' : ∀ e ∈ child, e.2 ≠ c := fun e he hec => by
    have : nodeLive child c = true := nodeLive_iff.2 (.inr ⟨e, he, hec⟩)
    rw [hfree] at this; exact absurd this (by simp)
  refine ⟨fun e he => ?_, fun e he f hf hef => ?_⟩
  · rcases key_mem_slotPut he with rfl | he
    · exact hc
    · exact h.codes e he
  · rcases key_mem_slotPut he with rfl | he <;> rcases key_mem_slotPut hf with rfl | hf
    · rfl
    · exact absurd hef.symm (hfree' f hf)
    · exact absurd hef (hfree' e he)
    · exact h.injective e he f hf hef

/-- Fewer entries keep the names. -/
theorem NodeNames.sub {maxCode : Nat} {child child' : SlotMap Code} (h : NodeNames maxCode child) (hs : ∀ e ∈ child', e ∈ child) :
    NodeNames maxCode child' :=
  ⟨fun e he => h.codes e (hs e he), fun e he f hf => h.injective e (hs e he) f (hs f hf)⟩

theorem TrieInv.prune {child : SlotMap Code} {live : Bool} (h : TrieInv child live)
    (n : Code) : TrieInv (prune child n) live := by
  have hget := prune_get h.canonical n
  have hwf : SlotMap.wf (Machine.prune child n) := filter_wf h.canonical _
  -- a node outside the deleted subtree stays reachable
  have hkeep : ∀ c, InSubtree child emptyCode c → ¬ InSubtree child n c → InSubtree (Machine.prune child n) emptyCode c := by
    intro c hc
    induction hc with
    | self => exact fun _ => .self
    | @down p c b hp hpc ih =>
      intro hnc
      have hnp : ¬ InSubtree child n p := fun hnp => hnc (.down b hnp hpc)
      exact .down b (ih hnp) ((hget p c b).2 ⟨hpc, hnp, fun e => hnc (e ▸ .self)⟩)
  have hent : ∀ e ∈ Machine.prune child n, ∃ (p : Code) (b : Byte), p.toNat = slotNode e.1 ∧ nodeLive child p = true ∧
      slotGet child (childSlot p b) = some e.2 ∧ ¬ InSubtree child n p ∧ e.2 ≠ n := by
    intro e he
    obtain ⟨p, hp, hpl⟩ := h.parents e (mem_prune he)
    have h1 := slotGet_of_entry h.canonical (mem_prune he) hp
    have h2 := (hget p e.2 (BitVec.ofNat 8 (e.1 % 256))).1 (slotGet_of_entry hwf he hp)
    exact ⟨p, _, hp, hpl, h1, h2.2.1, h2.2.2⟩
  refine ⟨hwf, fun e he => ?_, fun e he => ?_, fun hl => by rw [h.dead hl]; rfl⟩
  · obtain ⟨p, b, hp, hpl, hpc, hnp, hne⟩ := hent e he
    refine ⟨p, hp, ?_⟩
    rcases nodeLive_iff.1 hpl with rfl | ⟨f, hf, rfl⟩
    · exact nodeLive_iff.2 (.inl rfl)
    · obtain ⟨q, hq, hql⟩ := h.parents f hf
      have hqf := slotGet_of_entry h.canonical hf hq
      refine nodeLive_of_child ((hget q f.2 _).2 ⟨hqf, fun hnq => hnp (.down _ hnq hqf), fun e => hnp (e ▸ .self)⟩)
  · obtain ⟨p, b, hp, hpl, hpc, hnp, hne⟩ := hent e he
    have hroot : InSubtree child emptyCode p := by
      rcases nodeLive_iff.1 hpl with rfl | ⟨f, hf, rfl⟩
      · exact .self
      · exact h.reached f hf
    exact .down b (hkeep p hroot hnp) ((hget p e.2 b).2 ⟨hpc, hnp, hne⟩)

end Sys2Proof.Machine
end

