-- ==== Sys2Proof/Laws/WordTable.lean ====
section
/-! SUPPORT. What the word-table operations do, once, and that each keeps the table (42_wordtable.md R141 to R147). -/

namespace Sys2Proof.Machine

theorem code_toNat_inj {c d : Code} : c.toNat = d.toNat ↔ c = d := ⟨BitVec.eq_of_toNat_eq, fun h => by rw [h]⟩

theorem wordAt_emptyTable (c : Code) : slotGet emptyTable c.toNat = if c = emptyCode then some [] else none := by
  by_cases h : c = emptyCode
  · subst h; rfl
  · have : (0 : Nat) ≠ c.toNat := fun e => h (code_toNat_inj.1 e.symm)
    simp [emptyTable, slotGet, h, this]

theorem wordAt_put (s : State) (c : Code) (w : ByteSeq) (d : Code) :
    slotGet (slotPut s.wt c.toNat w) d.toNat = if d = c then some w else wordAt s d := by
  rw [slotGet_put]
  unfold wordAt
  simp only [code_toNat_inj]

theorem wtLookup_eq {s : State} {c : Code} {w : ByteSeq} (hl : s.wtLive = true) (h : wordAt s c = some w) :
    wtLookup c s = .next w := by simp [wtLookup, hl, h]

theorem wtLookup_absent {s : State} {c : Code} (hl : s.wtLive = true) (h : wordAt s c = none) :
    wtLookup c s = .fault .unassignedCode := by simp [wtLookup, hl, h]

theorem wtLookup_eq_next {s : State} {c : Code} {w : ByteSeq} (h : wtLookup c s = .next w) :
    s.wtLive = true ∧ wordAt s c = some w := by
  unfold wtLookup at h
  split_ifs at h with h1
  refine ⟨by simpa using h1, ?_⟩
  cases hw : wordAt s c with
  | none => rw [hw] at h; simp at h
  | some v => rw [hw] at h; simpa using h

theorem wtAssign_eq {s : State} {c p : Code} {b : Byte} {w : ByteSeq} (hl : s.wtLive = true) (h1 : wordAt s c = none)
    (h2 : codeAssignable s.cfg c = true) (h3 : wordAt s p = some w) :
    wtAssign c p b s = .next { s with wt := slotPut s.wt c.toNat (w ++ [b]) } := by
  simp [wtAssign, hl, h1, h2, wtLookup_eq hl h3]

theorem wtAssign_eq_next {s t : State} {c p : Code} {b : Byte} (h : wtAssign c p b s = .next t) :
    s.wtLive = true ∧ wordAt s c = none ∧ codeAssignable s.cfg c = true ∧ ∃ w, wordAt s p = some w ∧
      t = { s with wt := slotPut s.wt c.toNat (w ++ [b]) } := by
  unfold wtAssign at h
  split_ifs at h with h1 h2
  obtain ⟨w, hw, ht⟩ := andThen_eq_next.1 h
  rw [Bool.or_eq_true, not_or] at h2
  refine ⟨by simpa using h1, ?_, ?_, w, (wtLookup_eq_next hw).2, (Host.Outcome.next.inj ht).symm⟩
  · by_contra hn; exact h2.1 (Option.isSome_iff_ne_none.2 hn)
  · simpa using h2.2

theorem wtReset_eq {s : State} (h : s.wtLive = true) : wtReset s = .next { s with wt := emptyTable } := if_pos h

theorem wtReset_eq_next {s t : State} (h : wtReset s = .next t) : s.wtLive = true ∧ t = { s with wt := emptyTable } := by
  unfold wtReset at h
  split_ifs at h with h1
  exact ⟨h1, (Host.Outcome.next.inj h).symm⟩

theorem wtDelete_eq {s : State} (h : s.wtLive = true) : wtDelete s = .next { s with wt := [], wtLive := false } := if_pos h

theorem wtDelete_eq_next {s t : State} (h : wtDelete s = .next t) :
    s.wtLive = true ∧ t = { s with wt := [], wtLive := false } := by
  unfold wtDelete at h
  split_ifs at h with h1
  exact ⟨h1, (Host.Outcome.next.inj h).symm⟩

/-! ### Each operation keeps the table -/

theorem TableInv.none (maxCode : Nat) : TableInv maxCode [] false where
  canonical := List.Pairwise.nil
  slots := by simp
  emptyWord := by simp
  dead := fun _ => rfl

theorem TableInv.created (maxCode : Nat) : TableInv maxCode emptyTable true where
  canonical := by simp [SlotMap.wf, emptyTable]
  slots := by simp [emptyTable]
  emptyWord := fun _ => rfl
  dead := by simp

theorem codeAssignable_iff {cfg : Config} {c : Code} :
    codeAssignable cfg c = true ↔ 2 ≤ c.toNat ∧ c.toNat < cfg.maxCode := by simp [codeAssignable]

theorem TableInv.assign {maxCode : Nat} {wt : SlotMap ByteSeq} {live : Bool} (h : TableInv maxCode wt live)
    (hl : live = true) {c : Nat} (hc : 2 ≤ c ∧ c < maxCode) (w : ByteSeq) : TableInv maxCode (slotPut wt c w) live where
  canonical := slotPut_wf h.canonical _ _
  slots := fun e he => by
    rcases key_mem_slotPut he with rfl | he
    · exact .inr hc
    · exact h.slots e he
  emptyWord := fun hl => by rw [slotGet_put_ne _ _ (by omega)]; exact h.emptyWord hl
  dead := by rw [hl]; simp

end Sys2Proof.Machine
end

