-- ==== Sys2Proof/Laws/Engine.lean ====
section
/-! SUPPORT. Each shared operation keeps the engine's invariant (`EngineInv`): one lemma per operation, which the invariant of a
step cites. -/

namespace Sys2Proof.Machine

theorem EngineInv.block_pos {s : State} (h : EngineInv s) : 0 < s.cfg.block := h.params.2.2.2

/-- The reset state of a legal engine. -/
theorem resetOf_engineInv {cfg : Config} (h : cfg.Ok) : EngineInv (State.resetOf cfg) where
  params := h
  counter := ⟨Nat.le_refl 2, by have := h.1; show 2 < cfg.maxCode; omega⟩
  cursors := by
    have := h.2.2.2
    exact ⟨by show 0 < 8 * cfg.block; omega, le_refl (8 * cfg.block), by show 0 < cfg.block; omega⟩
  wbuf := ⟨⟨List.Pairwise.nil, by simp [State.resetOf]⟩, by simp [State.resetOf]⟩
  rbuf := ⟨⟨List.Pairwise.nil, by simp [State.resetOf]⟩, by simp [State.resetOf]⟩
  obuf := ⟨⟨List.Pairwise.nil, by simp [State.resetOf]⟩, by simp [State.resetOf]⟩
  trie := TrieInv.empty _
  table := TableInv.none _
  errors := ⟨by simp [State.resetOf], by simp [State.resetOf]⟩

theorem resetState_engineInv {s : State} (h : s.cfg.Ok) : EngineInv (resetState s) := by
  have := resetOf_engineInv h
  exact ⟨this.params, this.counter, this.cursors, this.wbuf, this.rbuf, this.obuf, this.trie, this.table, this.errors⟩

/-- Ports and results that hold no engine state may change. -/
theorem EngineInv.ports {s : State} (h : EngineInv s) (zin zout sout : ByteSeq) (pos : Counter) (xs : List HostInput)
    (r : Option UnitRequest) (o : UnitResult) :
    EngineInv { s with zin := zin, zout := zout, sout := sout, zinPos := pos, cmdIn := xs, unitIn := r, unitOut := o } :=
  ⟨h.params, h.counter, h.cursors, h.wbuf, h.rbuf, h.obuf, h.trie, h.table, h.errors⟩

/-- The registers no invariant of the engine speaks of may change. -/
theorem EngineInv.registers {s : State} (h : EngineInv s) (cur prev : Code) (sym : Byte) (prot : BitVec 16) (rp : Code)
    (rs : Byte) (more : Bool) (bits syms : Counter) :
    EngineInv { s with
      cur := cur, prevCode := prev, prevSym := sym, prot := prot, rpCode := rp, rpSym := rs, hasMore := more
      totalBits := bits, totalSyms := syms } :=
  ⟨h.params, h.counter, h.cursors, h.wbuf, h.rbuf, h.obuf, h.trie, h.table, h.errors⟩

theorem raiseError_engineInv {s : State} (h : EngineInv s) {cause : BitVec 3} (hc : cause = errFormat ∨ cause = errCmd) :
    EngineInv (raiseError cause s) := by
  by_cases he : s.runState = .error
  · rw [raiseError_of_error _ he]; exact h
  · rw [raiseError_of_ne _ he]
    refine ⟨h.params, h.counter, h.cursors, h.wbuf, h.rbuf, h.obuf, h.trie, h.table, ?_⟩
    rcases hc with rfl | rfl <;> simp [errFormat, errCmd]

/-- Entering a run state that is not ERROR from one that is not ERROR. -/
theorem EngineInv.enter {s : State} (h : EngineInv s) {r : RunState} (hs : s.runState ≠ .error) (hr : r ≠ .error) :
    EngineInv { s with runState := r } := by
  refine ⟨h.params, h.counter, h.cursors, h.wbuf, h.rbuf, h.obuf, h.trie, h.table, ?_, h.errors.2⟩
  have he : s.err = 0 := by
    by_contra hne; exact hs (h.errors.1.1 hne)
  simp [he, hr]

theorem EngineInv.started {s : State} (h : EngineInv s) : EngineInv { s with nextCode := startCode } := by
  refine ⟨h.params, ⟨Nat.le_refl 2, ?_⟩, h.cursors, h.wbuf, h.rbuf, h.obuf, h.trie, h.table, h.errors⟩
  have := h.params.1
  show 2 < s.cfg.maxCode
  omega

theorem writePair_engineInv {s t : State} (h : EngineInv s) {c : Code} {y : Byte} {w : Width}
    (ht : writePair c y w s = .next t) : EngineInv t := by
  obtain ⟨-, hx, rfl⟩ := writePair_eq_next ht
  rw [putBits_frame]
  exact ⟨h.params, h.counter, ⟨putBits_widx_lt hx _, h.cursors.2⟩, putBits_wbuf hx h.wbuf _, h.rbuf, h.obuf, h.trie, h.table,
    h.errors⟩

theorem afterBits_engineInv {s : State} (h : EngineInv s) (n : Nat) : EngineInv (afterBits n s) := by
  unfold afterBits
  rw [getBits_frame]
  exact ⟨h.params, h.counter, ⟨h.cursors.1, getBits_ridx_le h.cursors.2.1 h.block_pos n, h.cursors.2.2⟩, h.wbuf,
    getBits_rbuf h.rbuf n, h.obuf, h.trie, h.table, h.errors⟩

theorem latchPair_engineInv {s : State} (h : EngineInv s) (w : Width) (c : Code) (y : Byte) :
    EngineInv (latchPair w c y s) :=
  ⟨h.params, h.counter, h.cursors, h.wbuf, h.rbuf, h.obuf, h.trie, h.table, h.errors⟩

theorem readPair_engineInv {s t : State} (h : EngineInv s) {w : Width} (ht : readPair w s = .next t) : EngineInv t := by
  obtain ⟨-, -, -, -, rfl⟩ := readPair_eq_next ht
  exact latchPair_engineInv (afterBits_engineInv h _) _ _ _

theorem flush_engineInv {s t : State} (h : EngineInv s) (ht : flush s = .next t) : EngineInv t := by
  obtain ⟨hx, rfl⟩ := flush_eq_next ht
  refine ⟨h.params, h.counter, ⟨?_, h.cursors.2⟩, ⟨clearBits_wf _ _ h.wbuf.1, clearBits_below h.wbuf.2 ?_⟩, h.rbuf, h.obuf,
    h.trie, h.table, h.errors⟩
  · have := h.block_pos; show 0 < 8 * s.cfg.block; omega
  · show s.widx + _ ≤ 8 * s.cfg.block; omega

theorem writeWord_engineInv {s t : State} (h : EngineInv s) {xs : ByteSeq} (ht : writeWord xs s = .next t) : EngineInv t := by
  obtain ⟨hx, rfl⟩ := writeWord_eq_next ht
  have hlt : (putBytesOut xs s).oidx < s.cfg.block := by
    rw [putBytesOut_oidx hx]; exact Nat.mod_lt _ h.block_pos
  rw [putBytesOut_frame]
  exact ⟨h.params, h.counter, ⟨h.cursors.1, h.cursors.2.1, hlt⟩, h.wbuf, h.rbuf, putBytesOut_obuf hx h.obuf _, h.trie,
    h.table, h.errors⟩

theorem flushWords_engineInv {s t : State} (h : EngineInv s) (ht : flushWords s = .next t) : EngineInv t := by
  obtain ⟨-, rfl⟩ := flushWords_eq_next ht
  exact ⟨h.params, h.counter, ⟨h.cursors.1, h.cursors.2.1, h.block_pos⟩, h.wbuf, h.rbuf, h.obuf, h.trie, h.table, h.errors⟩

theorem trieCreate_engineInv {s : State} (h : EngineInv s) : EngineInv (trieCreate s) :=
  ⟨h.params, h.counter, h.cursors, h.wbuf, h.rbuf, h.obuf, TrieInv.empty _, h.table, h.errors⟩

theorem trieInsert_engineInv {s t : State} (h : EngineInv s) {n c : Code} {b : Byte} (ht : trieInsert n b c s = .next t) :
    EngineInv t := by
  obtain ⟨h1, h2, h3, rfl⟩ := trieInsert_eq_next ht
  obtain ⟨hl, hn⟩ := trieReady_iff.1 h1
  exact ⟨h.params, h.counter, h.cursors, h.wbuf, h.rbuf, h.obuf,
    h.trie.insert hl hn h2 _, h.table, h.errors⟩

theorem trieReset_engineInv {s t : State} (h : EngineInv s) (ht : trieReset s = .next t) : EngineInv t := by
  obtain ⟨-, rfl⟩ := trieReset_eq_next ht
  exact ⟨h.params, h.counter, h.cursors, h.wbuf, h.rbuf, h.obuf, TrieInv.empty _, h.table, h.errors⟩

theorem trieDelete_engineInv {s t : State} (h : EngineInv s) {n : Code} (ht : trieDelete n s = .next t) : EngineInv t := by
  obtain ⟨-, ⟨-, rfl⟩ | ⟨-, rfl⟩⟩ := trieDelete_eq_next ht
  · exact ⟨h.params, h.counter, h.cursors, h.wbuf, h.rbuf, h.obuf, TrieInv.empty _, h.table, h.errors⟩
  · exact ⟨h.params, h.counter, h.cursors, h.wbuf, h.rbuf, h.obuf, h.trie.prune n, h.table, h.errors⟩

theorem wtCreate_engineInv {s : State} (h : EngineInv s) : EngineInv (wtCreate s) :=
  ⟨h.params, h.counter, h.cursors, h.wbuf, h.rbuf, h.obuf, h.trie, TableInv.created _, h.errors⟩

theorem wtAssign_engineInv {s t : State} (h : EngineInv s) {c p : Code} {b : Byte} (ht : wtAssign c p b s = .next t) :
    EngineInv t := by
  obtain ⟨hl, -, h2, w, -, rfl⟩ := wtAssign_eq_next ht
  exact ⟨h.params, h.counter, h.cursors, h.wbuf, h.rbuf, h.obuf, h.trie,
    h.table.assign hl (codeAssignable_iff.1 h2) _, h.errors⟩

theorem wtReset_engineInv {s t : State} (h : EngineInv s) (ht : wtReset s = .next t) : EngineInv t := by
  obtain ⟨hl, rfl⟩ := wtReset_eq_next ht
  refine ⟨h.params, h.counter, h.cursors, h.wbuf, h.rbuf, h.obuf, h.trie, ?_, h.errors⟩
  show TableInv s.cfg.maxCode emptyTable s.wtLive
  rw [hl]; exact TableInv.created _

theorem wtDelete_engineInv {s t : State} (h : EngineInv s) (ht : wtDelete s = .next t) : EngineInv t := by
  obtain ⟨-, rfl⟩ := wtDelete_eq_next ht
  exact ⟨h.params, h.counter, h.cursors, h.wbuf, h.rbuf, h.obuf, h.trie, TableInv.none _, h.errors⟩

/-- The counter stays in its range (10_state.md R22). -/
theorem advanceCode_engineInv {op : State → Res State} (hop : ∀ u v, EngineInv u → op u = .next v → EngineInv v)
    {s t : State} (h : EngineInv s) (ht : advanceCode op s = .next t) : EngineInv t := by
  rcases advanceCode_eq_next.1 ht with ⟨-, u, hu, rfl⟩ | ⟨hne, rfl⟩
  · exact (hop s u h hu).started
  · refine ⟨h.params, ?_, h.cursors, h.wbuf, h.rbuf, h.obuf, h.trie, h.table, h.errors⟩
    have h1 := h.counter
    have h2 := h.params.2.1
    show 2 ≤ (BitVec.ofNat 16 (s.nextCode.toNat + 1)).toNat ∧ (BitVec.ofNat 16 (s.nextCode.toNat + 1)).toNat < s.cfg.maxCode
    rw [BitVec.toNat_ofNat, Nat.mod_eq_of_lt (by omega)]
    omega

/-- A live node of the spec is a live node of the model's own test (41_trie.md R131). -/
theorem liveNode_iff {s : State} (he : EngineInv s) (n : Code) : LiveNode s n ↔ trieReady s n = true := by
  rw [trieReady_iff, nodeLive_iff]
  unfold LiveNode
  refine and_congr_right fun _ => or_congr_right ?_
  constructor
  · rintro ⟨p, b, h⟩; exact ⟨_, mem_of_slotGet h, rfl⟩
  · rintro ⟨e, h, rfl⟩
    obtain ⟨p, hp, -⟩ := he.trie.parents e h
    exact ⟨p, _, slotGet_of_entry he.trie.canonical h hp⟩

/-- In an empty live trie the root is the one live node. -/
theorem liveNode_empty {s : State} (hl : s.trieLive = true) (hc : s.child = []) (n : Code) : LiveNode s n ↔ n = emptyCode := by
  unfold LiveNode childAt; rw [hc]; simp [hl, slotGet]

end Sys2Proof.Machine
end

