-- ==== Sys2Proof/Laws/Codec.lean ====
section
/-! SUPPORT. What each host command does between commands of a run, whole: one equation per case of 43_codec.md R154 to R160. -/

namespace Sys2Proof.Machine

/-! ### The width and the counter -/

theorem width_le (s : State) : bitLength s.nextCode.toNat ≤ 16 := bitLength_le s.nextCode.isLt

theorem EngineInv.two_le_width {s : State} (h : EngineInv s) : 2 ≤ bitLength s.nextCode.toNat := two_le_bitLength h.counter.1

theorem codeWidth_toNat (s : State) : (codeWidth s).toNat = bitLength s.nextCode.toNat := by
  have : bitLength s.nextCode.toNat ≤ 16 := bitLength_le s.nextCode.isLt
  unfold codeWidth
  rw [BitVec.toNat_ofNat, Nat.mod_eq_of_lt (by omega)]

/-- "MIN_WIDTH = 2 <= CodeWidth <= MAX_WIDTH" (43_codec.md R151): the width operand is in range. -/
theorem EngineInv.width_ok {s : State} (h : EngineInv s) : widthInRange (codeWidth s) = true := by
  have h1 := h.two_le_width
  have h2 := width_le s
  simp only [widthInRange, codeWidth_toNat, Bool.and_eq_true, decide_eq_true_eq]
  omega

theorem EngineInv.next_assignable {s : State} (h : EngineInv s) : codeAssignable s.cfg s.nextCode = true :=
  codeAssignable_iff.2 h.counter

theorem advancedCode_toNat {s : State} (h : EngineInv s) : (BitVec.ofNat 16 (advancedCode s)).toNat = advancedCode s := by
  have h1 := h.counter
  have h2 := h.params.2.1
  unfold advancedCode
  rw [BitVec.toNat_ofNat]
  split_ifs
  · rfl
  · exact Nat.mod_eq_of_lt (by omega)

theorem advanceCode_trie {s : State} (hl : s.trieLive = true) :
    advanceCode trieReset s = .next { s with
      nextCode := BitVec.ofNat 16 (advancedCode s)
      child := if s.nextCode.toNat + 1 = s.cfg.maxCode then [] else s.child } := by
  unfold advanceCode advancedCode
  by_cases h : s.nextCode.toNat + 1 = s.cfg.maxCode
  · simp only [h, if_true, trieReset_eq hl, andThen_next]
  · simp only [h, if_false]

theorem advanceCode_table {s : State} (hl : s.wtLive = true) :
    advanceCode wtReset s = .next { s with
      nextCode := BitVec.ofNat 16 (advancedCode s)
      wt := if s.nextCode.toNat + 1 = s.cfg.maxCode then emptyTable else s.wt } := by
  unfold advanceCode advancedCode
  by_cases h : s.nextCode.toNat + 1 = s.cfg.maxCode
  · simp only [h, if_true, wtReset_eq hl, andThen_next]
  · simp only [h, if_false]

theorem andThen_of {α β : Type} {o : Res α} {a : α} {f : α → Res β} (h : o = .next a) : andThen o f = f a := by rw [h]; rfl

/-! ### The encoder -/

/-- The current match node is live (10_state.md R23). -/
theorem EncInv.ready {s : State} (h : EncInv s) : trieReady s s.cur = true := by
  refine trieReady_iff.2 ⟨h.live, ?_⟩
  rcases h.matched with hc | hc
  · exact nodeLive_iff.2 (.inl hc)
  · exact nodeLive_of_child hc

/-- "no live node holds `next_code`" (43_codec.md R168). -/
theorem EncInv.fresh {s : State} (h : EncInv s) (he : EngineInv s) : nodeLive s.child s.nextCode = false := by
  by_contra hn
  rw [Bool.not_eq_false] at hn
  rcases nodeLive_iff.1 hn with hc | hc
  · have := he.counter.1; rw [hc] at this; simp at this
  · have := (h.codes _).1 hc; omega

/-- ENC_SYM, the match extended (43_codec.md R157). -/
theorem execEncSym_extend {s : State} (hs : s.runState = .enc) (hr : trieReady s s.cur = true) {sym : Byte} {node : Code}
    (hc : childAt s s.cur sym = some node) :
    execEncSym sym s =
      .next { s with totalSyms := s.totalSyms + 1, prevCode := s.cur, prevSym := sym, cur := node } := by
  unfold execEncSym
  rw [inState_of_eq _ hs]
  show andThen (trieStep s.cur sym { s with totalSyms := s.totalSyms + 1 }) _ = _
  rw [trieStep_eq (s := { s with totalSyms := s.totalSyms + 1 }) hr, andThen_next]
  rw [show childAt { s with totalSyms := s.totalSyms + 1 } s.cur sym = some node from hc]

/-- What PutBits does depends on the parameters, WBUF, its cursor and ZOUT only. -/
theorem putBits_congr (bs : List Bool) {s u : State} (hc : u.cfg = s.cfg) (hw : u.wbuf = s.wbuf) (hx : u.widx = s.widx)
    (hz : u.zout = s.zout) :
    (putBits bs u).wbuf = (putBits bs s).wbuf ∧ (putBits bs u).widx = (putBits bs s).widx ∧
      (putBits bs u).zout = (putBits bs s).zout := by
  induction bs generalizing s u with
  | nil => exact ⟨hw, hx, hz⟩
  | cons b bs ih =>
    refine ih (s := putBit b s) (u := putBit b u) ?_ ?_ ?_ ?_ <;> rw [putBit_eq, putBit_eq] <;> simp only [hc, hw, hx, hz]

theorem putBits_syms (bs : List Bool) (s : State) (x : Counter) :
    putBits bs { s with totalSyms := x } = { putBits bs s with totalSyms := x } := by
  obtain ⟨h1, h2, h3⟩ := putBits_congr bs (s := s) (u := { s with totalSyms := x }) rfl rfl rfl rfl
  rw [putBits_frame, h1, h2, h3, putBits_frame bs s]

/-- ENC_SYM, the match broken by the byte (R157). -/
theorem execEncSym_break {s : State} (hs : s.runState = .enc) (he : EngineInv s) (hr : trieReady s s.cur = true)
    (hf : nodeLive s.child s.nextCode = false) {sym : Byte} (hc : childAt s s.cur sym = none) :
    execEncSym sym s = .next
      { putBits (pairBits s.cur sym (bitLength s.nextCode.toNat)) s with
        totalBits := s.totalBits + BitVec.ofNat 64 (bitLength s.nextCode.toNat + 8)
        totalSyms := s.totalSyms + 1
        child := if s.nextCode.toNat + 1 = s.cfg.maxCode then [] else slotPut s.child (childSlot s.cur sym) s.nextCode
        cur := emptyCode
        nextCode := BitVec.ofNat 16 (advancedCode s) } := by
  have hl : s.trieLive = true := (trieReady_iff.1 hr).1
  unfold execEncSym
  rw [inState_of_eq _ hs]
  show andThen (trieStep s.cur sym { s with totalSyms := s.totalSyms + 1 }) _ = _
  rw [trieStep_eq (s := { s with totalSyms := s.totalSyms + 1 }) hr, andThen_next]
  rw [show childAt { s with totalSyms := s.totalSyms + 1 } s.cur sym = none from hc]
  show andThen (writePair s.cur sym (codeWidth s) { s with totalSyms := s.totalSyms + 1 }) _ = _
  rw [writePair_eq (s := { s with totalSyms := s.totalSyms + 1 }) he.width_ok he.cursors.1, andThen_next, codeWidth_toNat]
  rw [putBits_syms]
  -- the state after WRITE_PAIR differs from `s` in WBUF, ZOUT and the counters only
  generalize hp : putBits (pairBits s.cur sym (bitLength s.nextCode.toNat)) s = p
  have hq : p = { s with wbuf := p.wbuf, widx := p.widx, zout := p.zout } := by rw [← hp]; exact putBits_frame _ _
  rw [hq]
  have h1 := trieInsert_eq (s := { s with
      wbuf := p.wbuf, widx := p.widx, zout := p.zout, totalSyms := s.totalSyms + 1
      totalBits := s.totalBits + BitVec.ofNat 64 (bitLength s.nextCode.toNat + 8) }) hr hc hf he.next_assignable
  refine (congrArg (fun o => andThen o _) h1).trans ?_
  rw [andThen_next]
  exact advanceCode_trie (s := { s with
      wbuf := p.wbuf, widx := p.widx, zout := p.zout, totalSyms := s.totalSyms + 1
      totalBits := s.totalBits + BitVec.ofNat 64 (bitLength s.nextCode.toNat + 8)
      child := slotPut s.child (childSlot s.cur sym) s.nextCode, cur := emptyCode }) hl

/-- Appending to the same stream of sent bits and flushing gives the same bytes. -/
theorem zout_of_sent {z z' : ByteSeq} {p p' : List Bool} (h : bytesBits z ++ p = bytesBits z' ++ p') :
    z ++ packBytes p = z' ++ packBytes p' := by
  rw [← packBytes_bytesBits_append, h, packBytes_bytesBits_append]

/-- The second part of ENC_END: the sentinel, the final flush, the trie torn down (43_codec.md R158). -/
def sealStream (u : State) : Res State :=
  andThen (writePair stopCode 0 (codeWidth u) u) (fun s2 =>
    andThen (flush s2) (fun s3 =>
      andThen (trieDelete emptyCode s3) (fun s4 => .next { s4 with cur := emptyCode, runState := .done })))

theorem execEncEnd_parts {s : State} (hs : s.runState = .enc) :
    execEncEnd s = andThen (writeFinalPair s) sealStream := inState_of_eq _ hs

/-- WBUF once a run of bits is written and flushed. -/
def flushedBuffer (bs : List Bool) (s : State) : Memory :=
  let p := putBits bs s
  Memory.clearBits (8 * ((p.widx + 7) / 8) - p.widx) p.widx p.wbuf

theorem sealStream_eq {u : State} (hl : u.trieLive = true) (hw : widthInRange (codeWidth u) = true)
    (hx : u.widx < 8 * u.cfg.block) :
    sealStream u = .next { u with
      wbuf := flushedBuffer (pairBits stopCode 0 (bitLength u.nextCode.toNat)) u
      widx := 0
      zout := u.zout ++ packBytes (pendingBits u ++ pairBits stopCode 0 (bitLength u.nextCode.toNat))
      totalBits := u.totalBits + BitVec.ofNat 64 (bitLength u.nextCode.toNat + 8)
      child := [], trieLive := false, cur := emptyCode, runState := .done } := by
  unfold sealStream
  rw [writePair_eq hw hx, andThen_next, codeWidth_toNat]
  have hsent := putBits_sent u (pairBits stopCode 0 (bitLength u.nextCode.toNat))
  have hlt := putBits_widx_lt hx (pairBits stopCode 0 (bitLength u.nextCode.toNat))
  unfold flushedBuffer
  generalize hp : putBits (pairBits stopCode 0 (bitLength u.nextCode.toNat)) u = p at hsent hlt ⊢
  have hq : p = { u with wbuf := p.wbuf, widx := p.widx, zout := p.zout } := by rw [← hp]; exact putBits_frame _ _
  have hc : p.cfg = u.cfg := by rw [hq]
  have hz : p.zout ++ packBytes (pendingBits p) =
      u.zout ++ packBytes (pendingBits u ++ pairBits stopCode 0 (bitLength u.nextCode.toNat)) :=
    zout_of_sent (by rw [← List.append_assoc]; exact hsent)
  clear hsent hp
  obtain ⟨w, x, z, hq⟩ : ∃ w x z, p = { u with wbuf := w, widx := x, zout := z } := ⟨_, _, _, hq⟩
  subst hq
  refine (andThen_of (flush_eq (s := { u with
      wbuf := w, widx := x, zout := z
      totalBits := u.totalBits + BitVec.ofNat 64 (bitLength u.nextCode.toNat + 8) }) hlt)).trans ?_
  refine (andThen_of (trieDelete_root (s := { u with
      wbuf := Memory.clearBits (8 * ((x + 7) / 8) - x) x w, widx := 0
      zout := z ++ packBytes (pendingBits { u with wbuf := w, widx := x, zout := z })
      totalBits := u.totalBits + BitVec.ofNat 64 (bitLength u.nextCode.toNat + 8) }) hl)).trans ?_
  rw [← hz]

theorem flushedBuffer_other {s : State} (hx : s.widx < 8 * s.cfg.block) {bs : List Bool} (hb : bs ≠ []) {a : Nat}
    (ha : ∀ k < bs.length, (s.widx + k) % (8 * s.cfg.block) / 8 ≠ a) :
    Memory.read (flushedBuffer bs s) a = Memory.read s.wbuf a := by
  have hlen : 0 < bs.length := List.length_pos_iff.2 hb
  have hlast := ha (bs.length - 1) (by omega)
  unfold flushedBuffer
  rw [clearBits_other, putBits_other hx bs ha]
  intro k hk e
  rw [putBits_widx hx] at hk e
  -- the padding completes the byte of the last bit written
  refine hlast ?_
  rw [← e]
  have h8 : 0 < 8 * s.cfg.block := by omega
  have hm := Nat.mod_lt (s.widx + bs.length) h8
  have hne : (s.widx + bs.length) % (8 * s.cfg.block) ≠ 0 := by intro h0; rw [h0] at hk; omega
  have hpred : (s.widx + (bs.length - 1)) % (8 * s.cfg.block) = (s.widx + bs.length) % (8 * s.cfg.block) - 1 := by
    have hd := Nat.div_add_mod (s.widx + bs.length) (8 * s.cfg.block)
    rw [show s.widx + (bs.length - 1) = 8 * s.cfg.block * ((s.widx + bs.length) / (8 * s.cfg.block)) +
      ((s.widx + bs.length) % (8 * s.cfg.block) - 1) by omega, Nat.mul_add_mod, Nat.mod_eq_of_lt (by omega)]
  rw [hpred]
  omega

/-- ENC_END with no outstanding match (43_codec.md R158). -/
theorem execEncEnd_root {s : State} (hs : s.runState = .enc) (he : EngineInv s) (hl : s.trieLive = true)
    (hc : s.cur = emptyCode) :
    execEncEnd s = .next { s with
      wbuf := flushedBuffer (pairBits stopCode 0 (bitLength s.nextCode.toNat)) s
      widx := 0
      zout := s.zout ++ packBytes (pendingBits s ++ pairBits stopCode 0 (bitLength s.nextCode.toNat))
      totalBits := s.totalBits + BitVec.ofNat 64 (bitLength s.nextCode.toNat + 8)
      child := [], trieLive := false, cur := emptyCode, runState := .done } := by
  rw [execEncEnd_parts hs, show writeFinalPair s = .next s from if_pos hc, andThen_next,
    sealStream_eq hl he.width_ok he.cursors.1]

/-- The bits ENC_END writes for an outstanding match: the final pair, then the sentinel at the width of the advanced counter. -/
def finalBits (s : State) : List Bool :=
  pairBits s.prevCode s.prevSym (bitLength s.nextCode.toNat) ++ pairBits stopCode 0 (bitLength (advancedCode s))

theorem advancedCode_range {s : State} (h : EngineInv s) : 2 ≤ advancedCode s ∧ advancedCode s < s.cfg.maxCode := by
  have h1 := h.counter
  have h2 := h.params.1
  unfold advancedCode
  split_ifs <;> omega

/-- ENC_END with an outstanding match (43_codec.md R158). -/
theorem execEncEnd_match {s : State} (hs : s.runState = .enc) (he : EngineInv s) (hl : s.trieLive = true)
    (hc : s.cur ≠ emptyCode) :
    execEncEnd s = .next { s with
      wbuf := flushedBuffer (finalBits s) s
      widx := 0
      zout := s.zout ++ packBytes (pendingBits s ++ finalBits s)
      totalBits := s.totalBits + BitVec.ofNat 64 (bitLength s.nextCode.toNat + 8)
        + BitVec.ofNat 64 (bitLength (advancedCode s) + 8)
      nextCode := BitVec.ofNat 16 (advancedCode s)
      child := [], trieLive := false, cur := emptyCode, runState := .done } := by
  rw [execEncEnd_parts hs]
  have h1 : writeFinalPair s = andThen (writePair s.prevCode s.prevSym (codeWidth s) s)
      (fun s1 => advanceCode trieReset s1) := if_neg hc
  rw [h1, writePair_eq he.width_ok he.cursors.1, andThen_next, codeWidth_toNat]
  have hsent := putBits_sent s (pairBits s.prevCode s.prevSym (bitLength s.nextCode.toNat))
  have hlt := putBits_widx_lt he.cursors.1 (pairBits s.prevCode s.prevSym (bitLength s.nextCode.toNat))
  have happ := putBits_append (pairBits s.prevCode s.prevSym (bitLength s.nextCode.toNat))
    (pairBits stopCode 0 (bitLength (advancedCode s))) s
  unfold flushedBuffer finalBits
  rw [happ]
  generalize hp : putBits (pairBits s.prevCode s.prevSym (bitLength s.nextCode.toNat)) s = p at hsent hlt ⊢
  have hq : p = { s with wbuf := p.wbuf, widx := p.widx, zout := p.zout } := by rw [← hp]; exact putBits_frame _ _
  have h2 := advanceCode_trie (s := { s with
      wbuf := p.wbuf, widx := p.widx, zout := p.zout
      totalBits := s.totalBits + BitVec.ofNat 64 (bitLength s.nextCode.toNat + 8) }) hl
  have h3 : advanceCode trieReset { p with totalBits := s.totalBits + BitVec.ofNat 64 (bitLength s.nextCode.toNat + 8) } = _ :=
    (congrArg (advanceCode trieReset) (by rw [hq])).trans h2
  rw [h3, andThen_next]
  have hadv := advancedCode_toNat he
  have hr := advancedCode_range he
  have hw : widthInRange (BitVec.ofNat 5 (bitLength (BitVec.ofNat 16 (advancedCode s)).toNat)) = true := by
    have := two_le_bitLength hr.1
    have h16 : bitLength (advancedCode s) ≤ 16 := bitLength_le (by have := he.params.2.1; omega)
    simp only [widthInRange, hadv, Bool.and_eq_true, decide_eq_true_eq, BitVec.toNat_ofNat]
    rw [Nat.mod_eq_of_lt (by omega)]
    omega
  refine (sealStream_eq (u := { s with
      wbuf := p.wbuf, widx := p.widx, zout := p.zout
      totalBits := s.totalBits + BitVec.ofNat 64 (bitLength s.nextCode.toNat + 8)
      nextCode := BitVec.ofNat 16 (advancedCode s)
      child := if s.nextCode.toNat + 1 = s.cfg.maxCode then [] else s.child }) hl hw hlt).trans ?_
  simp only [hadv]
  have hz : p.zout ++ packBytes (pendingBits p ++ pairBits stopCode 0 (bitLength (advancedCode s))) =
      s.zout ++ packBytes (pendingBits s ++ (pairBits s.prevCode s.prevSym (bitLength s.nextCode.toNat) ++
        pairBits stopCode 0 (bitLength (advancedCode s)))) :=
    zout_of_sent (by
      rw [← List.append_assoc, ← List.append_assoc, ← List.append_assoc]
      exact congrArg (· ++ _) hsent)
  obtain ⟨e1, e2, e3⟩ := putBits_congr (pairBits stopCode 0 (bitLength (advancedCode s))) (s := p) (u := { s with
      wbuf := p.wbuf, widx := p.widx, zout := p.zout
      totalBits := s.totalBits + BitVec.ofNat 64 (bitLength s.nextCode.toNat + 8)
      nextCode := BitVec.ofNat 16 (advancedCode s)
      child := if s.nextCode.toNat + 1 = s.cfg.maxCode then [] else s.child }) (by rw [hq]) rfl rfl rfl
  rw [← hz, flushedBuffer, e1, e2]
  rfl

/-- ENC_START, whole (43_codec.md R155). -/
theorem execEncStart_eq {s : State} (hs : s.runState = .idle) (prot : BitVec 16) :
    execEncStart prot s = .next { s with
      prot := prot
      zout := s.zout ++ headerImage s.cfg s.cfg.magic prot
      child := [], trieLive := true, nextCode := startCode, cur := emptyCode, runState := .enc } := inState_of_eq _ hs

/-! ### The decoder -/

theorem read_of_below {m : Memory} {n a : Nat} (hm : ∀ c ∈ m, c.1 < n) (ha : n ≤ a) : Memory.read m a = 0#8 := by
  unfold Memory.read
  rw [slotGet_eq_none fun e he => by have := hm e he; omega]
  rfl

theorem getBits_kept {s : State} (hr : s.ridx ≤ 8 * s.cfg.block) (hb : 0 < s.cfg.block) (n : Nat) (h : refills s n = 0) :
    (getBits n s).2.rbuf = s.rbuf := by
  induction n generalizing s with
  | zero => rfl
  | succ n ih =>
    have hlt : s.ridx + (n + 1) - 1 < 8 * s.cfg.block := by
      rcases (Nat.div_eq_zero_iff (a := s.ridx + (n + 1) - 1) (b := 8 * s.cfg.block)).1 h with h0 | h0
      · omega
      · exact h0
    have hs : (getBit s).2 = { s with ridx := s.ridx + 1 } := by
      rw [getBit_spec hr hb]; simp [show s.ridx ≠ 8 * s.cfg.block by omega]
    show (getBits n (getBit s).2).2.rbuf = s.rbuf
    rw [hs]
    refine ih (s := { s with ridx := s.ridx + 1 }) (by show s.ridx + 1 ≤ 8 * s.cfg.block; omega) hb ?_
    refine Nat.div_eq_of_lt ?_
    show s.ridx + 1 + n - 1 < 8 * s.cfg.block
    omega

theorem getBits_loaded {s : State} (hr : s.ridx ≤ 8 * s.cfg.block) (hb : 0 < s.cfg.block) (hz : s.zin.length < 2 ^ 64)
    (n : Nat) (h : refills s n ≠ 0) {a : Nat} (ha : a < s.cfg.block) :
    Memory.read (getBits n s).2.rbuf a = inByte s (s.zinPos.toNat + s.cfg.block * (refills s n - 1) + a) := by
  induction n generalizing s with
  | zero => exact absurd (by unfold refills; exact Nat.div_eq_of_lt (by omega)) h
  | succ n ih =>
    have hr1 : (getBit s).2.ridx ≤ 8 * (getBit s).2.cfg.block := by rw [getBit_cfg]; exact getBit_ridx_le hr hb
    have hB : 0 < 8 * s.cfg.block := by omega
    show Memory.read (getBits n (getBit s).2).2.rbuf a = _
    by_cases hx : s.ridx = 8 * s.cfg.block
    · have hs : (getBit s).2 = { s with
          rbuf := Memory.ofBytes (zinAvailable s s.cfg.block)
          zinPos := s.zinPos + BitVec.ofNat 64 (min s.cfg.block (s.zin.length - s.zinPos.toNat))
          ridx := 1 } := by rw [getBit_spec hr hb]; simp [hx]
      have hq : refills s (n + 1) = refills (getBit s).2 n + 1 := by
        unfold refills
        rw [hs]
        simp only
        rw [hx, show 8 * s.cfg.block + (n + 1) - 1 = 1 + n - 1 + 8 * s.cfg.block by omega, Nat.add_div_right _ hB]
      have hz1 : (getBit s).2.zinPos.toNat = s.zinPos.toNat + min s.cfg.block (s.zin.length - s.zinPos.toNat) := by
        rw [hs]; exact pull_pos hz _
      by_cases h0 : refills (getBit s).2 n = 0
      · rw [getBits_kept hr1 (by rw [getBit_cfg]; exact hb) n h0, hq, h0, hs]
        show Memory.read (Memory.ofBytes _) a = _
        rw [Memory.read_ofBytes, zinAvailable_getD s ha]
        simp
      · rw [ih hr1 (by rw [getBit_cfg]; exact hb) (by rw [getBit_zin]; exact hz) h0 (by rw [getBit_cfg]; exact ha)]
        obtain ⟨m, hm⟩ := Nat.exists_eq_succ_of_ne_zero h0
        unfold inByte
        rw [getBit_zin, getBit_cfg, hz1, hq, hm]
        simp only [Nat.succ_eq_add_one, Nat.add_sub_cancel, Nat.mul_add, Nat.mul_one]
        by_cases hle : s.cfg.block ≤ s.zin.length - s.zinPos.toNat
        · rw [Nat.min_eq_left hle]; congr 1; omega
        · rw [List.getD_eq_default _ _ (by omega), List.getD_eq_default _ _ (by omega)]
    · have hs : (getBit s).2 = { s with ridx := s.ridx + 1 } := by rw [getBit_spec hr hb]; simp [hx]
      have hq : refills s (n + 1) = refills (getBit s).2 n := by
        unfold refills
        rw [hs]
        simp only
        congr 1
        omega
      rw [ih hr1 (by rw [getBit_cfg]; exact hb) (by rw [getBit_zin]; exact hz) (by rw [← hq]; exact h)
        (by rw [getBit_cfg]; exact ha)]
      unfold inByte
      rw [getBit_zin, getBit_cfg, ← hq, hs]

/-- What taking n bits does, whole. -/
theorem afterBits_took {s : State} (he : EngineInv s) (hz : s.zin.length < 2 ^ 64) (n : Nat) :
    TookBits n s (afterBits n s) := by
  have hr := he.cursors.2.1
  have hb := he.block_pos
  obtain ⟨h1, h2⟩ := getBits_cursors hr hb hz n
  refine ⟨h1, h2, getBits_kept hr hb n, fun h a ha => getBits_loaded hr hb hz n h ha, fun a ha => ?_,
    (getBits_spec hr hb hz n).2.1⟩
  rw [read_of_below he.rbuf.2 ha]
  exact read_of_below (getBits_rbuf he.rbuf n).2 ha

/-- DEC_START with the expected magic on the wire (43_codec.md R159). -/
theorem execDecStart_accept {s : State} (hs : s.runState = .idle)
    (hm : headerMagic (pull s.cfg.headerBytes s).1 = s.cfg.magic) :
    execDecStart s = .next { s with
      zinPos := s.zinPos + BitVec.ofNat 64 (min s.cfg.headerBytes (s.zin.length - s.zinPos.toNat))
      prot := headerProt (pull s.cfg.headerBytes s).1
      wt := emptyTable, wtLive := true, nextCode := startCode, runState := .dec } := by
  unfold execDecStart acceptHeader
  rw [inState_of_eq _ hs]
  simp only [pull_state, hm, if_true]
  rfl

/-- DEC_START with another magic on the wire: ERR_FORMAT (R159, 60_exceptions.md R182). -/
theorem execDecStart_reject {s : State} (hs : s.runState = .idle)
    (hm : headerMagic (pull s.cfg.headerBytes s).1 ≠ s.cfg.magic) :
    execDecStart s = .next { s with
      zinPos := s.zinPos + BitVec.ofNat 64 (min s.cfg.headerBytes (s.zin.length - s.zinPos.toNat))
      err := errFormat, runState := .error } := by
  unfold execDecStart acceptHeader
  rw [inState_of_eq _ hs]
  simp only [pull_state, hm, if_false]
  rw [raiseError_of_ne _ (by show s.runState ≠ _; rw [hs]; simp)]

/-- The state of a decode run once the pair at the read cursor is taken and latched (40_bitchannel.md R114). -/
def afterPair (s : State) : State :=
  latchPair (codeWidth s) (upcomingCode s) (upcomingSym s) (afterBits (bitLength s.nextCode.toNat + 8) s)

theorem readPair_upcoming {s : State} (he : EngineInv s) (hz : s.zin.length < 2 ^ 64) (hn : s.rpCode ≠ stopCode) :
    readPair (codeWidth s) s = .next (afterPair s) := by
  rw [readPair_eq he.width_ok hn he.cursors.2.1 he.block_pos hz, codeWidth_toNat]
  rfl

/-- Only RBUF, its cursor, `zin_pos`, the latches and `total_bits` change. -/
theorem afterPair_only (s : State) : ∃ r i z, afterPair s = { s with
      rbuf := r, ridx := i, zinPos := z
      rpCode := upcomingCode s, rpSym := upcomingSym s, hasMore := hasMoreOf (upcomingCode s)
      totalBits := s.totalBits + BitVec.ofNat 64 (bitLength s.nextCode.toNat + 8) } := by
  unfold afterPair afterBits
  obtain ⟨r, i, z, h⟩ := getBits_only (bitLength s.nextCode.toNat + 8) s
  exact ⟨r, i, z, by rw [h, latchPair, codeWidth_toNat]⟩

theorem execDecPair_parts {s : State} (hs : s.runState = .dec) (he : EngineInv s) (hz : s.zin.length < 2 ^ 64)
    (hn : s.rpCode ≠ stopCode) :
    execDecPair s = if upcomingCode s = stopCode then endOfStream (afterPair s)
      else appendPair (upcomingCode s) (upcomingSym s) (afterPair s) := by
  unfold execDecPair
  rw [inState_of_eq _ hs, readPair_upcoming he hz hn, andThen_next]
  obtain ⟨r, i, z, hq⟩ := afterPair_only s
  rw [hq]
  by_cases hc : upcomingCode s = stopCode
  · rw [if_pos hc, if_neg (by simp [hasMoreOf, hc])]
  · rw [if_neg hc, if_pos (by simp [hasMoreOf, hc])]

theorem endOfStream_eq {u : State} (ho : u.oidx < u.cfg.block) (hl : u.wtLive = true) :
    endOfStream u = .next { u with
      sout := decodedBytes u, oidx := 0, wt := [], wtLive := false, runState := .done } := by
  unfold endOfStream
  refine (andThen_of (flushWords_eq ho)).trans ((andThen_of (wtDelete_eq (s := { u with
    sout := decodedBytes u, oidx := 0 }) hl)).trans rfl)

/-- DEC_PAIR that reads the sentinel (43_codec.md R160). -/
theorem execDecPair_stop {s : State} (hs : s.runState = .dec) (he : EngineInv s) (hz : s.zin.length < 2 ^ 64)
    (hn : s.rpCode ≠ stopCode) (hl : s.wtLive = true) (hc : upcomingCode s = stopCode) :
    execDecPair s = .next { afterPair s with
      sout := decodedBytes s, oidx := 0, wt := [], wtLive := false, runState := .done } := by
  rw [execDecPair_parts hs he hz hn, if_pos hc]
  obtain ⟨r, i, z, hq⟩ := afterPair_only s
  rw [hq]
  exact endOfStream_eq he.cursors.2.2 hl

/-- What PutByteOut does to OBUF and SOUT depends on the parameters, OBUF, its cursor and SOUT only. -/
theorem putBytesOut_congr (xs : ByteSeq) {s u : State} (hc : u.cfg = s.cfg) (hw : u.obuf = s.obuf) (hx : u.oidx = s.oidx)
    (hz : u.sout = s.sout) :
    (putBytesOut xs u).obuf = (putBytesOut xs s).obuf ∧ (putBytesOut xs u).oidx = (putBytesOut xs s).oidx ∧
      (putBytesOut xs u).sout = (putBytesOut xs s).sout := by
  induction xs generalizing s u with
  | nil => exact ⟨hw, hx, hz⟩
  | cons x xs ih =>
    refine ih (s := putByteOut x s) (u := putByteOut x u) ?_ ?_ ?_ ?_ <;> rw [putByteOut_eq, putByteOut_eq] <;>
      simp only [hc, hw, hx, hz]

/-- A data pair's effect, whole (43_codec.md R160). -/
theorem appendPair_eq {u : State} (hl : u.wtLive = true) {c : Code} (y : Byte) {w : ByteSeq} (hw : wordAt u c = some w)
    (hfree : wordAt u u.nextCode = none) (ha : codeAssignable u.cfg u.nextCode = true) (ho : u.oidx < u.cfg.block) :
    appendPair c y u = .next { u with
      wt := if u.nextCode.toNat + 1 = u.cfg.maxCode then emptyTable else slotPut u.wt u.nextCode.toNat (w ++ [y])
      nextCode := BitVec.ofNat 16 (advancedCode u)
      obuf := (putBytesOut (w ++ [y]) u).obuf
      oidx := (putBytesOut (w ++ [y]) u).oidx
      sout := (putBytesOut (w ++ [y]) u).sout
      totalSyms := u.totalSyms + BitVec.ofNat 64 (w.length + 1) } := by
  unfold appendPair
  rw [wtLookup_eq hl hw, andThen_next, wtAssign_eq hl hfree ha hw, andThen_next]
  rw [writeWord_eq (s := { u with wt := slotPut u.wt u.nextCode.toNat (w ++ [y]) }) ho, andThen_next, putBytesOut_frame]
  obtain ⟨e1, e2, e3⟩ := putBytesOut_congr (w ++ [y]) (s := u)
    (u := { u with wt := slotPut u.wt u.nextCode.toNat (w ++ [y]) }) rfl rfl rfl rfl
  rw [e1, e2, e3, show (w ++ [y]).length = w.length + 1 by simp]
  exact advanceCode_table (s := { u with
    wt := slotPut u.wt u.nextCode.toNat (w ++ [y])
    obuf := (putBytesOut (w ++ [y]) u).obuf
    oidx := (putBytesOut (w ++ [y]) u).oidx
    sout := (putBytesOut (w ++ [y]) u).sout
    totalSyms := u.totalSyms + BitVec.ofNat 64 (w.length + 1) }) hl

theorem appendPair_absent {u : State} (hl : u.wtLive = true) {c : Code} (y : Byte) (hw : wordAt u c = none) :
    appendPair c y u = .fault .unassignedCode := by
  unfold appendPair; rw [wtLookup_absent hl hw]; rfl

/-- DEC_PAIR that reads a data pair (43_codec.md R160). -/
theorem execDecPair_data {s : State} (hs : s.runState = .dec) (he : EngineInv s) (hz : s.zin.length < 2 ^ 64)
    (hn : s.rpCode ≠ stopCode) (hl : s.wtLive = true) (hc : upcomingCode s ≠ stopCode) {w : ByteSeq}
    (hw : wordAt s (upcomingCode s) = some w) (hfree : wordAt s s.nextCode = none) :
    execDecPair s = .next { afterPair s with
      wt := if s.nextCode.toNat + 1 = s.cfg.maxCode then emptyTable
        else slotPut s.wt s.nextCode.toNat (w ++ [upcomingSym s])
      nextCode := BitVec.ofNat 16 (advancedCode s)
      obuf := (putBytesOut (w ++ [upcomingSym s]) s).obuf
      oidx := (putBytesOut (w ++ [upcomingSym s]) s).oidx
      sout := (putBytesOut (w ++ [upcomingSym s]) s).sout
      totalSyms := s.totalSyms + BitVec.ofNat 64 (w.length + 1) } := by
  rw [execDecPair_parts hs he hz hn, if_neg hc]
  obtain ⟨r, i, z, hq⟩ := afterPair_only s
  rw [hq]
  obtain ⟨e1, e2, e3⟩ := putBytesOut_congr (w ++ [upcomingSym s]) (s := s) (u := { s with
      rbuf := r, ridx := i, zinPos := z
      rpCode := upcomingCode s, rpSym := upcomingSym s, hasMore := hasMoreOf (upcomingCode s)
      totalBits := s.totalBits + BitVec.ofNat 64 (bitLength s.nextCode.toNat + 8) }) rfl rfl rfl rfl
  refine (appendPair_eq (u := { s with
      rbuf := r, ridx := i, zinPos := z
      rpCode := upcomingCode s, rpSym := upcomingSym s, hasMore := hasMoreOf (upcomingCode s)
      totalBits := s.totalBits + BitVec.ofNat 64 (bitLength s.nextCode.toNat + 8) }) hl (upcomingSym s) hw hfree
      he.next_assignable he.cursors.2.2).trans ?_
  rw [e1, e2, e3]
  rfl

/-- DEC_PAIR that reads a reference to an unassigned code: U1 (30_encoding.md R88). -/
theorem execDecPair_undef {s : State} (hs : s.runState = .dec) (he : EngineInv s) (hz : s.zin.length < 2 ^ 64)
    (hn : s.rpCode ≠ stopCode) (hl : s.wtLive = true) (hc : upcomingCode s ≠ stopCode)
    (hw : wordAt s (upcomingCode s) = none) : execDecPair s = .fault .unassignedCode := by
  rw [execDecPair_parts hs he hz hn, if_neg hc]
  obtain ⟨r, i, z, hq⟩ := afterPair_only s
  rw [hq]
  exact appendPair_absent (u := { s with
      rbuf := r, ridx := i, zinPos := z
      rpCode := upcomingCode s, rpSym := upcomingSym s, hasMore := hasMoreOf (upcomingCode s)
      totalBits := s.totalBits + BitVec.ofNat 64 (bitLength s.nextCode.toNat + 8) }) hl _ hw

theorem pulledTo_eq (s : State) (n : Nat) :
    pulledTo s n = s.zinPos + BitVec.ofNat 64 (min n (s.zin.length - s.zinPos.toNat)) := by
  unfold pulledTo
  rw [BitVec.ofNat_add]; simp

/-- A bit of WBUF at no written place is as before. -/
theorem putBits_otherBit {s : State} (h : s.widx < 8 * s.cfg.block) (bs : List Bool) {i : Nat}
    (ha : ∀ k < bs.length, (s.widx + k) % (8 * s.cfg.block) ≠ i) :
    Memory.readBit (putBits bs s).wbuf i = Memory.readBit s.wbuf i := by
  induction bs generalizing s with
  | nil => rfl
  | cons b bs ih =>
    show Memory.readBit (putBits bs (putBit b s)).wbuf i = _
    rw [ih (putBit_widx_lt h b)]
    · rw [putBit_eq]
      show Memory.readBit (Memory.writeBit s.wbuf s.widx b) i = _
      rw [Memory.readBit_writeBit, if_neg]
      rintro rfl
      exact ha 0 (by simp) (Nat.mod_eq_of_lt h)
    · intro k hk
      rw [putBit_widx h, putBit_cfg, Nat.mod_add_mod, Nat.add_assoc, Nat.add_comm 1]
      exact ha (k + 1) (by simpa using hk)

end Sys2Proof.Machine
end

