-- ==== Sys2Proof/Laws/Decode.lean ====
section
/-! SUPPORT. What the decoder reads from each encoding: command words as numbers, headers, pairs. -/

namespace Sys2Proof

open Sys2Proof.Machine

/-! ### Command words -/

theorem cmdWord_opid (o : BitVec 8) (a : BitVec 16) : (cmdWord o a).extractLsb' 0 8 = o := by
  unfold cmdWord
  ext i hi
  simp only [BitVec.getElem_extractLsb', BitVec.getLsbD_append]
  simp [hi]

theorem cmdWord_arg (o : BitVec 8) (a : BitVec 16) : (cmdWord o a).extractLsb' 8 16 = a := by
  unfold cmdWord
  ext i hi
  simp only [BitVec.getElem_extractLsb', BitVec.getLsbD_append]
  simp [hi]

theorem cmdWord_eta (w : BitVec 24) : cmdWord (w.extractLsb' 0 8) (w.extractLsb' 8 16) = w := by
  unfold cmdWord
  ext i hi
  simp only [BitVec.getElem_append, BitVec.getElem_extractLsb']
  split
  · rw [Nat.zero_add]; exact BitVec.getLsbD_eq_getElem hi
  · rw [show 8 + (i - 8) = i by omega]; exact BitVec.getLsbD_eq_getElem hi

/-- The opid and the argument of a word as numbers. -/
theorem opid_toNat (w : BitVec 24) : (w.extractLsb' 0 8).toNat = w.toNat % 256 := by
  simp [BitVec.extractLsb'_toNat]

theorem arg_toNat (w : BitVec 24) : (w.extractLsb' 8 16).toNat = w.toNat / 256 := by
  have := w.isLt
  rw [BitVec.extractLsb'_toNat, Nat.shiftRight_eq_div_pow]
  exact Nat.mod_eq_of_lt (by omega)

/-- Every command word is its opid and its argument. -/
theorem decodeCmd_cmdWord (o : BitVec 8) (a : BitVec 16) :
    decodeCmd (cmdWord o a) =
      if o = 0x01#8 then if a = 0 then .ok .reset else .error .reservedArgument
      else if o = 0x02#8 then .ok (.encStart a)
      else if o = 0x03#8 then
        if a.extractLsb' 8 8 = 0 then .ok (.encSym (a.extractLsb' 0 8)) else .error .reservedArgument
      else if o = 0x04#8 then if a = 0 then .ok .encEnd else .error .reservedArgument
      else if o = 0x05#8 then if a = 0 then .ok .decStart else .error .reservedArgument
      else if o = 0x06#8 then if a = 0 then .ok .decPair else .error .reservedArgument
      else .error .unknownCommand := by
  unfold decodeCmd
  simp only [cmdWord_opid, cmdWord_arg]

theorem high_zero_iff (a : BitVec 16) : a.extractLsb' 8 8 = 0 ↔ a.toNat < 256 := by
  have := a.isLt
  rw [← BitVec.toNat_inj, BitVec.extractLsb'_toNat, Nat.shiftRight_eq_div_pow]
  simp
  omega

theorem low_byte (a : BitVec 16) : a.extractLsb' 0 8 = a.setWidth 8 := by
  ext i hi
  simp

theorem decodeCmd_encSym (y : Byte) : decodeCmd (cmdWord 0x03#8 (y.setWidth 16)) = .ok (.encSym y) := by
  have h1 : (y.setWidth 16).extractLsb' 8 8 = 0 := (high_zero_iff _).2 (by have := y.isLt; simp; omega)
  have h2 : (y.setWidth 16).extractLsb' 0 8 = y := by rw [low_byte]; simp
  rw [decodeCmd_cmdWord]
  simp [h1, h2]

theorem cmdWord_toNat (o : BitVec 8) (a : BitVec 16) : (cmdWord o a).toNat = o.toNat + 256 * a.toNat := by
  have h1 := opid_toNat (cmdWord o a)
  have h2 := arg_toNat (cmdWord o a)
  rw [cmdWord_opid] at h1
  rw [cmdWord_arg] at h2
  omega

/-- The six command words that decode, and what each is. -/
theorem decodeCmd_forms {w : BitVec 24} {i : Instr} (h : decodeCmd w = .ok i) :
    (w = cmdWord 0x01#8 0 ∧ i = .reset) ∨ (∃ p, w = cmdWord 0x02#8 p ∧ i = .encStart p) ∨
      (∃ y : Byte, w = cmdWord 0x03#8 (y.setWidth 16) ∧ i = .encSym y) ∨ (w = cmdWord 0x04#8 0 ∧ i = .encEnd) ∨
      (w = cmdWord 0x05#8 0 ∧ i = .decStart) ∨ (w = cmdWord 0x06#8 0 ∧ i = .decPair) := by
  have hw := cmdWord_eta w
  rw [← hw] at h ⊢
  generalize w.extractLsb' 0 8 = o at *
  generalize w.extractLsb' 8 16 = a at *
  rw [decodeCmd_cmdWord] at h
  by_cases h1 : o = 0x01#8
  · subst h1
    by_cases ha : a = 0#16
    · subst ha; exact .inl ⟨rfl, (Except.ok.inj h).symm⟩
    · simp [ha] at h
  by_cases h2 : o = 0x02#8
  · subst h2; exact .inr (.inl ⟨a, rfl, (Except.ok.inj h).symm⟩)
  by_cases h3 : o = 0x03#8
  · subst h3
    by_cases ha : a.extractLsb' 8 8 = 0#8
    · refine .inr (.inr (.inl ⟨a.extractLsb' 0 8, ?_, ?_⟩))
      · congr 1
        apply BitVec.eq_of_toNat_eq
        have := (high_zero_iff a).1 ha
        rw [low_byte]
        simp
        omega
      · simp [ha] at h; exact h.symm
    · simp [ha] at h
  by_cases h4 : o = 0x04#8
  · subst h4
    by_cases ha : a = 0#16
    · subst ha; exact .inr (.inr (.inr (.inl ⟨rfl, (Except.ok.inj h).symm⟩)))
    · simp [ha] at h
  by_cases h5 : o = 0x05#8
  · subst h5
    by_cases ha : a = 0#16
    · subst ha; exact .inr (.inr (.inr (.inr (.inl ⟨rfl, (Except.ok.inj h).symm⟩))))
    · simp [ha] at h
  by_cases h6 : o = 0x06#8
  · subst h6
    by_cases ha : a = 0#16
    · subst ha; exact .inr (.inr (.inr (.inr (.inr ⟨rfl, (Except.ok.inj h).symm⟩))))
    · simp [ha] at h
  simp [h1, h2, h3, h4, h5, h6] at h

theorem word_opid (o : BitVec 8) (a : BitVec 16) : (cmdWord o a).toNat % 256 = o.toNat := by
  rw [cmdWord_toNat]; have := o.isLt; omega

theorem word_arg (o : BitVec 8) (a : BitVec 16) : (cmdWord o a).toNat / 256 = a.toNat := by
  rw [cmdWord_toNat]; have := o.isLt; omega

theorem sym_lt (y : Byte) : (y.setWidth 16).toNat < 256 := by have := y.isLt; simp; omega

/-- The run state a decoded command is legal in; RESET is legal in every one (43_codec.md R153). -/
def legalIn (r : RunState) : Instr → Prop
  | .reset => True
  | .encStart _ => r = .idle
  | .encSym _ => r = .enc
  | .encEnd => r = .enc
  | .decStart => r = .idle
  | .decPair => r = .dec
  | _ => False

/-- A word is legal in a state exactly if it decodes to a command that is. -/
theorem commandLegal_iff (r : RunState) (w : BitVec 24) :
    commandLegal r w = true ↔ ∃ i, decodeCmd w = .ok i ∧ legalIn r i := by
  unfold commandLegal
  constructor
  · intro h
    have hw := cmdWord_eta w
    have ho := opid_toNat w
    have ha := arg_toNat w
    rw [← ho, ← ha] at h
    rw [← hw, decodeCmd_cmdWord]
    clear hw ho ha
    generalize w.extractLsb' 0 8 = o at *
    generalize w.extractLsb' 8 16 = a at *
    have h0 : a.toNat = 0 → a = 0 := fun e => BitVec.eq_of_toNat_eq e
    have key : ∀ k : BitVec 8, o.toNat = k.toNat → o = k := fun k e => BitVec.eq_of_toNat_eq e
    unfold opLegal at h
    split at h
    · next e => rw [key 1#8 e, h0 (of_decide_eq_true h)]; exact ⟨_, rfl, trivial⟩
    · next e => rw [key 2#8 e]; have hr := of_decide_eq_true h; exact ⟨_, rfl, hr⟩
    · next e =>
      rw [Bool.and_eq_true] at h
      rw [key 3#8 e]
      have hr := of_decide_eq_true h.2
      refine ⟨.encSym (a.extractLsb' 0 8), ?_, hr⟩
      simp only [(high_zero_iff a).2 (of_decide_eq_true h.1)]
      rfl
    · next e => rw [Bool.and_eq_true] at h; rw [key 4#8 e, h0 (of_decide_eq_true h.1)]; have hr := of_decide_eq_true h.2; exact ⟨_, rfl, hr⟩
    · next e => rw [Bool.and_eq_true] at h; rw [key 5#8 e, h0 (of_decide_eq_true h.1)]; have hr := of_decide_eq_true h.2; exact ⟨_, rfl, hr⟩
    · next e => rw [Bool.and_eq_true] at h; rw [key 6#8 e, h0 (of_decide_eq_true h.1)]; have hr := of_decide_eq_true h.2; exact ⟨_, rfl, hr⟩
    · simp at h
  · rintro ⟨i, hi, hl⟩
    have b : ∀ {p q : Prop} [Decidable p] [Decidable q], p → q → (decide p && decide q) = true := by
      intro p q _ _ hp hq; simp [hp, hq]
    rcases decodeCmd_forms hi with ⟨e, ei⟩ | ⟨p, e, ei⟩ | ⟨y, e, ei⟩ | ⟨e, ei⟩ | ⟨e, ei⟩ | ⟨e, ei⟩ <;> clear hi <;> subst ei <;>
      rw [e, word_opid, word_arg]
    · rfl
    · exact decide_eq_true (show r = .idle from hl)
    · exact b (sym_lt y) (show r = .enc from hl)
    · exact b (p := (0#16).toNat = 0) rfl (show r = .enc from hl)
    · exact b (p := (0#16).toNat = 0) rfl (show r = .idle from hl)
    · exact b (p := (0#16).toNat = 0) rfl (show r = .dec from hl)

/-! ### Headers and pairs -/

theorem natOfBits_append (l m : List Bool) : natOfBits (l ++ m) = natOfBits l + 2 ^ l.length * natOfBits m := by
  induction l with
  | nil => simp [natOfBits]
  | cons b l ih => simp only [List.cons_append, natOfBits, ih, List.length_cons, Nat.pow_succ]; ring

theorem natOfBits_bytesBits_cons (b : Byte) (bs : ByteSeq) :
    natOfBits (bytesBits (b :: bs)) = b.toNat + 256 * natOfBits (bytesBits bs) := by
  rw [bytesBits_cons, natOfBits_append, natOfBits_bitsOf, Nat.mod_eq_of_lt b.isLt]
  simp

/-- Bit i of the magic is bit i mod 8 of header byte i div 8 (20_memory.md R51). -/
theorem headerMagic_bits (h : ByteSeq) {i : Nat} (hi : i < 32) :
    (headerMagic h).getLsbD i = (h.getD (i / 8) 0#8).getLsbD (i % 8) := by
  have e : headerMagic h =
      BitVec.ofNat 32 (natOfBits (bytesBits [h.getD 0 0#8, h.getD 1 0#8, h.getD 2 0#8, h.getD 3 0#8])) := by
    simp only [natOfBits_bytesBits_cons, bytesBits_nil, natOfBits]
    unfold headerMagic
    congr 1
    have z : (0 : Byte) = 0#8 := rfl
    rw [z]
    ring
  rw [e, BitVec.getLsbD_ofNat, natOfBits_testBit, bytesBits_getD]
  simp only [hi, decide_true, Bool.true_and]
  have h4 : i / 8 = 0 ∨ i / 8 = 1 ∨ i / 8 = 2 ∨ i / 8 = 3 := by omega
  rcases h4 with h4 | h4 | h4 | h4 <;> rw [h4] <;> rfl

/-- Bit i of the protection is bit i mod 8 of header byte 4 + i div 8. -/
theorem headerProt_bits (h : ByteSeq) {i : Nat} (hi : i < 16) :
    (headerProt h).getLsbD i = (h.getD (4 + i / 8) 0#8).getLsbD (i % 8) := by
  have e : headerProt h = BitVec.ofNat 16 (natOfBits (bytesBits [h.getD 4 0#8, h.getD 5 0#8])) := by
    simp only [natOfBits_bytesBits_cons, bytesBits_nil, natOfBits]
    unfold headerProt
    congr 1
    have z : (0 : Byte) = 0#8 := rfl
    rw [z]
    ring
  rw [e, BitVec.getLsbD_ofNat, natOfBits_testBit, bytesBits_getD]
  simp only [hi, decide_true, Bool.true_and]
  have h4 : i / 8 = 0 ∨ i / 8 = 1 := by omega
  rcases h4 with h4 | h4 <;> rw [h4] <;> rfl

/-- A header is read back as it was written; its pad bytes are ignored (40_bitchannel.md R111, R112). -/
theorem headerMagic_image (m : BitVec 32) (p : BitVec 16) (rest : ByteSeq) : headerMagic (le32 m ++ le16 p ++ rest) = m := by
  have := m.isLt
  unfold headerMagic le32 le16
  apply BitVec.eq_of_toNat_eq
  simp [BitVec.extractLsb'_toNat, Nat.shiftRight_eq_div_pow]
  omega

theorem headerProt_image (m : BitVec 32) (p : BitVec 16) (rest : ByteSeq) : headerProt (le32 m ++ le16 p ++ rest) = p := by
  have := p.isLt
  unfold headerProt le32 le16
  apply BitVec.eq_of_toNat_eq
  simp [BitVec.extractLsb'_toNat, Nat.shiftRight_eq_div_pow]
  omega

theorem headerImage_length (cfg : Config) (m : BitVec 32) (p : BitVec 16) :
    (headerImage cfg m p).length = cfg.headerBytes := by
  simp [headerImage, le32, le16, Config.headerBytes]; omega

/-- The pair's bits, at the counter they were made for, give the pair back, by class (30_encoding.md R82 to R85). -/
theorem decodePair_pairBits {n : Nat} {w : Width} (hw : w.toNat = bitLength n) {c : Code} (hc : c.toNat < 2 ^ w.toNat)
    (y : Byte) : decodePair n (pairBits c y w.toNat) = .ok (classifyPair n w c y) := by
  unfold decodePair
  simp only [pairBits_length, hw]
  have h1 : List.take (bitLength n) (pairBits c y (bitLength n)) = bitsOf c.toNat (bitLength n) := by
    unfold pairBits; rw [List.take_left' (bitsOf_length _ _)]
  have h2 : List.drop (bitLength n) (pairBits c y (bitLength n)) = bitsOf y.toNat 8 := by
    unfold pairBits; rw [List.drop_left' (bitsOf_length _ _)]
  have h3 : BitVec.ofNat 5 (bitLength n) = w := by rw [← hw]; simp
  rw [if_pos trivial, h1, h2, code_of_bits (by rw [← hw]; exact hc), byte_of_bits, h3]

end Sys2Proof
end

