-- ==== Sys2Proof/Laws/Host.lean ====
section
/-! SUPPORT. An engine that only its host drives: each command keeps `HostInv`, and what every operation leaves alone (the
parameters, the host's ports). -/

namespace Sys2Proof.Machine

/-! ### Ports and error entry -/

theorem HostInv.cmdIn {s : State} (h : HostInv s) (xs : List HostInput) : HostInv { s with cmdIn := xs } where
  engine := h.engine.ports s.zin s.zout s.sout s.zinPos xs s.unitIn s.unitOut
  noRequest := h.noRequest
  noResult := h.noResult
  idle := fun hs => by
    have := h.idle hs
    show _ = ({ resetState s with cmdIn := xs } : State)
    rw [← this]
  enc := fun hs => ⟨(h.enc hs).live, (h.enc hs).tableDead, (h.enc hs).names, (h.enc hs).codes, (h.enc hs).matched, (h.enc hs).noOutput⟩
  dec := fun hs => ⟨(h.dec hs).live, (h.dec hs).trieDead, (h.dec hs).slots, (h.dec hs).notStopped, (h.dec hs).position,
    (h.dec hs).noPending⟩
  done := fun hs => ⟨(h.done hs).trieDead, (h.done hs).tableDead, (h.done hs).flushed⟩

theorem HostInv.placeZin {s : State} (h : HostInv s) (hs : s.runState ≠ .dec) (wire : ByteSeq) :
    HostInv { s with zin := wire } where
  engine := h.engine.ports wire s.zout s.sout s.zinPos s.cmdIn s.unitIn s.unitOut
  noRequest := h.noRequest
  noResult := h.noResult
  idle := fun hs => by
    have := h.idle hs
    show _ = ({ resetState s with zin := wire } : State)
    rw [← this]
  enc := fun hs => ⟨(h.enc hs).live, (h.enc hs).tableDead, (h.enc hs).names, (h.enc hs).codes, (h.enc hs).matched, (h.enc hs).noOutput⟩
  dec := fun hd => absurd hd hs
  done := fun hs => ⟨(h.done hs).trieDead, (h.done hs).tableDead, (h.done hs).flushed⟩

theorem raiseError_hostInv {s : State} (h : HostInv s) {cause : BitVec 3} (hc : cause = errFormat ∨ cause = errCmd) :
    HostInv (raiseError cause s) where
  engine := raiseError_engineInv h.engine hc
  noRequest := by rw [raiseError_eq]; exact h.noRequest
  noResult := by rw [raiseError_eq]; exact h.noResult
  idle := by rw [raiseError_runState]; simp
  enc := by rw [raiseError_runState]; simp
  dec := by rw [raiseError_runState]; simp
  done := by rw [raiseError_runState]; simp

/-- The reset state of a legal engine, whatever the host holds on ZIN and CMD. -/
theorem resetState_hostInv {s : State} (hc : s.cfg.Ok) (hu : s.unitIn = none) : HostInv (resetState s) where
  engine := resetState_engineInv hc
  noRequest := hu
  noResult := rfl
  idle := fun _ => rfl
  enc := fun h => by simp [resetState, State.resetOf] at h
  dec := fun h => by simp [resetState, State.resetOf] at h
  done := fun h => by simp [resetState, State.resetOf] at h

/-- In IDLE every element has its reset value (10_state.md R25). -/
theorem HostInv.idle_fields {s : State} (h : HostInv s) (hs : s.runState = .idle) :
    s.zinPos = 0 ∧ s.rpCode = 0 ∧ s.trieLive = false ∧ s.wtLive = false ∧ s.widx = 0 ∧ s.oidx = 0 ∧ s.err = 0 := by
  have := h.idle hs
  refine ⟨?_, ?_, ?_, ?_, ?_, ?_, ?_⟩ <;> rw [this] <;> rfl

/-! ### The encoder's commands -/

theorem encStart_hostInv {s t : State} (h : HostInv s) (hs : s.runState = .idle) {prot : BitVec 16}
    (ht : execEncStart prot s = .next t) : HostInv t := by
  rw [execEncStart_eq hs] at ht
  obtain rfl := Host.Outcome.next.inj ht
  obtain ⟨-, -, -, hw, -, ho, he⟩ := h.idle_fields hs
  refine ⟨?_, h.noRequest, h.noResult, by simp, fun _ => ⟨rfl, hw, NodeNames.empty _, fun c => ?_, .inl rfl, ho⟩, by simp, by simp⟩
  · have e := h.engine
    refine ⟨e.params, ⟨Nat.le_refl 2, ?_⟩, e.cursors, e.wbuf, e.rbuf, e.obuf, TrieInv.empty _, e.table, ?_⟩
    · have := e.params.1; show 2 < s.cfg.maxCode; omega
    · simp [he]
  · simp
    omega

theorem EncInv.slot_free {s : State} (h : EncInv s) (he : EngineInv s) : nodeLive s.child s.nextCode = false := h.fresh he

/-- The range of `child` after an insert of `next_code` (43_codec.md R168). -/
theorem codes_insert {s : State} (h : EncInv s) (he : EngineInv s) {sym : Byte} (hc : childAt s s.cur sym = none)
    (hne : s.nextCode.toNat + 1 ≠ s.cfg.maxCode) (c : Code) :
    (∃ e ∈ slotPut s.child (childSlot s.cur sym) s.nextCode, e.2 = c) ↔
      2 ≤ c.toNat ∧ c.toNat < (BitVec.ofNat 16 (advancedCode s)).toNat := by
  rw [advancedCode_toNat he]
  unfold advancedCode
  rw [if_neg hne]
  have hcnt := he.counter
  constructor
  · rintro ⟨e, hm, rfl⟩
    rcases key_mem_slotPut hm with rfl | hm
    · show 2 ≤ s.nextCode.toNat ∧ s.nextCode.toNat < _; omega
    · have := (h.codes e.2).1 ⟨e, hm, rfl⟩; omega
  · rintro ⟨h1, h2⟩
    by_cases hx : c = s.nextCode
    · exact ⟨(childSlot s.cur sym, s.nextCode), (mem_slotPut he.trie.canonical).2 (.inl rfl), hx.symm⟩
    · have hlt : c.toNat < s.nextCode.toNat := by
        have : c.toNat ≠ s.nextCode.toNat := fun e => hx (BitVec.eq_of_toNat_eq e)
        omega
      obtain ⟨e, hm, rfl⟩ := (h.codes c).2 ⟨h1, hlt⟩
      refine ⟨e, (mem_slotPut he.trie.canonical).2 (.inr ⟨hm, fun hk => ?_⟩), rfl⟩
      have := slotGet_of_mem he.trie.canonical (k := e.1) (v := e.2) hm
      rw [hk] at this
      have hc' : slotGet s.child (childSlot s.cur sym) = none := hc
      rw [hc'] at this
      simp at this

theorem encSym_hostInv {s t : State} (h : HostInv s) (hs : s.runState = .enc) {sym : Byte}
    (ht : execEncSym sym s = .next t) : HostInv t := by
  have hi := h.enc hs
  have he := h.engine
  cases hc : childAt s s.cur sym with
  | some node =>
    rw [execEncSym_extend hs hi.ready hc] at ht
    obtain rfl := Host.Outcome.next.inj ht
    refine ⟨he.registers node s.cur sym s.prot s.rpCode s.rpSym s.hasMore s.totalBits (s.totalSyms + 1), h.noRequest,
      h.noResult, fun hx => ?_, fun _ => ⟨hi.live, hi.tableDead, hi.names, hi.codes, .inr hc, hi.noOutput⟩, fun hx => ?_, fun hx => ?_⟩ <;>
    · have : s.runState = _ := hx; rw [hs] at this; simp at this
  | none =>
    have hf := hi.fresh he
    rw [execEncSym_break hs he hi.ready hf hc] at ht
    have hwx := putBits_widx_lt he.cursors.1 (pairBits s.cur sym (bitLength s.nextCode.toNat))
    have hwb := putBits_wbuf he.cursors.1 he.wbuf (pairBits s.cur sym (bitLength s.nextCode.toNat))
    have hq := putBits_frame (pairBits s.cur sym (bitLength s.nextCode.toNat)) s
    generalize putBits (pairBits s.cur sym (bitLength s.nextCode.toNat)) s = p at hq ht hwx hwb
    rw [hq] at ht
    obtain rfl := Host.Outcome.next.inj ht
    have hadv := advancedCode_range he
    have hn := advancedCode_toNat he
    refine ⟨⟨he.params, ?_, ⟨hwx, he.cursors.2⟩, hwb, he.rbuf, he.obuf, ?_, he.table, he.errors⟩, h.noRequest, h.noResult,
      fun hx => ?_, fun _ => ⟨hi.live, hi.tableDead, ?_, fun c => ?_, .inl rfl, hi.noOutput⟩, fun hx => ?_, fun hx => ?_⟩
    · show 2 ≤ (BitVec.ofNat 16 (advancedCode s)).toNat ∧ (BitVec.ofNat 16 (advancedCode s)).toNat < s.cfg.maxCode
      rw [hn]; exact hadv
    · show TrieInv (if s.nextCode.toNat + 1 = s.cfg.maxCode then [] else _) s.trieLive
      split_ifs
      · exact TrieInv.empty _
      · exact he.trie.insert hi.live (trieReady_iff.1 hi.ready).2 hc _
    · have : s.runState = _ := hx; rw [hs] at this; simp at this
    · show NodeNames s.cfg.maxCode (if s.nextCode.toNat + 1 = s.cfg.maxCode then [] else _)
      split_ifs
      · exact NodeNames.empty _
      · exact hi.names.insert _ hf he.counter
    · show (∃ e ∈ (if s.nextCode.toNat + 1 = s.cfg.maxCode then [] else slotPut s.child (childSlot s.cur sym) s.nextCode),
        e.2 = c) ↔ 2 ≤ c.toNat ∧ c.toNat < (BitVec.ofNat 16 (advancedCode s)).toNat
      split_ifs with hx
      · rw [hn, advancedCode, if_pos hx]
        simp
        omega
      · exact codes_insert hi he hc hx c
    · have : s.runState = _ := hx; rw [hs] at this; simp at this
    · have : s.runState = _ := hx; rw [hs] at this; simp at this

theorem flushedBuffer_inv {s : State} (he : EngineInv s) (bs : List Bool) : BufferInv s.cfg.block (flushedBuffer bs s) := by
  have h1 := putBits_wbuf he.cursors.1 he.wbuf bs
  have h2 := putBits_widx_lt he.cursors.1 bs
  unfold flushedBuffer
  exact ⟨clearBits_wf _ _ h1.1, clearBits_below h1.2 (by show (putBits bs s).widx + _ ≤ _; omega)⟩

theorem encEnd_hostInv {s t : State} (h : HostInv s) (hs : s.runState = .enc) (ht : execEncEnd s = .next t) : HostInv t := by
  have hi := h.enc hs
  have he := h.engine
  have hadv := advancedCode_range he
  have hn := advancedCode_toNat he
  have herr : s.err = 0 := by
    by_contra hne
    have := he.errors.1.1 hne; rw [hs] at this; simp at this
  have hpos : 0 < 8 * s.cfg.block := by have := he.block_pos; omega
  by_cases hc : s.cur = emptyCode
  · rw [execEncEnd_root hs he hi.live hc] at ht
    obtain rfl := Host.Outcome.next.inj ht
    exact ⟨⟨he.params, he.counter, ⟨hpos, he.cursors.2⟩, flushedBuffer_inv he _, he.rbuf, he.obuf, TrieInv.empty _,
      he.table, ⟨by simp [herr], he.errors.2⟩⟩, h.noRequest, h.noResult, by simp, by simp, by simp,
      fun _ => ⟨rfl, hi.tableDead, rfl, hi.noOutput⟩⟩
  · rw [execEncEnd_match hs he hi.live hc] at ht
    obtain rfl := Host.Outcome.next.inj ht
    refine ⟨⟨he.params, ?_, ⟨hpos, he.cursors.2⟩, flushedBuffer_inv he _, he.rbuf, he.obuf, TrieInv.empty _,
      he.table, ⟨by simp [herr], he.errors.2⟩⟩, h.noRequest, h.noResult, by simp, by simp, by simp,
      fun _ => ⟨rfl, hi.tableDead, rfl, hi.noOutput⟩⟩
    show 2 ≤ (BitVec.ofNat 16 (advancedCode s)).toNat ∧ (BitVec.ofNat 16 (advancedCode s)).toNat < s.cfg.maxCode
    rw [hn]; exact hadv

/-! ### The decoder's commands -/

theorem decStart_hostInv {s t : State} (h : HostInv s) (hs : s.runState = .idle) (ht : execDecStart s = .next t) :
    HostInv t := by
  obtain ⟨hp, hrp, htl, hwl, hwx, ho, her⟩ := h.idle_fields hs
  have e := h.engine
  by_cases hm : headerMagic (pull s.cfg.headerBytes s).1 = s.cfg.magic
  · rw [execDecStart_accept hs hm] at ht
    obtain rfl := Host.Outcome.next.inj ht
    refine ⟨⟨e.params, ⟨Nat.le_refl 2, ?_⟩, e.cursors, e.wbuf, e.rbuf, e.obuf, e.trie, TableInv.created _, ?_⟩, h.noRequest,
      h.noResult, by simp, by simp, fun _ => ⟨rfl, htl, fun c => ?_, ?_, ?_, hwx⟩, by simp⟩
    · have := e.params.1; show 2 < s.cfg.maxCode; omega
    · simp [her]
    · show (slotGet emptyTable c.toNat).isSome = true ↔ c = emptyCode ∨ (2 ≤ c.toNat ∧ c.toNat < 2)
      rw [wordAt_emptyTable]
      by_cases hc : c = emptyCode
      · simp [hc]
      · simp [hc]; omega
    · show s.rpCode ≠ stopCode; rw [hrp]; decide
    · show (s.zinPos + BitVec.ofNat 64 _).toNat ≤ s.zin.length
      rw [hp, BitVec.toNat_add, BitVec.toNat_ofNat]
      refine Nat.le_trans (Nat.mod_le _ _) ?_
      have := Nat.mod_le (min s.cfg.headerBytes (s.zin.length - (0 : BitVec 64).toNat)) (2 ^ 64)
      simp at this ⊢
      omega
  · rw [execDecStart_reject hs hm] at ht
    obtain rfl := Host.Outcome.next.inj ht
    refine ⟨⟨e.params, e.counter, e.cursors, e.wbuf, e.rbuf, e.obuf, e.trie, e.table, ?_⟩, h.noRequest, h.noResult, by simp,
      by simp, by simp, by simp⟩
    simp [errFormat]

/-- "its slot is empty in every reachable state" (42_wordtable.md R143). -/
theorem DecInv.fresh {s : State} (h : DecInv s) (he : EngineInv s) : wordAt s s.nextCode = none := by
  by_contra hn
  rcases (h.slots s.nextCode).1 (Option.isSome_iff_ne_none.2 hn) with hc | hc
  · have := he.counter.1; rw [hc] at this; simp at this
  · omega

theorem slots_assign {s : State} (h : DecInv s) (he : EngineInv s) (w : ByteSeq) (c : Code) :
    (slotGet (if s.nextCode.toNat + 1 = s.cfg.maxCode then emptyTable else slotPut s.wt s.nextCode.toNat w) c.toNat).isSome
      = true ↔ c = emptyCode ∨ (2 ≤ c.toNat ∧ c.toNat < (BitVec.ofNat 16 (advancedCode s)).toNat) := by
  rw [advancedCode_toNat he]
  unfold advancedCode
  have hcnt := he.counter
  split_ifs with hx
  · rw [wordAt_emptyTable]
    by_cases hc : c = emptyCode
    · simp [hc]
    · simp [hc]; omega
  · rw [wordAt_put]
    by_cases hc : c = s.nextCode
    · rw [if_pos hc]; simp only [Option.isSome_some, true_iff]; right; rw [hc]; omega
    · rw [if_neg hc, h.slots]
      have : c.toNat ≠ s.nextCode.toNat := fun e => hc (BitVec.eq_of_toNat_eq e)
      refine or_congr_right (and_congr_right fun _ => ?_)
      omega

theorem decPair_hostInv {s t : State} (h : HostInv s) (hs : s.runState = .dec) (ht : execDecPair s = .next t) :
    HostInv t := by
  have hi := h.dec hs
  have he := h.engine
  have herr : s.err = 0 := by
    by_contra hne
    have := he.errors.1.1 hne; rw [hs] at this; simp at this
  have hadv := advancedCode_range he
  have hn := advancedCode_toNat he
  unfold execDecPair at ht
  rw [inState_of_eq _ hs] at ht
  obtain ⟨u, hu, ht⟩ := andThen_eq_next.1 ht
  have hue := readPair_engineInv he hu
  obtain ⟨hw, -, -, -, hu⟩ := readPair_eq_next hu
  have hpos := getBits_pos_le hi.position ((codeWidth s).toNat + 8)
  obtain ⟨r, i, z, hq⟩ := getBits_only ((codeWidth s).toNat + 8) s
  unfold afterBits at hu
  rw [hq] at hu hpos
  generalize BitVec.ofNat 16 (natOfBits (getBits (codeWidth s).toNat s).1) = c at hu
  generalize BitVec.ofNat 8 (natOfBits (getBits 8 (getBits (codeWidth s).toNat s).2).1) = y at hu
  subst hu
  have hc' : c = stopCode ∨ c ≠ stopCode := em _
  rcases hc' with hc | hc
  · have hm : hasMoreOf c = false := by rw [hc]; rfl
    have e : endOfStream (latchPair (codeWidth s) c y { s with rbuf := r, ridx := i, zinPos := z }) = .next t := by
      simpa only [latchPair, hm, Bool.false_eq_true, if_false] using ht
    rw [endOfStream_eq hue.cursors.2.2 hi.live] at e
    obtain rfl := Host.Outcome.next.inj e
    exact ⟨⟨hue.params, hue.counter, ⟨hue.cursors.1, hue.cursors.2.1, hue.block_pos⟩, hue.wbuf, hue.rbuf, hue.obuf,
      hue.trie, TableInv.none _, ⟨by simp [latchPair, herr], hue.errors.2⟩⟩, h.noRequest, h.noResult, by simp, by simp,
      by simp, fun _ => ⟨hi.trieDead, rfl, hi.noPending, rfl⟩⟩
  · have hm : hasMoreOf c = true := by simp [hasMoreOf, hc]
    have e : appendPair c y (latchPair (codeWidth s) c y { s with rbuf := r, ridx := i, zinPos := z }) = .next t := by
      simpa only [latchPair, hm, if_true] using ht
    cases hwd : wordAt s c with
    | none =>
      rw [appendPair_absent (u := latchPair (codeWidth s) c y { s with rbuf := r, ridx := i, zinPos := z }) hi.live y hwd] at e
      simp at e
    | some w =>
      rw [appendPair_eq (u := latchPair (codeWidth s) c y { s with rbuf := r, ridx := i, zinPos := z }) hi.live y hwd
        (hi.fresh he) he.next_assignable hue.cursors.2.2] at e
      have hob := putBytesOut_obuf hue.cursors.2.2 hue.obuf (w ++ [y])
      have hox := putBytesOut_oidx hue.cursors.2.2 (w ++ [y])
      generalize putBytesOut (w ++ [y]) (latchPair (codeWidth s) c y { s with rbuf := r, ridx := i, zinPos := z }) = p at *
      obtain rfl := Host.Outcome.next.inj e
      refine ⟨⟨hue.params, ?_, ⟨hue.cursors.1, hue.cursors.2.1, ?_⟩, hue.wbuf, hue.rbuf, hob, hue.trie, ?_, hue.errors⟩,
        h.noRequest, h.noResult, fun hx => ?_, fun hx => ?_, fun _ => ⟨hi.live, hi.trieDead, slots_assign hi he _, hc, hpos,
        hi.noPending⟩, fun hx => ?_⟩
      · show 2 ≤ (BitVec.ofNat 16 (advancedCode s)).toNat ∧ (BitVec.ofNat 16 (advancedCode s)).toNat < s.cfg.maxCode
        rw [hn]; exact hadv
      · show p.oidx < s.cfg.block
        rw [hox]; exact Nat.mod_lt _ he.block_pos
      · show TableInv s.cfg.maxCode (if s.nextCode.toNat + 1 = s.cfg.maxCode then emptyTable else _) s.wtLive
        split_ifs
        · rw [hi.live]; exact TableInv.created _
        · exact he.table.assign hi.live he.counter _
      all_goals have : s.runState = _ := hx; rw [hs] at this; simp at this

/-! ### What no operation touches -/

/-- The parameters and what the host holds on ZIN, CMD and the unit interface are the same. -/
structure SameHost (s t : State) : Prop where
  cfg : t.cfg = s.cfg
  zin : t.zin = s.zin
  cmdIn : t.cmdIn = s.cmdIn
  unitIn : t.unitIn = s.unitIn

theorem SameHost.rfl {s : State} : SameHost s s := ⟨Eq.refl _, Eq.refl _, Eq.refl _, Eq.refl _⟩

theorem SameHost.trans {s t u : State} (h : SameHost s t) (h' : SameHost t u) : SameHost s u :=
  ⟨h'.cfg.trans h.cfg, h'.zin.trans h.zin, h'.cmdIn.trans h.cmdIn, h'.unitIn.trans h.unitIn⟩

theorem raiseError_same (cause : BitVec 3) (s : State) : SameHost s (raiseError cause s) := by
  rw [raiseError_eq]; exact ⟨rfl, rfl, rfl, rfl⟩

theorem inState_same {r : RunState} {s t : State} {body : Res State} (hb : body = .next t → SameHost s t)
    (ht : inState r s body = .next t) : SameHost s t := by
  unfold inState at ht
  split_ifs at ht
  · exact hb ht
  · obtain rfl := Host.Outcome.next.inj ht; exact raiseError_same _ _

theorem pull_same (n : Nat) (s : State) : SameHost s (pull n s).2 := by rw [pull_state]; exact ⟨rfl, rfl, rfl, rfl⟩

theorem writePair_same {s t : State} {c : Code} {y : Byte} {w : Width} (ht : writePair c y w s = .next t) : SameHost s t := by
  obtain ⟨-, -, rfl⟩ := writePair_eq_next ht
  rw [putBits_frame]; exact ⟨rfl, rfl, rfl, rfl⟩

theorem afterBits_same (n : Nat) (s : State) : SameHost s (afterBits n s) := by
  unfold afterBits; rw [getBits_frame]; exact ⟨rfl, rfl, rfl, rfl⟩

theorem readPair_same {s t : State} {w : Width} (ht : readPair w s = .next t) : SameHost s t := by
  obtain ⟨-, -, -, -, rfl⟩ := readPair_eq_next ht
  exact (afterBits_same _ _).trans ⟨rfl, rfl, rfl, rfl⟩

theorem flush_same {s t : State} (ht : flush s = .next t) : SameHost s t := by
  obtain ⟨-, rfl⟩ := flush_eq_next ht; exact ⟨rfl, rfl, rfl, rfl⟩

theorem writeWord_same {s t : State} {xs : ByteSeq} (ht : writeWord xs s = .next t) : SameHost s t := by
  obtain ⟨-, rfl⟩ := writeWord_eq_next ht; rw [putBytesOut_frame]; exact ⟨rfl, rfl, rfl, rfl⟩

theorem flushWords_same {s t : State} (ht : flushWords s = .next t) : SameHost s t := by
  obtain ⟨-, rfl⟩ := flushWords_eq_next ht; exact ⟨rfl, rfl, rfl, rfl⟩

theorem trieInsert_same {s t : State} {n c : Code} {b : Byte} (ht : trieInsert n b c s = .next t) : SameHost s t := by
  obtain ⟨-, -, -, -, rfl⟩ := trieInsert_eq_next ht; exact ⟨rfl, rfl, rfl, rfl⟩

theorem trieReset_same {s t : State} (ht : trieReset s = .next t) : SameHost s t := by
  obtain ⟨-, rfl⟩ := trieReset_eq_next ht; exact ⟨rfl, rfl, rfl, rfl⟩

theorem trieDelete_same {s t : State} {n : Code} (ht : trieDelete n s = .next t) : SameHost s t := by
  obtain ⟨-, ⟨-, rfl⟩ | ⟨-, rfl⟩⟩ := trieDelete_eq_next ht <;> exact ⟨rfl, rfl, rfl, rfl⟩

theorem wtAssign_same {s t : State} {c p : Code} {b : Byte} (ht : wtAssign c p b s = .next t) : SameHost s t := by
  obtain ⟨-, -, -, w, -, rfl⟩ := wtAssign_eq_next ht; exact ⟨rfl, rfl, rfl, rfl⟩

theorem wtReset_same {s t : State} (ht : wtReset s = .next t) : SameHost s t := by
  obtain ⟨-, rfl⟩ := wtReset_eq_next ht; exact ⟨rfl, rfl, rfl, rfl⟩

theorem wtDelete_same {s t : State} (ht : wtDelete s = .next t) : SameHost s t := by
  obtain ⟨-, rfl⟩ := wtDelete_eq_next ht; exact ⟨rfl, rfl, rfl, rfl⟩

theorem advanceCode_same {op : State → Res State} (hop : ∀ {u v : State}, op u = .next v → SameHost u v) {s t : State}
    (ht : advanceCode op s = .next t) : SameHost s t := by
  rcases advanceCode_eq_next.1 ht with ⟨-, u, hu, rfl⟩ | ⟨-, rfl⟩
  · exact (hop hu).trans ⟨rfl, rfl, rfl, rfl⟩
  · exact ⟨rfl, rfl, rfl, rfl⟩

theorem appendPair_same {s t : State} {c : Code} {y : Byte} (ht : appendPair c y s = .next t) : SameHost s t := by
  obtain ⟨w, -, ht⟩ := andThen_eq_next.1 ht
  obtain ⟨s1, h1, ht⟩ := andThen_eq_next.1 ht
  obtain ⟨s2, h2, ht⟩ := andThen_eq_next.1 ht
  exact (wtAssign_same h1).trans ((writeWord_same h2).trans (advanceCode_same wtReset_same ht))

theorem endOfStream_same {s t : State} (ht : endOfStream s = .next t) : SameHost s t := by
  obtain ⟨s1, h1, ht⟩ := andThen_eq_next.1 ht
  obtain ⟨s2, h2, ht⟩ := andThen_eq_next.1 ht
  obtain rfl := Host.Outcome.next.inj ht
  exact (flushWords_same h1).trans ((wtDelete_same h2).trans ⟨rfl, rfl, rfl, rfl⟩)

theorem acceptHeader_same (m : BitVec 32) (p : BitVec 16) (s : State) : SameHost s (acceptHeader m p s) := by
  unfold acceptHeader
  split_ifs
  · exact ⟨rfl, rfl, rfl, rfl⟩
  · exact raiseError_same _ _

theorem encSym_same {s t : State} {sym : Byte} (ht : execEncSym sym s = .next t) : SameHost s t := by
  refine inState_same (fun ht => ?_) ht
  obtain ⟨r, -, ht⟩ := andThen_eq_next.1 ht
  cases r with
  | some n => obtain rfl := Host.Outcome.next.inj ht; exact ⟨rfl, rfl, rfl, rfl⟩
  | none =>
    obtain ⟨s1, h1, ht⟩ := andThen_eq_next.1 ht
    obtain ⟨s2, h2, ht⟩ := andThen_eq_next.1 ht
    have e0 : SameHost s { s with totalSyms := s.totalSyms + 1 } := ⟨rfl, rfl, rfl, rfl⟩
    have e2 : SameHost s2 { s2 with cur := emptyCode } := ⟨rfl, rfl, rfl, rfl⟩
    exact e0.trans ((writePair_same h1).trans ((trieInsert_same h2).trans (e2.trans (advanceCode_same trieReset_same ht))))

theorem encEnd_same {s t : State} (ht : execEncEnd s = .next t) : SameHost s t := by
  refine inState_same (fun ht => ?_) ht
  obtain ⟨s1, h1, ht⟩ := andThen_eq_next.1 ht
  obtain ⟨s2, h2, ht⟩ := andThen_eq_next.1 ht
  obtain ⟨s3, h3, ht⟩ := andThen_eq_next.1 ht
  obtain ⟨s4, h4, ht⟩ := andThen_eq_next.1 ht
  obtain rfl := Host.Outcome.next.inj ht
  have e1 : SameHost s s1 := by
    unfold writeFinalPair at h1
    split_ifs at h1
    · obtain rfl := Host.Outcome.next.inj h1; exact .rfl
    · obtain ⟨u, hu, h1⟩ := andThen_eq_next.1 h1
      exact (writePair_same hu).trans (advanceCode_same trieReset_same h1)
  exact e1.trans ((writePair_same h2).trans ((flush_same h3).trans ((trieDelete_same h4).trans ⟨rfl, rfl, rfl, rfl⟩)))

theorem decPair_same {s t : State} (ht : execDecPair s = .next t) : SameHost s t := by
  refine inState_same (fun ht => ?_) ht
  obtain ⟨u, hu, ht⟩ := andThen_eq_next.1 ht
  refine (readPair_same hu).trans ?_
  split_ifs at ht
  · exact appendPair_same ht
  · exact endOfStream_same ht

/-- No operation writes the parameters or the host's side of the ports (10_state.md R32, 20_memory.md R73). -/
theorem exec_same {i : Instr} {s t : State} (ht : exec i s = .next t) : SameHost s t := by
  have latch : ∀ (w : Width) (c : Code) (y : Byte), SameHost s (latchPair w c y s) := fun _ _ _ => ⟨rfl, rfl, rfl, rfl⟩
  cases i with
  | reset => obtain rfl := Host.Outcome.next.inj ht; exact ⟨rfl, rfl, rfl, rfl⟩
  | encStart p =>
    exact inState_same (fun h => by obtain rfl := Host.Outcome.next.inj h; exact ⟨rfl, rfl, rfl, rfl⟩) ht
  | encSym y => exact encSym_same ht
  | encEnd => exact encEnd_same ht
  | decStart =>
    exact inState_same (fun h => by
      obtain rfl := Host.Outcome.next.inj h
      exact (pull_same _ _).trans (acceptHeader_same _ _ _)) ht
  | decPair => exact decPair_same ht
  | writeHeader m p => obtain rfl := Host.Outcome.next.inj ht; exact ⟨rfl, rfl, rfl, rfl⟩
  | readHeader =>
    obtain rfl := Host.Outcome.next.inj ht
    exact (pull_same s.cfg.headerBytes s).trans ⟨rfl, rfl, rfl, rfl⟩
  | writePair c y w => exact writePair_same ht
  | readPair w =>
    obtain ⟨u, hu, h⟩ := andThen_eq_next.1 ht
    obtain rfl := Host.Outcome.next.inj h
    exact (readPair_same hu).trans ⟨rfl, rfl, rfl, rfl⟩
  | flush => exact flush_same ht
  | writeWord w => exact writeWord_same ht
  | flushWords => exact flushWords_same ht
  | trieCreate => obtain rfl := Host.Outcome.next.inj ht; exact ⟨rfl, rfl, rfl, rfl⟩
  | trieStep n b =>
    obtain ⟨u, -, h⟩ := andThen_eq_next.1 ht
    obtain rfl := Host.Outcome.next.inj h
    exact ⟨rfl, rfl, rfl, rfl⟩
  | trieInsert n b c => exact trieInsert_same ht
  | trieReset => exact trieReset_same ht
  | trieDelete n => exact trieDelete_same ht
  | wtCreate => obtain rfl := Host.Outcome.next.inj ht; exact ⟨rfl, rfl, rfl, rfl⟩
  | wtLookup c =>
    obtain ⟨u, -, h⟩ := andThen_eq_next.1 ht
    obtain rfl := Host.Outcome.next.inj h
    exact ⟨rfl, rfl, rfl, rfl⟩
  | wtAssign c p b => exact wtAssign_same ht
  | wtReset => exact wtReset_same ht
  | wtDelete => exact wtDelete_same ht
  | header m p => exact inState_same (fun h => by obtain rfl := Host.Outcome.next.inj h; exact acceptHeader_same _ _ _) ht
  | pairStop w y => exact inState_same (fun h => (latch _ _ _).trans (endOfStream_same h)) ht
  | pairLit w y => exact inState_same (fun h => (latch _ _ _).trans (appendPair_same h)) ht
  | pairRef w c y => exact inState_same (fun h => (latch _ _ _).trans (appendPair_same h)) ht
  | pairUndef w c y => simp [exec, execPairUndef] at ht

/-! ### Serving host inputs -/

theorem step_cmd {s : State} {w : BitVec 24} {rest : List HostInput} {i : Instr} (hu : s.unitIn = none)
    (hx : s.cmdIn = .cmd w :: rest) (hd : decodeCmd w = .ok i) : step s = exec i { s with cmdIn := rest } := by
  unfold step fetch
  simp only [hu, hx, fetchInput, fetchCmd, hd]

theorem run_step (M : Host.Core) (k : Nat) {s t : M.State} (h : M.step s = .next t) : M.run (k + 1) s = M.run k t := by
  rw [Host.Core.run, h]

theorem run_fault (M : Host.Core) (k : Nat) {s : M.State} {r : M.Fault} (h : M.step s = .fault r) :
    M.run (k + 1) s = .fault r := by
  rw [Host.Core.run, h]

theorem run_refused (M : Host.Core) (k : Nat) {s : M.State} {r : M.Refusal} (h : M.step s = .refused r) :
    M.run (k + 1) s = .refused r := by
  rw [Host.Core.run, h]

theorem run_succ (k : Nat) (s : State) :
    Host.Core.run Sys2Proof.core (k + 1) s = andThen (step s) (Host.Core.run Sys2Proof.core k) := by
  cases h : step s with
  | next t => exact run_step Sys2Proof.core k h
  | fault r => exact run_fault Sys2Proof.core k h
  | refused r => exact run_refused Sys2Proof.core k h

theorem serve_nil (s : State) : serve [] s = .next (s.withInputs []) := rfl

/-- Serving a command word is executing it, then serving the rest. -/
theorem serve_cmd {w : BitVec 24} {i : Instr} (hd : decodeCmd w = .ok i) (xs : List HostInput) (s : State) :
    serve (.cmd w :: xs) s = andThen (exec i (s.withInputs xs)) (serve xs) := by
  show Host.Core.run Sys2Proof.core (xs.length + 1) (s.withInputs (.cmd w :: xs)) = _
  rw [run_succ]
  have h : step (s.withInputs (.cmd w :: xs)) = exec i (s.withInputs xs) := step_cmd (rest := xs) rfl rfl hd
  rw [h]
  cases he : exec i (s.withInputs xs) with
  | next t =>
    have hs := exec_same he
    have : t = t.withInputs xs := by
      have h1 : t.cmdIn = xs := hs.cmdIn
      have h2 : t.unitIn = none := hs.unitIn
      unfold State.withInputs
      rw [← h1, ← h2]
    show Host.Core.run Sys2Proof.core xs.length t = serve xs t
    unfold serve
    rw [← this]
  | fault r => rfl
  | refused r => rfl

theorem serve_putZin {wire : ByteSeq} (xs : List HostInput) (s : State) :
    serve (.putZin wire :: xs) s = andThen (placeZin wire (s.withInputs xs)) (serve xs) := by
  show Host.Core.run Sys2Proof.core (xs.length + 1) (s.withInputs (.putZin wire :: xs)) = _
  rw [run_succ]
  have h : step (s.withInputs (.putZin wire :: xs)) = placeZin wire (s.withInputs xs) := rfl
  rw [h]
  unfold placeZin
  split_ifs <;> rfl

/-! ### Everything a step can do -/

/-- Where a next state comes from: nothing to serve, an operation, an illegal word, the hardware reset, a wire on ZIN. -/
theorem step_cases {s t : State} (ht : step s = .next t) :
    t = s ∨
    (∃ i xs r, exec i { s with cmdIn := xs, unitIn := r } = .next t) ∨
    (∃ xs, t = raiseError errCmd { s with cmdIn := xs }) ∨
    (∃ xs, t = resetState { s with cmdIn := xs }) ∨
    ∃ wire rest, s.cmdIn = .putZin wire :: rest ∧ s.runState ≠ .dec ∧ t = { s with zin := wire, cmdIn := rest } := by
  unfold step fetch at ht
  cases hu : s.unitIn with
  | some r =>
    simp only [hu, fetchUnit] at ht
    cases hd : decodeUnit r with
    | ok i => simp only [hd] at ht; exact .inr (.inl ⟨i, s.cmdIn, none, ht⟩)
    | error e => simp [hd] at ht
  | none =>
    have e : ∀ rest, ({ s with cmdIn := rest, unitIn := none } : State) = { s with cmdIn := rest } := fun rest => by rw [← hu]
    simp only [hu] at ht
    cases hc : s.cmdIn with
    | nil => simp only [hc] at ht; exact .inl (Host.Outcome.next.inj ht).symm
    | cons x rest =>
      simp only [hc] at ht
      cases x with
      | hardReset =>
        simp only [fetchInput] at ht
        refine .inr (.inr (.inr (.inl ⟨rest, ?_⟩)))
        exact (Host.Outcome.next.inj ht).symm
      | putZin wire =>
        simp only [fetchInput, placeZin] at ht
        split_ifs at ht with h
        refine .inr (.inr (.inr (.inr ⟨wire, rest, rfl, h, ?_⟩)))
        obtain rfl := Host.Outcome.next.inj ht
        rw [← hu]
      | cmd w =>
        simp only [fetchInput, fetchCmd] at ht
        cases hd : decodeCmd w with
        | ok i => simp only [hd] at ht; exact .inr (.inl ⟨i, rest, none, ht⟩)
        | error e' =>
          simp only [hd] at ht
          refine .inr (.inr (.inl ⟨rest, ?_⟩))
          exact (Host.Outcome.next.inj ht).symm

end Sys2Proof.Machine
end

