-- ==== Sys2Proof/Laws/PerInstr.lean ====
section
/-! SUPPORT. Statements made per instruction: family RoundTrip, decode of encode (30_encoding.md). -/

namespace Sys2Proof.Laws.RoundTrip

open Sys2Proof Sys2Proof.Machine

/-- Decoding the encoding of a well-formed instruction, a pair at its own counter, gives the instruction. -/
def Statement (i : Instr) : Prop :=
  ∀ (cfg : Config) (n : Nat), i.wellFormed cfg = true → atCounter n i → decode n (encode cfg i) = .ok i

theorem reset : Statement (.reset) := fun _ _ _ _ => rfl

theorem encStart (prot : BitVec 16) : Statement (.encStart prot) := fun _ _ _ _ => by
  show decodeCmd (cmdWord 0x02#8 prot) = _
  rw [decodeCmd_cmdWord]; rfl

theorem encSym (sym : Byte) : Statement (.encSym sym) := fun _ _ _ _ => decodeCmd_encSym sym

theorem encEnd : Statement (.encEnd) := fun _ _ _ _ => rfl

theorem decStart : Statement (.decStart) := fun _ _ _ _ => rfl

theorem decPair : Statement (.decPair) := fun _ _ _ _ => rfl

theorem writeHeader (m : BitVec 32) (p : BitVec 16) : Statement (.writeHeader m p) := fun _ _ _ _ => rfl

theorem readHeader : Statement (.readHeader) := fun _ _ _ _ => rfl

theorem writePair (c : Code) (y : Byte) (w : Width) : Statement (.writePair c y w) := fun _ _ _ _ => rfl

theorem readPair (w : Width) : Statement (.readPair w) := fun _ _ _ _ => rfl

theorem flush : Statement (.flush) := fun _ _ _ _ => rfl

theorem writeWord (word : ByteSeq) : Statement (.writeWord word) := fun _ _ _ _ => rfl

theorem flushWords : Statement (.flushWords) := fun _ _ _ _ => rfl

theorem trieCreate : Statement (.trieCreate) := fun _ _ _ _ => rfl

theorem trieStep (n : Code) (b : Byte) : Statement (.trieStep n b) := fun _ _ _ _ => rfl

theorem trieInsert (n : Code) (b : Byte) (c : Code) : Statement (.trieInsert n b c) := fun _ _ _ _ => rfl

theorem trieReset : Statement (.trieReset) := fun _ _ _ _ => rfl

theorem trieDelete (n : Code) : Statement (.trieDelete n) := fun _ _ _ _ => rfl

theorem wtCreate : Statement (.wtCreate) := fun _ _ _ _ => rfl

theorem wtLookup (c : Code) : Statement (.wtLookup c) := fun _ _ _ _ => rfl

theorem wtAssign (c p : Code) (b : Byte) : Statement (.wtAssign c p b) := fun _ _ _ _ => rfl

theorem wtReset : Statement (.wtReset) := fun _ _ _ _ => rfl

theorem wtDelete : Statement (.wtDelete) := fun _ _ _ _ => rfl

theorem header (m : BitVec 32) (p : BitVec 16) : Statement (.header m p) := fun _ _ _ _ => by
  show Except.ok (decodeHeader _) = _
  unfold decodeHeader headerImage
  rw [headerMagic_image, headerProt_image]

theorem pairStop (w : Width) (y : Byte) : Statement (.pairStop w y) := fun _ n hw hn => by
  refine (decodePair_pairBits hn (c := stopCode) ?_ y).trans ?_
  · simp only [Instr.wellFormed, widthInRange, Bool.and_eq_true, decide_eq_true_eq] at hw
    have : 2 ^ 1 ≤ 2 ^ w.toNat := Nat.pow_le_pow_right (by omega) hw.1
    show 1 < 2 ^ w.toNat
    omega
  · rfl

theorem pairLit (w : Width) (y : Byte) : Statement (.pairLit w y) := fun _ n _ hn => by
  refine (decodePair_pairBits hn (c := emptyCode) ?_ y).trans ?_
  · show 0 < 2 ^ w.toNat; exact Nat.two_pow_pos _
  · rfl

theorem pairRef (w : Width) (c : Code) (y : Byte) : Statement (.pairRef w c y) := fun _ n hw hn => by
  simp only [Instr.wellFormed, codeFieldInRange, Bool.and_eq_true, decide_eq_true_eq] at hw
  have h1 : c ≠ stopCode := fun e => by rw [e] at hw; simp at hw
  have h0 : c ≠ emptyCode := fun e => by rw [e] at hw; simp at hw
  have hn : w.toNat = bitLength n ∧ c.toNat < n := hn
  refine (decodePair_pairBits hn.1 hw.2.2 y).trans ?_
  unfold classifyPair
  rw [if_neg h1, if_neg h0]
  rw [if_pos hn.2]

theorem pairUndef (w : Width) (c : Code) (y : Byte) : Statement (.pairUndef w c y) := fun _ n hw hn => by
  simp only [Instr.wellFormed, codeFieldInRange, Bool.and_eq_true, decide_eq_true_eq] at hw
  have h1 : c ≠ stopCode := fun e => by rw [e] at hw; simp at hw
  have h0 : c ≠ emptyCode := fun e => by rw [e] at hw; simp at hw
  have hn : w.toNat = bitLength n ∧ n ≤ c.toNat := hn
  refine (decodePair_pairBits hn.1 hw.2.2 y).trans ?_
  unfold classifyPair
  rw [if_neg h1, if_neg h0]
  rw [if_neg (by omega)]

end Sys2Proof.Laws.RoundTrip
end

