-- ==== Sys2Proof/Tests/Slice0.lean ====
section
/-! SUPPORT. The model's own tests: ill-formed terms refused, words of the spec decoded, the examples of the rules (expected values
from spec/, by hand from its encodings where it gives no example), and a witness for the hypotheses of every statement. -/

namespace Sys2Proof.Tests

open Sys2Proof Sys2Proof.Machine

/-! ### Helpers -/

/-- The outcome is a next state with this property. -/
def nextWith (o : Res State) (p : State → Bool) : Bool :=
  match o with
  | .next t => p t
  | .fault _ => false
  | .refused _ => false

/-- The outcome is this fault. -/
def faultsWith (o : Res State) (f : Fault) : Bool :=
  match o with
  | .next _ => false
  | .fault g => decide (g = f)
  | .refused _ => false

/-- The outcome is this refusal. -/
def refusedWith (o : Res State) (r : Refusal) : Bool :=
  match o with
  | .next _ => false
  | .fault _ => false
  | .refused q => decide (q = r)

/-- The decoder's answer, or nothing. -/
def decoded (e : Except DecodeError Instr) : Option Instr := e.toOption

/-- The state after an operation that is known to answer one. -/
def after (i : Instr) (s : State) : State :=
  match exec i s with
  | .next t => t
  | .fault _ => s
  | .refused _ => s

/-- MAX_CODE 8, BLOCK 4, the magic of the spec's examples. -/
def cfg8 : Config := { maxCode := 8, block := 4, magic := 0xBAADBAAC#32, headerPad := 0 }

/-- The smallest engine: MAX_CODE 4, BLOCK 1. -/
def cfg4 : Config := { maxCode := 4, block := 1, magic := 0xBAADBAAC#32, headerPad := 0 }

/-- The header of the spec's examples: MAGIC, then prot = 0x01A4 (40_bitchannel.md R111). -/
def header6 : ByteSeq := [0xAC#8, 0xBA#8, 0xAD#8, 0xBA#8, 0xA4#8, 0x01#8]

/-- The pair stream of the example of 43_codec.md R160. -/
def pairs7 : ByteSeq := [0x84#8, 0x19#8, 0xB6#8, 0x30#8, 0x86#8, 0x05#8, 0x00#8]

def idle8 : State := State.resetOf cfg8
def idle4 : State := State.resetOf cfg4

/-- ENC_START; then 'a'; then 'a' again, which extends the match. -/
def enc0 : State := after (.encStart 0x01A4#16) idle8
def enc1 : State := after (.encSym 0x61#8) enc0
def enc2 : State := after (.encSym 0x61#8) enc1

/-- An encode run one code below MAX_CODE. -/
def encTop : State := after (.encSym 0x61#8) (after (.encStart 0#16) idle4)

/-- A decode run on a wire, before DEC_START and after it. -/
def waiting (cfg : Config) (wire : ByteSeq) : State := { State.resetOf cfg with zin := wire }
def dec0 (wire : ByteSeq) : State := after .decStart (waiting cfg8 (header6 ++ wire))

/-- A decode run one code below MAX_CODE, a literal pair coming. -/
def decTop : State := after .decPair (after .decStart (waiting cfg4 (header6 ++ [0x84#8, 0x11#8, 0x06#8])))

/-- MAX_CODE 8, `next_code` = 7: an encode run after "abcde" and one more 'a', which extends the match, and a decode run after the
same five literals, a sixth coming. -/
def encAfter (syms : ByteSeq) : State := syms.foldl (fun s y => after (.encSym y) s) enc0
def encEdge : State := encAfter [0x61#8, 0x62#8, 0x63#8, 0x64#8, 0x65#8]
def encEdgeMatch : State := after (.encSym 0x61#8) encEdge
/-- Literals 'a' to 'f' at widths 2, 2, 3, 3, 3, 3 (30_encoding.md R82, R83). -/
def literals6 : ByteSeq := [0x84#8, 0x21#8, 0x86#8, 0x31#8, 0x90#8, 0xA1#8, 0x0C#8, 0x66#8]
def decEdge : State := after .decPair (after .decPair (after .decPair (after .decPair (after .decPair (dec0 literals6)))))

def done8 : State := after .encEnd enc0
def error8 : State := after .decPair idle8

/-- The tree and the table of the examples of 41_trie.md and 42_wordtable.md. -/
def tree1 : State := after (.trieInsert 0 0x61#8 2) (after .trieCreate idle8)
def tree2 : State := after (.trieInsert 2 0x61#8 3) tree1
def tree3 : State := after (.trieInsert 0 0x62#8 4) tree2
def table1 : State := after (.wtAssign 2 0 0x61#8) (after .wtCreate idle8)
def table2 : State := after (.wtAssign 3 2 0x61#8) table1

/-! ### WellFormed: an ill-formed term is refused, by each check -/

theorem test_wf_writePair_zero : (Instr.writePair 0 0 0#5).wellFormed cfg8 = false := by decide
theorem test_wf_writePair_17 : (Instr.writePair 0 0 17#5).wellFormed cfg8 = false := by decide
theorem test_wf_readPair_zero : (Instr.readPair 0#5).wellFormed cfg8 = false := by decide
theorem test_wf_readPair_17 : (Instr.readPair 17#5).wellFormed cfg8 = false := by decide
theorem test_wf_writeWord_empty : (Instr.writeWord []).wellFormed cfg8 = false := by decide
theorem test_wf_trieInsert_stop : (Instr.trieInsert 0 0 1#16).wellFormed cfg8 = false := by decide
theorem test_wf_trieInsert_max : (Instr.trieInsert 0 0 8#16).wellFormed cfg8 = false := by decide
theorem test_wf_wtAssign_empty : (Instr.wtAssign 0#16 0 0).wellFormed cfg8 = false := by decide
theorem test_wf_wtAssign_max : (Instr.wtAssign 8#16 0 0).wellFormed cfg8 = false := by decide
theorem test_wf_pairStop_width : (Instr.pairStop 0#5 0).wellFormed cfg8 = false := by decide
theorem test_wf_pairLit_width : (Instr.pairLit 17#5 0).wellFormed cfg8 = false := by decide
theorem test_wf_pairRef_code : (Instr.pairRef 2#5 1#16 0).wellFormed cfg8 = false := by decide
theorem test_wf_pairUndef_code : (Instr.pairUndef 2#5 4#16 0).wellFormed cfg8 = false := by decide
theorem test_wf_accepts : (Instr.trieInsert 0 0 7#16).wellFormed cfg8 = true ∧
    (Instr.writePair 0 0 16#5).wellFormed cfg8 = true ∧ (Instr.pairRef 2#5 3#16 0).wellFormed cfg8 = true := by decide

/-! ### Decode: words written out from 30_encoding.md R81 to R97 -/

/-- The operand ports with a value of its own on each. -/
def ports9 : UnitPorts :=
  { magic := 0xBAADBAAC#32, prot := 0x01A4#16, code := 5#16, sym := 0x61#8, width := 3#5, word := [0x61#8, 0x62#8],
    node := 4#16, byte := 0x7A#8, parent := 6#16 }

def unit9 (opid : BitVec 8) : Option Instr := decoded (decodeUnit { opid := opid, ports := ports9 })

theorem test_decode_commands :
    decoded (decodeCmd 0b000000000000000000000001#24) = some .reset ∧
    decoded (decodeCmd 0b000000011010010000000010#24) = some (.encStart 0x01A4#16) ∧
    decoded (decodeCmd 0b000000000110000100000011#24) = some (.encSym 0x61#8) ∧
    decoded (decodeCmd 0b000000000000000000000100#24) = some .encEnd ∧
    decoded (decodeCmd 0b000000000000000000000101#24) = some .decStart ∧
    decoded (decodeCmd 0b000000000000000000000110#24) = some .decPair := by decide

theorem test_decode_rejects :
    decoded (decodeCmd 0x000100#24) = none ∧ decoded (decodeCmd 0x000007#24) = none ∧
    decoded (decodeCmd 0x000101#24) = none ∧ decoded (decodeCmd 0x800001#24) = none ∧
    decoded (decodeCmd 0x016103#24) = none ∧ decoded (decodeCmd 0x000010#24) = none := by decide

theorem test_decode_bitchannel :
    unit9 0x10#8 = some (.writeHeader 0xBAADBAAC#32 0x01A4#16) ∧ unit9 0x11#8 = some .readHeader ∧
    unit9 0x12#8 = some (.writePair 5#16 0x61#8 3#5) ∧ unit9 0x13#8 = some (.readPair 3#5) ∧
    unit9 0x14#8 = some .flush ∧ unit9 0x15#8 = some (.writeWord [0x61#8, 0x62#8]) ∧
    unit9 0x16#8 = some .flushWords := by decide

theorem test_decode_trie :
    unit9 0x20#8 = some .trieCreate ∧ unit9 0x21#8 = some (.trieStep 4#16 0x7A#8) ∧
    unit9 0x22#8 = some (.trieInsert 4#16 0x7A#8 5#16) ∧ unit9 0x23#8 = some .trieReset ∧
    unit9 0x24#8 = some (.trieDelete 4#16) := by decide

theorem test_decode_wordtable :
    unit9 0x30#8 = some .wtCreate ∧ unit9 0x31#8 = some (.wtLookup 5#16) ∧
    unit9 0x32#8 = some (.wtAssign 5#16 6#16 0x7A#8) ∧ unit9 0x33#8 = some .wtReset ∧
    unit9 0x34#8 = some .wtDelete := by decide

theorem test_decode_unit_rejects : unit9 0x17#8 = none ∧ unit9 0x25#8 = none ∧ unit9 0x35#8 = none ∧ unit9 0x01#8 = none := by
  decide

theorem test_decode_header : decodeHeader header6 = .header 0xBAADBAAC#32 0x01A4#16 := by decide

/-- At next_code = 2 (w = 2): code bits 1,0 (c = 1), 0,0 (c = 0) and 0,1 (c = 2), then 0x61, or 0x00, from bit 0 up. -/
theorem test_decode_pairs_two_bits :
    decoded (decodePair 2 [true, false, false, false, false, false, false, false, false, false]) = some (.pairStop 2#5 0#8) ∧
    decoded (decodePair 2 [false, false, true, false, false, false, false, true, true, false]) =
      some (.pairLit 2#5 0x61#8) ∧
    decoded (decodePair 3 [false, true, true, false, false, false, false, true, true, false]) =
      some (.pairRef 2#5 2#16 0x61#8) ∧
    decoded (decodePair 2 [false, true, true, false, false, false, false, true, true, false]) =
      some (.pairUndef 2#5 2#16 0x61#8) := by decide

/-- At next_code = 4 the code field is 3 bits: 1,1,0 is code 3, and a run of ten bits is no pair. -/
theorem test_decode_pairs_three_bits :
    decoded (decodePair 4 [true, true, false, true, false, false, false, false, true, true, false]) =
      some (.pairRef 3#5 3#16 0x61#8) ∧
    decoded (decodePair 4 [false, false, true, false, false, false, false, true, true, false]) = none := by decide

theorem test_table_words :
    decodeTableWord 24 0x01A402 = some (.encStart 0x01A4#16) ∧ decodeTableWord 24 0x010001 = none ∧
    decodeTableWord 8 0x14 = some .flush ∧ decodeTableWord 8 0x13 = some (.readPair 0#5) ∧ decodeTableWord 16 1 = none := by
  decide

/-! ### One step of each operation: the examples of the rules -/

/-- R154: "in ERROR with STATUS = 0x0C, RESET gives STATUS = 0x00". 0x0C: ERR = 1, STATE = 4. -/
theorem test_reset_from_error :
    let s := after .decStart (waiting cfg8 [0xAC#8, 0xBA#8])
    statusReg s = 0x0C#8 ∧ nextWith (step (s.withFetchWord 24 0x000001)) (fun t => decide (statusReg t = 0#8)) = true := by
  decide

/-- R155. -/
theorem test_encStart : nextWith (step (idle8.withFetchWord 24 0x01A402)) (fun t => decide (t.zout = header6) &&
    decide (statusReg t = 0x01#8) && decide (regRead t 1 = 2) && decide (regRead t 2 = 2) && t.trieLive) = true := by
  decide

/-- R153: outside IDLE it is ERR_CMD. STATUS: ERR = 2, STATE = 4. -/
theorem test_encStart_again : nextWith (exec (.encStart 0) enc0) (fun t => decide (statusReg t = 0x14#8) &&
    decide (t.zout = header6)) = true := by decide

/-- R157, first 'a'. -/
theorem test_encSym_breaks : nextWith (step (enc0.withFetchWord 24 0x006103)) (fun t => decide (childAt t 0 0x61#8 = some 2#16) &&
    decide (t.cur = 0) && decide (t.nextCode = 3) && decide (t.totalBits = 10) && decide (t.widx = 10)) = true := by
  decide

/-- R157, second 'a'. -/
theorem test_encSym_extends : nextWith (step (enc1.withFetchWord 24 0x006103)) (fun t => decide (t.prevCode = 0) &&
    decide (t.prevSym = 0x61#8) && decide (t.cur = 2) && decide (t.totalBits = 10) && decide (t.totalSyms = 2)) = true := by
  decide

/-- R158 (a): empty input. -/
theorem test_encEnd_empty : nextWith (step (enc0.withFetchWord 24 0x000004)) (fun t =>
    decide (t.zout = header6 ++ [0x01#8, 0x00#8]) && decide (statusReg t = 0x03#8) && !t.trieLive) = true := by decide +kernel

/-- R158 (c): input "aa". -/
theorem test_encEnd_match : nextWith (step (enc2.withFetchWord 24 0x000004)) (fun t =>
    decide (t.zout = header6 ++ [0x84#8, 0x11#8, 0x16#8, 0x00#8]) && decide (t.nextCode = 4) && decide (t.widx = 0)) = true := by
  decide +kernel

/-- R159. -/
theorem test_decStart_accepts :
    nextWith (step ((waiting cfg8 (header6 ++ [0x01#8, 0x00#8])).withFetchWord 24 0x000005)) (fun t =>
      decide (statusReg t = 0x02#8) && decide (regRead t 3 = 0x01A4) && decide (regRead t 1 = 2) &&
        decide (regRead t 10 = 6)) = true := by decide

/-- R159 (b): `prot` keeps its reset value, `zin_pos` = min(HEADER_BYTES, len(Z)), STATUS = 0x0C (60_exceptions.md R182). -/
theorem test_decStart_rejects :
    nextWith (exec .decStart (waiting cfg8 [0xAD#8, 0xBA#8, 0xAD#8, 0xBA#8, 0xA4#8])) (fun t => decide (statusReg t = 0x0C#8) &&
      decide (t.prot = 0) && decide (t.zinPos = 5) && decide (t.sout = []) && !t.wtLive) = true := by decide

/-- R160, first pair. -/
theorem test_decPair_literal : nextWith (step ((dec0 pairs7).withFetchWord 24 0x000006)) (fun t =>
    decide (wordAt t 2 = some [0x61#8]) && decide (decodedBytes t = [0x61#8]) && decide (t.nextCode = 3)) = true := by
  decide

/-- R160, second pair. -/
theorem test_decPair_reference : nextWith (exec .decPair (after .decPair (dec0 pairs7))) (fun t =>
    decide (wordAt t 3 = some [0x61#8, 0x61#8]) && decide (decodedBytes t = [0x61#8, 0x61#8, 0x61#8]) &&
      decide (t.nextCode = 4)) = true := by decide

/-- R111. -/
theorem test_writeHeader : nextWith (exec (.writeHeader 0xBAADBAAC#32 0x01A4#16) idle8) (fun t => decide (t.zout = header6) &&
    decide (t.widx = 0) && decide (t.totalBits = 0)) = true := by decide

/-- R112; and a ZIN shorter than the header is zero-filled. -/
theorem test_readHeader :
    nextWith (exec .readHeader (waiting cfg8 (header6 ++ pairs7))) (fun t =>
      decide (t.unitOut = .header 0xBAADBAAC#32 0x01A4#16) && decide (t.zinPos = 6) && decide (t.ridx = 32)) = true ∧
    nextWith (exec .readHeader (waiting cfg8 [0xAC#8])) (fun t => decide (t.unitOut = .header 0x000000AC#32 0#16) &&
      decide (t.zinPos = 1)) = true := by decide

/-- R113: byte 0 becomes 0x84, byte 1 0x01. -/
theorem test_writePair : nextWith (exec (.writePair 0 0x61#8 2#5) idle8) (fun t => decide (Memory.read t.wbuf 0 = 0x84#8) &&
    decide (Memory.read t.wbuf 1 = 0x01#8) && decide (t.widx = 10) && decide (t.totalBits = 10)) = true := by decide

/-- R113 (d): with BLOCK = 1 every eighth bit triggers an auto-flush; (a): the high bits of code 5 are dropped at w = 2. -/
theorem test_writePair_block_one : nextWith (exec (.writePair 5 0x61#8 2#5) idle4) (fun t => decide (t.zout = [0x85#8]) &&
    decide (t.widx = 2) && decide (Memory.readBit t.wbuf 0 = true) && decide (Memory.readBit t.wbuf 1 = false)) = true := by
  decide

/-- R114: (0, 0x61, true), then (1, 0x00, false). -/
theorem test_readPair :
    let s := waiting cfg8 [0x84#8, 0x05#8, 0x00#8]
    nextWith (exec (.readPair 2#5) s) (fun t => decide (t.unitOut = .pair 0 0x61#8 true) && decide (t.ridx = 10)) = true ∧
    nextWith (exec (.readPair 2#5) (after (.readPair 2#5) s)) (fun t => decide (t.unitOut = .pair 1 0 false) &&
      !t.hasMore) = true := by decide

/-- R114 (e): entirely past the end of ZIN; (d): width 17. -/
theorem test_readPair_corners :
    nextWith (exec (.readPair 16#5) (waiting cfg4 [])) (fun t => decide (t.unitOut = .pair 0 0 true) &&
      decide (t.zinPos = 0)) = true ∧
    refusedWith (exec (.readPair 17#5) idle8) .widthOutOfRange = true := by decide

/-- R115: `widx` = 20, WBUF = 84 05 F0. -/
theorem test_flush :
    let s := { idle8 with wbuf := [(0, 0x84#8), (1, 0x05#8), (2, 0xF0#8)], widx := 20 }
    nextWith (exec .flush s) (fun t => decide (t.zout = [0x84#8, 0x05#8, 0x00#8]) && decide (t.widx = 0)) = true ∧
    nextWith (exec .flush { s with widx := 0 }) (fun t => decide (t.zout = [])) = true := by decide

/-- R116: BLOCK = 4, `oidx` = 3. -/
theorem test_writeWord :
    nextWith (exec (.writeWord [0x61#8, 0x62#8]) { idle8 with obuf := [(0, 1#8), (1, 2#8), (2, 3#8)], oidx := 3 }) (fun t =>
      decide (t.sout = [1#8, 2#8, 3#8, 0x61#8]) && decide (Memory.read t.obuf 0 = 0x62#8) && decide (t.oidx = 1) &&
        decide (t.totalSyms = 2)) = true := by decide

/-- R117: `oidx` = 2, OBUF = 61 62. -/
theorem test_flushWords :
    nextWith (exec .flushWords { idle8 with obuf := [(0, 0x61#8), (1, 0x62#8)], oidx := 2 }) (fun t =>
      decide (t.sout = [0x61#8, 0x62#8]) && decide (t.oidx = 0)) = true := by decide

/-- R132, and its corner case: a live trie is discarded. -/
theorem test_trieCreate :
    nextWith (exec .trieCreate idle8) (fun t => t.trieLive && decide (childAt t 0 0xFF#8 = none)) = true ∧
    nextWith (exec .trieCreate tree2) (fun t => t.trieLive && decide (t.child = [])) = true := by decide

/-- R133: the four examples, on (0,0x61) -> 2, (2,0x61) -> 3. -/
theorem test_trieStep :
    nextWith (exec (.trieStep 0 0x61#8) tree2) (fun t => decide (t.unitOut = .child (some 2#16))) = true ∧
    nextWith (exec (.trieStep 2 0x61#8) tree2) (fun t => decide (t.unitOut = .child (some 3#16))) = true ∧
    nextWith (exec (.trieStep 3 0x61#8) tree2) (fun t => decide (t.unitOut = .child none)) = true ∧
    nextWith (exec (.trieStep 0 0x62#8) tree2) (fun t => decide (t.unitOut = .child none)) = true := by decide

/-- R133: U4. -/
theorem test_trieStep_not_live :
    faultsWith (exec (.trieStep 0 0) idle8) .notLive = true ∧ faultsWith (exec (.trieStep 5 0) tree2) .notLive = true := by
  decide

/-- R134; U2 where the child exists, and where a live node holds the code. -/
theorem test_trieInsert :
    nextWith (exec (.trieInsert 0 0x61#8 2) (after .trieCreate idle8)) (fun t => decide (childAt t 0 0x61#8 = some 2#16)) = true ∧
    faultsWith (exec (.trieInsert 0 0x61#8 4) tree1) .childExists = true ∧
    faultsWith (exec (.trieInsert 2 0x62#8 2) tree1) .childExists = true := by decide

/-- R134 with a code outside the operand's range, 1 and MAX_CODE: a child all the same, at its slot and at no other; its code is a free
value (log entry 10). -/
theorem test_trieInsert_out_of_range :
    nextWith (exec (.trieInsert 0 0x62#8 1) tree1) (fun t => (childAt t 0 0x62#8).isSome && decide (childAt t 0 0x61#8 = some 2#16) &&
      decide (childAt t 0 0x63#8 = none) && decide (t.freeIndex = 1)) = true ∧
    nextWith (exec (.trieInsert 2 0#8 8) tree1) (fun t => (childAt t 2 0#8).isSome && decide (t.freeIndex = 1)) = true := by decide

/-- R135. -/
theorem test_trieReset : nextWith (exec .trieReset tree2) (fun t => decide (t.child = []) && t.trieLive) = true := by
  decide

/-- R136: (0,0x61) -> 2, (2,0x61) -> 3, (0,0x62) -> 4; TRIE_DELETE(2) leaves (0,0x62) -> 4. -/
theorem test_trieDelete :
    nextWith (exec (.trieDelete 2) tree3) (fun t => decide (childAt t 0 0x62#8 = some 4#16) &&
      decide (childAt t 0 0x61#8 = none) && decide (childAt t 2 0x61#8 = none) && t.trieLive) = true ∧
    nextWith (exec (.trieDelete 0) tree3) (fun t => decide (t.child = []) && !t.trieLive) = true := by decide

/-- R141. -/
theorem test_wtCreate : nextWith (exec .wtCreate idle8) (fun t => decide (wordAt t 0 = some []) && decide (wordAt t 2 = none) &&
    t.wtLive) = true := by decide

/-- R142. -/
theorem test_wtLookup :
    nextWith (exec (.wtLookup 3) table2) (fun t => decide (t.unitOut = .word [0x61#8, 0x61#8])) = true ∧
    faultsWith (exec (.wtLookup 4) table2) .unassignedCode = true := by decide

/-- R143. -/
theorem test_wtAssign :
    nextWith (exec (.wtAssign 3 2 0x62#8) table1) (fun t => decide (wordAt t 3 = some [0x61#8, 0x62#8]) &&
      decide (wordAt t 2 = some [0x61#8])) = true := by decide

/-- R143: U6 on a populated slot and on MAX_CODE, U1 on an unassigned parent. -/
theorem test_wtAssign_stops :
    faultsWith (exec (.wtAssign 2 0 0) table1) .slotNotFree = true ∧
    faultsWith (exec (.wtAssign 8 0 0) table1) .slotNotFree = true ∧
    faultsWith (exec (.wtAssign 3 5 0) table1) .unassignedCode = true := by decide

/-- R144. -/
theorem test_wtReset : nextWith (exec .wtReset table1) (fun t => decide (t.wt = [(0, [])]) && t.wtLive) = true := by decide

/-- R145. -/
theorem test_wtDelete : nextWith (exec .wtDelete table1) (fun t => decide (t.wt = []) && !t.wtLive) = true := by decide

/-- The wire's HEADER: what DEC_START does with it (R159). -/
theorem test_header :
    nextWith (exec (.header 0xBAADBAAC#32 0x01A4#16) idle8) (fun t => decide (statusReg t = 0x02#8) &&
      decide (t.prot = 0x01A4#16)) = true ∧
    nextWith (exec (.header 0xBAADBAAD#32 0x01A4#16) idle8) (fun t => decide (statusReg t = 0x0C#8) &&
      decide (t.prot = 0)) = true := by decide

/-- PAIR.STOP: the end of the stream, whatever the symbol (30_encoding.md R86, R160). -/
theorem test_pairStop : nextWith (exec (.pairStop 2#5 0x63#8) (dec0 [])) (fun t => decide (statusReg t = 0x03#8) &&
    !t.wtLive) = true := by decide

/-- PAIR.LIT (R85): "new word = the one byte `symbol`". -/
theorem test_pairLit : nextWith (exec (.pairLit 2#5 0x61#8) (dec0 [])) (fun t => decide (wordAt t 2 = some [0x61#8]) &&
    decide (decodedBytes t = [0x61#8])) = true := by decide

/-- PAIR.REF (R85): "new word = word of c with `symbol` appended". -/
theorem test_pairRef : nextWith (exec (.pairRef 2#5 2#16 0x62#8) (after .decPair (dec0 pairs7))) (fun t =>
    decide (wordAt t 3 = some [0x61#8, 0x62#8]) && decide (t.nextCode = 4)) = true := by decide

/-- PAIR.UNDEF (R85, R211), and the same by DEC_PAIR: 30_encoding.md R88. -/
theorem test_pairUndef :
    faultsWith (exec (.pairUndef 2#5 3#16 0) (dec0 [])) .unassignedCode = true ∧
    faultsWith (exec .decPair (dec0 [0x87#8, 0x01#8])) .unassignedCode = true := by decide

/-- R152, R165: at MAX_CODE - 1 a data pair resets the dictionary and the counter. -/
theorem test_epoch_boundary :
    nextWith (exec (.encSym 0x62#8) encTop) (fun t => decide (t.nextCode = 2) && decide (t.child = [])) = true ∧
    nextWith (exec .decPair decTop) (fun t => decide (t.nextCode = 2) && decide (t.wt = [(0, [])]) &&
      decide (decodedBytes t = [0x61#8, 0x61#8])) = true := by decide

/-- The step: an empty queue, an unknown word, the hardware reset, a ZIN change. -/
theorem test_step_inputs :
    nextWith (step idle8) (fun t => decide (t = idle8)) = true ∧
    nextWith (step (idle8.withFetchWord 24 0x000007)) (fun t => decide (statusReg t = 0x14#8)) = true ∧
    nextWith (step (error8.withInputs [.hardReset])) (fun t => decide (statusReg t = 0)) = true ∧
    refusedWith (step ((dec0 []).withInputs [.putZin []])) .zinChangedInRun = true := by decide

/-! ### The invariants hold in these states -/

theorem after_eq {i : Instr} {s : State} (h : nextWith (exec i s) (fun _ => true) = true) : exec i s = .next (after i s) := by
  unfold after
  cases hx : exec i s with
  | next t => rfl
  | fault r => rw [hx] at h; exact absurd h (by simp [nextWith])
  | refused r => rw [hx] at h; exact absurd h (by simp [nextWith])

theorem cfg8_ok : cfg8.Ok := by decide
theorem cfg4_ok : cfg4.Ok := by decide

theorem idle8_inv : HostInv idle8 := resetState_hostInv (s := idle8) cfg8_ok rfl
theorem idle4_inv : HostInv idle4 := resetState_hostInv (s := idle4) cfg4_ok rfl
theorem enc0_inv : HostInv enc0 :=
  encStart_hostInv (prot := 0x01A4#16) idle8_inv rfl (after_eq (i := .encStart 0x01A4#16) (by decide))
theorem enc1_inv : HostInv enc1 :=
  encSym_hostInv (sym := 0x61#8) enc0_inv (by decide) (after_eq (i := .encSym 0x61#8) (by decide))
theorem enc2_inv : HostInv enc2 :=
  encSym_hostInv (sym := 0x61#8) enc1_inv (by decide) (after_eq (i := .encSym 0x61#8) (by decide))
theorem encTop_inv : HostInv encTop :=
  encSym_hostInv (sym := 0x61#8)
    (encStart_hostInv (prot := 0#16) idle4_inv rfl (after_eq (i := .encStart 0#16) (by decide)))
    (by decide) (after_eq (i := .encSym 0x61#8) (by decide))
theorem waiting_inv {cfg : Config} (h : cfg.Ok) (wire : ByteSeq) : HostInv (waiting cfg wire) :=
  resetState_hostInv (s := waiting cfg wire) h rfl
theorem dec0_inv : HostInv (dec0 pairs7) :=
  decStart_hostInv (waiting_inv cfg8_ok (header6 ++ pairs7)) rfl (after_eq (i := .decStart) (by decide))
theorem decStop_inv : HostInv (dec0 [0x01#8, 0x00#8]) :=
  decStart_hostInv (waiting_inv cfg8_ok (header6 ++ [0x01#8, 0x00#8])) rfl (after_eq (i := .decStart) (by decide))
theorem decUndef_inv : HostInv (dec0 [0x87#8, 0x01#8]) :=
  decStart_hostInv (waiting_inv cfg8_ok (header6 ++ [0x87#8, 0x01#8])) rfl (after_eq (i := .decStart) (by decide))
theorem decEmpty_inv : HostInv (dec0 []) :=
  decStart_hostInv (waiting_inv cfg8_ok (header6 ++ [])) rfl (after_eq (i := .decStart) (by decide))
theorem dec1_inv : HostInv (after .decPair (dec0 pairs7)) :=
  decPair_hostInv dec0_inv (by decide) (after_eq (i := .decPair) (by decide))
theorem decTop_inv : HostInv decTop :=
  decPair_hostInv
    (decStart_hostInv (waiting_inv cfg4_ok (header6 ++ [0x84#8, 0x11#8, 0x06#8])) rfl
      (after_eq (i := .decStart) (by decide)))
    (by decide) (after_eq (i := .decPair) (by decide))
theorem encSym_after {s : State} (h : HostInv s) (hs : s.runState = .enc) (y : Byte)
    (ht : nextWith (exec (.encSym y) s) (fun _ => true) = true) : HostInv (after (.encSym y) s) :=
  encSym_hostInv h hs (after_eq ht)
theorem decPair_after {s : State} (h : HostInv s) (hs : s.runState = .dec)
    (ht : nextWith (exec .decPair s) (fun _ => true) = true) : HostInv (after .decPair s) :=
  decPair_hostInv h hs (after_eq ht)
theorem encEdge_inv : HostInv encEdge :=
  encSym_after (encSym_after (encSym_after (encSym_after enc1_inv (by decide) 0x62#8 (by decide)) (by decide) 0x63#8 (by decide))
    (by decide) 0x64#8 (by decide)) (by decide) 0x65#8 (by decide)
theorem encEdgeMatch_inv : HostInv encEdgeMatch := encSym_after encEdge_inv (by decide) 0x61#8 (by decide)
theorem decLiterals_inv : HostInv (dec0 literals6) :=
  decStart_hostInv (waiting_inv cfg8_ok (header6 ++ literals6)) rfl (after_eq (i := .decStart) (by decide))
theorem decEdge_inv : HostInv decEdge :=
  decPair_after (decPair_after (decPair_after (decPair_after (decPair_after decLiterals_inv (by decide) (by decide)) (by decide)
    (by decide)) (by decide) (by decide)) (by decide) (by decide)) (by decide) (by decide)
theorem done8_inv : HostInv done8 :=
  encEnd_hostInv enc0_inv (by decide) (after_eq (i := .encEnd) (by decide))
theorem error8_inv : HostInv error8 := by
  have h := raiseError_hostInv idle8_inv (cause := errCmd) (.inr rfl)
  have e : error8 = raiseError errCmd idle8 := by decide
  rw [e]; exact h

theorem created_inv : EngineInv (after .trieCreate idle8) := trieCreate_engineInv idle8_inv.engine
theorem tree1_inv : EngineInv tree1 :=
  trieInsert_engineInv (n := 0) (b := 0x61#8) (c := 2) created_inv
    (after_eq (i := .trieInsert 0 0x61#8 2) (s := after .trieCreate idle8) (by decide))
theorem tree2_inv : EngineInv tree2 :=
  trieInsert_engineInv (n := 2) (b := 0x61#8) (c := 3) tree1_inv
    (after_eq (i := .trieInsert 2 0x61#8 3) (s := tree1) (by decide))
theorem tree3_inv : EngineInv tree3 :=
  trieInsert_engineInv (n := 0) (b := 0x62#8) (c := 4) tree2_inv
    (after_eq (i := .trieInsert 0 0x62#8 4) (s := tree2) (by decide))
theorem table1_inv : EngineInv table1 :=
  wtAssign_engineInv (c := 2) (p := 0) (b := 0x61#8) (wtCreate_engineInv idle8_inv.engine)
    (after_eq (i := .wtAssign 2 0 0x61#8) (s := after .wtCreate idle8) (by decide))

/-! ### The hypotheses of every statement are met

One theorem per statement of Certificates/Slice0/Obligations.lean that has hypotheses: concrete states and operands that meet the
hypotheses of each of its clauses, at boundary values where a clause has a range. -/

/-- A state with one input pending. -/
def issued (s : State) (x : HostInput) : State := { s with cmdIn := [x] }

theorem issued_inv {s : State} (h : HostInv s) (x : HostInput) : HostInv (issued s x) := h.cmdIn [x]

theorem isSome_next {o : Res State} (h : nextWith o (fun _ => true) = true) : ∃ t, o = .next t := by
  cases o with
  | next t => exact ⟨t, rfl⟩
  | fault r => exact absurd h (by simp [nextWith])
  | refused r => exact absurd h (by simp [nextWith])

/-- `next_code` = 4: code 3 is assigned, code 4 is not; widths and codes at the ends of their ranges. -/
theorem witness_DecodeOfEncodeIsTheInstruction :
    ((Instr.pairRef 3#5 3#16 0x61#8).wellFormed cfg8 = true ∧ atCounter 4 (.pairRef 3#5 3#16 0x61#8)) ∧
    ((Instr.pairUndef 3#5 4#16 0x61#8).wellFormed cfg8 = true ∧ atCounter 4 (.pairUndef 3#5 4#16 0x61#8)) ∧
    ((Instr.pairStop 2#5 0xFF#8).wellFormed cfg8 = true ∧ atCounter 3 (.pairStop 2#5 0xFF#8)) ∧
    ((Instr.pairLit 16#5 0#8).wellFormed cfg8 = true ∧ atCounter 65535 (.pairLit 16#5 0#8)) ∧
    ((Instr.trieInsert 0 0 7#16).wellFormed cfg8 = true ∧ atCounter 2 (.trieInsert 0 0 7#16)) ∧
    ((Instr.writePair 0xFFFF#16 0 16#5).wellFormed cfg8 = true ∧ atCounter 2 (.writePair 0xFFFF#16 0 16#5)) :=
  ⟨⟨by decide, by unfold atCounter; decide⟩, ⟨by decide, by unfold atCounter; decide⟩,
    ⟨by decide, by unfold atCounter; decide⟩, ⟨by decide, by unfold atCounter; decide⟩,
    ⟨by decide, trivial⟩, ⟨by decide, trivial⟩⟩

theorem witness_CommandDecodingIsExact :
    decodeCmd 0xFFFF02#24 = .ok (.encStart 0xFFFF#16) ∧ decodeCmd 0x00FF03#24 = .ok (.encSym 0xFF#8) := ⟨rfl, rfl⟩

theorem witness_StepRunsTheDecodedInstruction :
    (let s := issued enc0 (.cmd 0x006103#24)
     s.unitIn = none ∧ s.cmdIn = .cmd 0x006103#24 :: [] ∧ decodeCmd 0x006103#24 = .ok (.encSym 0x61#8)) ∧
    (let s := idle8.withFetchWord 8 0x20
     s.unitIn = some { opid := 0x20#8, ports := .zero } ∧ decodeUnit { opid := 0x20#8, ports := .zero } = .ok .trieCreate) ∧
    (let s := idle8.withFetchWord 8 0x17
     s.unitIn = some { opid := 0x17#8, ports := .zero } ∧
       decodeUnit { opid := 0x17#8, ports := .zero } = .error .unknownUnitOperation) :=
  ⟨⟨rfl, rfl, rfl⟩, ⟨rfl, rfl⟩, rfl, rfl⟩

theorem witness_EngineHoldsItsStateBetweenCommands : enc1.unitIn = none ∧ enc1.cmdIn = [] := ⟨rfl, rfl⟩

theorem witness_HardwareResetIsReset :
    (let s := issued error8 .hardReset
     s.unitIn = none ∧ s.cmdIn = .hardReset :: []) ∧ ∃ t, exec .reset error8 = .next t := ⟨⟨rfl, rfl⟩, _, rfl⟩

/-- By its opid, by its argument, by the run state. -/
theorem witness_IllegalCommandRaisesErrCmd :
    (let s := issued idle8 (.cmd 0x000007#24)
     s.unitIn = none ∧ s.cmdIn = .cmd 0x000007#24 :: [] ∧ commandLegal s.runState 0x000007#24 = false) ∧
    commandLegal idle8.runState 0x000000#24 = false ∧ commandLegal idle8.runState 0x000101#24 = false ∧
    commandLegal enc0.runState 0x010003#24 = false ∧ commandLegal idle8.runState 0x000003#24 = false ∧
    commandLegal enc0.runState 0x000006#24 = false := by
  decide

theorem witness_FirstErrorCauseIsKept :
    (let s := issued error8 (.cmd 0x000006#24)
     s.unitIn = none ∧ s.cmdIn = .cmd 0x000006#24 :: [] ∧ s.runState = .error ∧ 0x000006#24 ≠ 0x000001#24) ∧
    (enc0.runState ≠ .idle ∧ enc0.runState ≠ .error) ∧ (done8.runState ≠ .idle ∧ done8.runState ≠ .error) := by
  decide

/-- Legal in each run state; legal but of an unassigned code; illegal, in ERROR and elsewhere. -/
theorem witness_CommandsFollowTheStateTable :
    (HostInv (issued idle8 (.cmd 0x01A402#24)) ∧ commandLegal .idle 0x01A402#24 = true) ∧
    (HostInv (issued enc2 (.cmd 0x000004#24)) ∧ enc2.runState = .enc ∧ commandLegal .enc 0x000004#24 = true) ∧
    (HostInv (issued (dec0 pairs7) (.cmd 0x000006#24)) ∧ (dec0 pairs7).runState = .dec ∧
      commandLegal .dec 0x000006#24 = true) ∧
    (HostInv (issued (dec0 [0x87#8, 0x01#8]) (.cmd 0x000006#24)) ∧ (dec0 [0x87#8, 0x01#8]).runState = .dec) ∧
    (HostInv (issued done8 (.cmd 0x000001#24)) ∧ done8.runState = .done ∧ commandLegal .done 0x000001#24 = true) ∧
    (HostInv (issued error8 (.cmd 0x000002#24)) ∧ error8.runState = .error ∧ commandLegal .error 0x000002#24 = false) ∧
    (HostInv (issued enc0 (.cmd 0x000006#24)) ∧ enc0.runState = .enc ∧ commandLegal .enc 0x000006#24 = false) :=
  ⟨⟨issued_inv idle8_inv _, by decide⟩, ⟨issued_inv enc2_inv _, by decide⟩,
    ⟨issued_inv dec0_inv _, by decide⟩, ⟨issued_inv decUndef_inv _, by decide⟩,
    ⟨issued_inv done8_inv _, by decide⟩, ⟨issued_inv error8_inv _, by decide⟩,
    issued_inv enc0_inv _, by decide⟩

/-- One step from DONE and from ERROR that stays, one that goes to ERROR, and a reset of each. -/
theorem witness_OnlyResetLeavesDoneAndError :
    (done8.runState = .done ∧ ∃ t, step (issued done8 (.cmd 0x000004#24)) = .next t ∧ t.runState = .error) ∧
    (∃ t, step (issued done8 (.putZin [])) = .next t ∧ t.runState = .done) ∧
    (∃ t, step (issued done8 .hardReset) = .next t ∧ t.runState = .idle) ∧
    (error8.runState = .error ∧ ∃ t, step (issued error8 (.cmd 0x000001#24)) = .next t ∧ t.runState = .idle) :=
  ⟨⟨by decide, _, rfl, by decide⟩, ⟨_, rfl, by decide⟩, ⟨_, rfl, by decide⟩,
    by decide, _, rfl, by decide⟩

theorem witness_StatusFields : EngineInv error8 ∧ EngineInv done8 ∧ EngineInv enc1 ∧ EngineInv (dec0 pairs7) ∧ EngineInv idle8 :=
  ⟨error8_inv.engine, done8_inv.engine, enc1_inv.engine, dec0_inv.engine, idle8_inv.engine⟩

theorem witness_RegisterPortShowsTheState : EngineInv enc1 ∧ enc1.cfg.block < 2 ^ 32 := ⟨enc1_inv.engine, by decide⟩

/-- Widths 1 and 16 complete, 0 and 17 are refused; `widx` at the ends of its range. -/
theorem witness_WritePairAppendsItsBits :
    ((0#5).toNat = 0 ∨ 16 < (0#5).toNat) ∧ ((17#5).toNat = 0 ∨ 16 < (17#5).toNat) ∧
    (idle4.widx < 8 * idle4.cfg.block ∧ 1 ≤ (1#5).toNat ∧ (1#5).toNat ≤ 16) ∧
    (let s := { idle8 with widx := 31 }
     s.widx < 8 * s.cfg.block ∧ 1 ≤ (16#5).toNat ∧ (16#5).toNat ≤ 16) := by decide

/-- A pair; a pair after the end of ZIN; the read that a sentinel forbids. -/
theorem witness_ReadPairLatchesTheNextPair :
    (EngineInv (dec0 pairs7) ∧ (dec0 pairs7).zin.length < 2 ^ 64 ∧ (dec0 pairs7).rpCode ≠ stopCode ∧
      1 ≤ (2#5).toNat ∧ (2#5).toNat ≤ 16) ∧
    (EngineInv idle4 ∧ idle4.zin.length < 2 ^ 64 ∧ idle4.rpCode ≠ stopCode ∧ 1 ≤ (16#5).toNat ∧ (16#5).toNat ≤ 16) ∧
    ((17#5).toNat = 0 ∨ 16 < (17#5).toNat) ∧
    (∃ t, exec (.readPair 2#5) (dec0 [0x01#8, 0x00#8]) = .next t ∧ t.hasMore = false) ∧
    1 ≤ (1#5).toNat ∧ (1#5).toNat ≤ 16 :=
  ⟨⟨dec0_inv.engine, by decide⟩, ⟨idle4_inv.engine, by decide⟩, by decide,
    ⟨after (.readPair 2#5) (dec0 [0x01#8, 0x00#8]), after_eq (by decide), by decide⟩, by decide⟩

theorem witness_FlushEmitsThePendingBits :
    idle4.widx < 8 * idle4.cfg.block ∧ enc1.widx < 8 * enc1.cfg.block ∧
    (let s := { idle8 with widx := 31 }; s.widx < 8 * s.cfg.block) ∧
    (let s := { idle8 with widx := 24 }; s.widx < 8 * s.cfg.block) := by decide

theorem witness_WriteWordAppendsItsBytes :
    idle4.oidx < idle4.cfg.block ∧ (let s := { idle8 with oidx := 3 }; s.oidx < s.cfg.block) := by decide

theorem witness_FlushWordsEmitsThePendingBytes :
    idle4.oidx < idle4.cfg.block ∧ (let s := { idle8 with oidx := 3 }; s.oidx < s.cfg.block) := by decide

theorem witness_BitChannelIsALeaf : isBitChannel (.writePair 0 0x61#8 2#5) = true ∧ isBitChannel (.readPair 2#5) = true := by
  decide

theorem witness_ReadPairInvertsWritePair :
    let ps : List WirePair := [{ code := 0, sym := 0x61#8, width := 1 }, { code := 0xFFFF, sym := 0, width := 16 },
      { code := 1, sym := 0, width := 2 }]
    cfg8.Ok ∧ cfg4.Ok ∧ cfg4.headerPad = cfg8.headerPad ∧
      (∀ p ∈ ps, 1 ≤ p.width ∧ p.width ≤ 16 ∧ p.code.toNat < 2 ^ p.width) ∧ (∀ p ∈ ps.dropLast, p.code ≠ stopCode) ∧
      nextWith (andThen (exec (.writeHeader 1 2) (State.resetOf cfg8)) (fun s1 => andThen (writeAll ps s1) (exec .flush)))
        (fun t => decide (t.zout.length < 2 ^ 64)) = true := by
  refine ⟨cfg8_ok, cfg4_ok, rfl, by decide, by decide, ?_⟩
  decide

/-- Pairs with a FLUSH in between, a word longer than OBUF, a trie operation; and reads that pass the end of the wire. BLOCK 1. -/
theorem witness_PortsDoNotDependOnBlock :
    let given : List Instr := [.writePair 0 0x61#8 2#5, .flush, .writePair 5 0#8 16#5, .writeWord [1#8, 2#8, 3#8], .trieCreate]
    let taken : List Instr := [.readPair 2#5, .flushWords]
    let s := waiting cfg4 (header6 ++ [0x84#8, 0x01#8])
    cfg4.Ok ∧ (∀ i ∈ given, isUnitOperation i = true) ∧ (∀ i ∈ given, isWriteHeader i = false) ∧
      nextWith (execAll given s) (fun _ => true) = true ∧
      nextWith (execAll (.writeHeader 1 2 :: given) s) (fun _ => true) = true ∧
    (∀ i ∈ taken, isUnitOperation i = true) ∧ (∀ i ∈ taken, i ≠ .readHeader) ∧ s.zin.length < 2 ^ 64 ∧
      nextWith (execAll (.readHeader :: taken) s) (fun _ => true) = true := by
  refine ⟨cfg4_ok, ?_⟩
  decide

theorem live_tree2 {n : Code} (h : trieReady tree2 n = true) : LiveNode tree2 n := (liveNode_iff tree2_inv n).2 h

theorem dead_tree2 {n : Code} (h : trieReady tree2 n = false) : ¬ LiveNode tree2 n := fun hl => by
  have := (liveNode_iff tree2_inv n).1 hl; rw [h] at this; exact absurd this (by decide)

theorem witness_TrieStepShowsTheChild :
    EngineInv tree2 ∧ LiveNode tree2 0 ∧ LiveNode tree2 3 ∧ ¬ LiveNode tree2 4 ∧ ¬ LiveNode tree2 1 :=
  ⟨tree2_inv, live_tree2 (by decide), live_tree2 (by decide), dead_tree2 (by decide),
    dead_tree2 (by decide)⟩

/-- A free slot of a leaf, with the code at the top of the range and the two just outside it; the two undefined cases. -/
theorem witness_TrieInsertAddsOneChild :
    EngineInv tree2 ∧
    (LiveNode tree2 3 ∧ childAt tree2 3 0xFF#8 = none ∧ ¬ LiveNode tree2 7 ∧ 2 ≤ (7#16).toNat ∧
      (7#16).toNat < tree2.cfg.maxCode) ∧
    (¬ LiveNode tree2 1 ∧ (1#16).toNat < 2) ∧ (¬ LiveNode tree2 8 ∧ tree2.cfg.maxCode ≤ (8#16).toNat) ∧
    ¬ LiveNode tree2 4 ∧ childAt tree2 0 0x61#8 ≠ none ∧ LiveNode tree2 2 :=
  ⟨tree2_inv, ⟨live_tree2 (by decide), by decide, dead_tree2 (by decide), by decide⟩,
    ⟨dead_tree2 (by decide), by decide⟩, ⟨dead_tree2 (by decide), by decide⟩,
    dead_tree2 (by decide), by decide, live_tree2 (by decide)⟩

theorem witness_TrieResetKeepsOnlyTheRoot : tree2.trieLive = true ∧ idle8.trieLive = false := by decide

theorem witness_TrieDeleteRemovesTheSubtree : EngineInv tree2 ∧ LiveNode tree2 2 ∧ LiveNode tree2 0 ∧ ¬ LiveNode tree2 4 :=
  ⟨tree2_inv, live_tree2 (by decide), live_tree2 (by decide), dead_tree2 (by decide)⟩

theorem witness_WtLookupShowsTheWord :
    idle8.wtLive = false ∧ (table1.wtLive = true ∧ wordAt table1 1 = none) ∧ wordAt table1 0 = some [] ∧
      wordAt table1 2 = some [0x61#8] := by decide

/-- A free slot at the top of the range; a populated one, 1 and MAX_CODE; an unassigned parent. -/
theorem witness_WtAssignAppendsOneByte :
    idle8.wtLive = false ∧ table1.wtLive = true ∧ wordAt table1 2 ≠ none ∧ (1#16).toNat < 2 ∧
    table1.cfg.maxCode ≤ (8#16).toNat ∧
    (wordAt table1 7 = none ∧ 2 ≤ (7#16).toNat ∧ (7#16).toNat < table1.cfg.maxCode) ∧
    wordAt table1 3 = none ∧ wordAt table1 2 = some [0x61#8] := by decide

theorem witness_WtResetKeepsTheEmptyWord : table1.wtLive = true ∧ idle8.wtLive = false := by decide

theorem witness_WtDeleteEmptiesTheTable : table1.wtLive = true ∧ ∃ t, exec .wtDelete table1 = .next t :=
  ⟨by decide, isSome_next (by decide)⟩

theorem witness_StopsTheModelDeduces :
    (let s := after .decPair (dec0 [0x01#8, 0x00#8])
     s.rpCode = stopCode ∧ 1 ≤ (1#5).toNat ∧ (16#5).toNat ≤ 16) ∧ idle8.wtLive = false := by decide

theorem witness_WordsAreNeverModified :
    EngineInv (after .decPair (dec0 pairs7)) ∧ (∃ t, exec .decPair (after .decPair (dec0 pairs7)) = .next t) ∧
      wordAt (after .decPair (dec0 pairs7)) 2 = some [0x61#8] :=
  ⟨dec1_inv.engine, isSome_next (by decide), by decide⟩

theorem witness_EncStartOpensAnEncodeRun : idle8.runState = .idle ∧ error8.runState ≠ .idle := by decide

/-- The match extended; broken below MAX_CODE - 1; broken at it. -/
theorem witness_EncSymExtendsOrBreaksTheMatch :
    (enc1.runState = .enc ∧ EngineInv enc1 ∧ EncInv enc1 ∧ childAt enc1 enc1.cur 0x61#8 = some 2#16) ∧
    (childAt enc1 enc1.cur 0x62#8 = none ∧ enc1.nextCode.toNat + 1 ≠ enc1.cfg.maxCode) ∧
    (encTop.runState = .enc ∧ EngineInv encTop ∧ EncInv encTop ∧ childAt encTop encTop.cur 0x62#8 = none ∧
      encTop.nextCode.toNat + 1 = encTop.cfg.maxCode) ∧ idle8.runState ≠ .enc :=
  ⟨⟨by decide, enc1_inv.engine, enc1_inv.enc (by decide), by decide⟩, by decide,
    ⟨by decide, encTop_inv.engine, encTop_inv.enc (by decide), by decide⟩, by decide⟩

/-- No match outstanding, and one. -/
theorem witness_EncEndClosesTheStream :
    (enc0.runState = .enc ∧ EngineInv enc0 ∧ EncInv enc0 ∧ enc0.cur = emptyCode) ∧
    (enc2.runState = .enc ∧ EngineInv enc2 ∧ EncInv enc2 ∧ enc2.cur ≠ emptyCode) ∧ idle8.runState ≠ .enc :=
  ⟨⟨by decide, enc0_inv.engine, enc0_inv.enc (by decide), by decide⟩,
    ⟨by decide, enc2_inv.engine, enc2_inv.enc (by decide), by decide⟩, by decide⟩

theorem witness_DecStartChecksTheMagic :
    (let s := waiting cfg8 header6
     s.runState = .idle ∧ headerMagic (upcomingHeader s) = s.cfg.magic) ∧
    (let s := waiting cfg8 [0xAC#8, 0xBA#8]
     s.runState = .idle ∧ headerMagic (upcomingHeader s) ≠ s.cfg.magic) ∧ enc0.runState ≠ .idle := by decide

/-- The sentinel; a literal; a reference at the top of the counter's range; an unassigned code. -/
theorem witness_DecPairDecodesOnePair :
    ((dec0 [0x01#8, 0x00#8]).runState = .dec ∧ EngineInv (dec0 [0x01#8, 0x00#8]) ∧ DecInv (dec0 [0x01#8, 0x00#8]) ∧
      (dec0 [0x01#8, 0x00#8]).zin.length < 2 ^ 64 ∧ upcomingCode (dec0 [0x01#8, 0x00#8]) = 1#16) ∧
    ((dec0 [0x87#8, 0x01#8]).runState = .dec ∧ EngineInv (dec0 [0x87#8, 0x01#8]) ∧ DecInv (dec0 [0x87#8, 0x01#8]) ∧
      upcomingCode (dec0 [0x87#8, 0x01#8]) ≠ 1#16 ∧
      wordAt (dec0 [0x87#8, 0x01#8]) (upcomingCode (dec0 [0x87#8, 0x01#8])) = none) ∧
    ((dec0 pairs7).runState = .dec ∧ EngineInv (dec0 pairs7) ∧ DecInv (dec0 pairs7) ∧ upcomingCode (dec0 pairs7) ≠ 1#16 ∧
      wordAt (dec0 pairs7) (upcomingCode (dec0 pairs7)) = some [] ∧
      (dec0 pairs7).nextCode.toNat + 1 ≠ (dec0 pairs7).cfg.maxCode) ∧
    (decTop.runState = .dec ∧ EngineInv decTop ∧ DecInv decTop ∧ upcomingCode decTop ≠ 1#16 ∧
      wordAt decTop (upcomingCode decTop) = some [] ∧ decTop.nextCode.toNat + 1 = decTop.cfg.maxCode) ∧
    idle8.runState ≠ .dec :=
  ⟨⟨by decide, decStop_inv.engine, decStop_inv.dec (by decide), by decide⟩,
    ⟨by decide, decUndef_inv.engine, decUndef_inv.dec (by decide), by decide⟩,
    ⟨by decide, dec0_inv.engine, dec0_inv.dec (by decide), by decide⟩,
    ⟨by decide, decTop_inv.engine, decTop_inv.dec (by decide), by decide⟩, by decide⟩

theorem witness_DecPairRunsThePairOnTheWire :
    (dec0 pairs7).runState = .dec ∧ EngineInv (dec0 pairs7) ∧ DecInv (dec0 pairs7) ∧ (dec0 pairs7).zin.length < 2 ^ 64 :=
  ⟨by decide, dec0_inv.engine, dec0_inv.dec (by decide), by decide⟩

/-- HEADER in and out of IDLE; the pairs out of DEC and in it, a reference to the highest assigned code, and at MAX_CODE - 1. -/
theorem witness_WireUnitsComplete :
    (enc0.runState ≠ .idle ∧ enc0.runState ≠ .dec) ∧ (idle8.runState = .idle ∧ 0#32 ≠ idle8.cfg.magic) ∧
    0xBAADBAAC#32 = idle8.cfg.magic ∧
    (let s := after .decPair (dec0 pairs7)
     s.runState = .dec ∧ EngineInv s ∧ DecInv s ∧ 2 ≤ (2#16).toNat ∧ (2#16).toNat < s.nextCode.toNat ∧
       s.nextCode.toNat + 1 ≠ s.cfg.maxCode) ∧
    (decTop.runState = .dec ∧ EngineInv decTop ∧ DecInv decTop ∧ (2#16).toNat < decTop.nextCode.toNat ∧
      decTop.nextCode.toNat + 1 = decTop.cfg.maxCode) :=
  ⟨by decide, by decide, by decide,
    ⟨by decide, dec1_inv.engine, dec1_inv.dec (by decide), by decide⟩,
    by decide, decTop_inv.engine, decTop_inv.dec (by decide), by decide⟩

/-- Where the epoch ends at MAX_CODE 8 the width falls from 3 to 2, by each of the three commands; within an epoch it grows; and
each command that codes no data pair. -/
theorem witness_WidthGrowsWithinAnEpoch :
    (HostInv encEdge ∧ encEdge.runState = .enc ∧ encEdge.nextCode.toNat + 1 = encEdge.cfg.maxCode ∧
      (codeWidth encEdge).toNat = 3 ∧ childAt encEdge encEdge.cur 0x66#8 = none ∧
      ∃ t, exec (.encSym 0x66#8) encEdge = .next t ∧ codedPair encEdge t (.encSym 0x66#8) ∧ (codeWidth t).toNat = 2) ∧
    (HostInv encEdgeMatch ∧ encEdgeMatch.runState = .enc ∧ encEdgeMatch.nextCode.toNat + 1 = encEdgeMatch.cfg.maxCode ∧
      ∃ t, exec .encEnd encEdgeMatch = .next t ∧ codedPair encEdgeMatch t .encEnd ∧ (codeWidth t).toNat = 2) ∧
    (HostInv decEdge ∧ decEdge.runState = .dec ∧ decEdge.nextCode.toNat + 1 = decEdge.cfg.maxCode ∧
      (codeWidth decEdge).toNat = 3 ∧
      ∃ t, exec .decPair decEdge = .next t ∧ codedPair decEdge t .decPair ∧ (codeWidth t).toNat = 2) ∧
    (HostInv enc1 ∧ enc1.runState = .enc ∧ enc1.nextCode.toNat + 1 ≠ enc1.cfg.maxCode ∧ (codeWidth enc1).toNat = 2 ∧
      ∃ t, exec (.encSym 0x62#8) enc1 = .next t ∧ codedPair enc1 t (.encSym 0x62#8) ∧ (codeWidth t).toNat = 3) ∧
    (∃ t, exec (.encSym 0x61#8) enc1 = .next t ∧ ¬ codedPair enc1 t (.encSym 0x61#8)) ∧
    (HostInv enc0 ∧ enc0.runState = .enc ∧ ∃ t, exec .encEnd enc0 = .next t ∧ ¬ codedPair enc0 t .encEnd) ∧
    (HostInv (dec0 [0x01#8, 0x00#8]) ∧ (dec0 [0x01#8, 0x00#8]).runState = .dec ∧
      ∃ t, exec .decPair (dec0 [0x01#8, 0x00#8]) = .next t ∧ ¬ codedPair (dec0 [0x01#8, 0x00#8]) t .decPair) :=
  ⟨⟨encEdge_inv, by decide, by decide, by decide, by decide, _, after_eq (by decide),
      show childAt encEdge encEdge.cur 0x66#8 = none by decide, by decide⟩,
    ⟨encEdgeMatch_inv, by decide, by decide, _, after_eq (by decide), show encEdgeMatch.cur ≠ emptyCode by decide, by decide⟩,
    ⟨decEdge_inv, by decide, by decide, by decide, _, after_eq (by decide),
      show (after .decPair decEdge).hasMore = true by decide, by decide⟩,
    ⟨enc1_inv, by decide, by decide, by decide, _, after_eq (by decide), show childAt enc1 enc1.cur 0x62#8 = none by decide,
      by decide⟩,
    ⟨_, after_eq (by decide), show ¬ childAt enc1 enc1.cur 0x61#8 = none by decide⟩,
    ⟨enc0_inv, by decide, _, after_eq (by decide), show ¬ enc0.cur ≠ emptyCode by decide⟩,
    decStop_inv, by decide, _, after_eq (by decide), show ¬ (after .decPair (dec0 [0x01#8, 0x00#8])).hasMore = true by decide⟩

/-- Two data pairs, and none. -/
theorem witness_EpochSynchrony :
    (HostInv enc0 ∧ enc0.runState = .enc ∧ enc0.child = [] ∧ enc0.cur = emptyCode ∧ enc0.nextCode = startCode) ∧
    (HostInv (dec0 pairs7) ∧ (dec0 pairs7).runState = .dec ∧ (dec0 pairs7).nextCode = startCode ∧
      nextWith (serve (pairInputs 2) (dec0 pairs7)) (fun t => decide (t.runState = .dec)) = true ∧
      nextWith (serve (pairInputs 0) (dec0 pairs7)) (fun t => decide (t.runState = .dec)) = true) :=
  ⟨⟨enc0_inv, by decide⟩, dec0_inv, by decide⟩

/-- A wire that ends after its header. -/
theorem witness_TruncatedWireNeverEnds :
    ((dec0 []).ridx = 8 * (dec0 []).cfg.block ∧ (dec0 []).zin.length ≤ (dec0 []).zinPos.toNat) ∧
    HostInv (dec0 []) ∧ (dec0 []).runState = .dec ∧ (dec0 []).zin.length < 2 ^ 64 ∧ ∀ k, upcomingBit (dec0 []) k = false := by
  refine ⟨by decide, decEmpty_inv, by decide, by decide, fun k => ?_⟩
  have h1 : (dec0 []).ridx = 8 * (dec0 []).cfg.block := by decide
  have h2 : (dec0 []).zin = header6 := by decide
  have h3 : (dec0 []).zinPos.toNat = 6 := by decide
  unfold upcomingBit inByte
  rw [if_neg (by omega), h2, h3]
  dsimp only
  rw [List.getD_eq_default _ _ (by show 6 ≤ _; omega)]
  simp

/-- A run that reaches DONE, and one still in DEC. -/
theorem witness_DecoderReadsAheadByBlocks :
    cfg8.Ok ∧ (header6 ++ pairs7).length < 2 ^ 64 ∧ 24 * 5 < 2 ^ 64 ∧
    nextWith (serve (decodeInputs (header6 ++ pairs7) 1) idle8) (fun t => decide (t.runState = .dec)) = true ∧
    nextWith (serve (decodeInputs (header6 ++ pairs7) 5) idle8) (fun t => decide (t.runState = .done)) = true :=
  ⟨cfg8_ok, by decide, by decide, by decide, by decide⟩

theorem witness_EmittedBytesAreFinal : Instr.encEnd ≠ .reset ∧ ∃ t, exec .encEnd enc2 = .next t :=
  ⟨by decide, isSome_next (by decide)⟩

theorem witness_ConfigurationNeverChanges : ∃ t, step (issued enc2 (.cmd 0x000004#24)) = .next t :=
  isSome_next (by decide)

theorem witness_OnlyTheHostWritesZin :
    (∃ t, exec .decPair (dec0 pairs7) = .next t) ∧
    ((issued idle8 (.putZin header6)).unitIn = none ∧ (issued idle8 (.putZin header6)).cmdIn = .putZin header6 :: []) ∧
    ∃ t, step (issued idle8 (.putZin header6)) = .next t ∧ t.zin ≠ (issued idle8 (.putZin header6)).zin :=
  ⟨isSome_next (by decide), ⟨rfl, rfl⟩, _, rfl, by decide⟩

/-- The ends of R9's range: MAX_CODE 4 with BLOCK 1, and MAX_CODE 65536. -/
theorem witness_InvariantsHoldAtReset : cfg4.Ok ∧ Config.Ok { cfg8 with maxCode := 65536 } := by decide

/-- A request on the trie of two nodes. -/
def asked (q : UnitRequest) : State := requestUnit q tree2

theorem asked_inv (q : UnitRequest) : EngineInv (asked q) :=
  tree2_inv.ports tree2.zin tree2.zout tree2.sout tree2.zinPos tree2.cmdIn (some q) tree2.unitOut

/-- A TRIE_INSERT at the top of its operand range, and a request that is none. -/
theorem witness_EveryStepKeepsEngineInv :
    let insert7 : UnitRequest := { opid := 0x22#8, ports := { UnitPorts.zero with byte := 0x62#8, code := 7#16 } }
    let reset : UnitRequest := { opid := 0x23#8, ports := .zero }
    (EngineInv (asked insert7) ∧ NodeNames (asked insert7).cfg.maxCode (asked insert7).child ∧
      (∀ node byte code, (fetch (asked insert7)).1 = .instr (.trieInsert node byte code) →
        2 ≤ code.toNat ∧ code.toNat < (asked insert7).cfg.maxCode) ∧
      ∃ t, step (asked insert7) = .next t) ∧
    (EngineInv (asked reset) ∧ NodeNames (asked reset).cfg.maxCode (asked reset).child ∧
      (∀ node byte code, (fetch (asked reset)).1 = .instr (.trieInsert node byte code) →
        2 ≤ code.toNat ∧ code.toNat < (asked reset).cfg.maxCode) ∧
      ∃ t, step (asked reset) = .next t) := by
  refine ⟨⟨asked_inv _, ⟨by decide, by decide⟩, fun node byte code h => ?_, isSome_next (by decide)⟩,
    asked_inv _, ⟨by decide, by decide⟩, fun node byte code h => ?_, isSome_next (by decide)⟩
  · have h : Fetched.instr (.trieInsert 0#16 0x62#8 7#16) = .instr (.trieInsert node byte code) := h
    injection h with h
    injection h with _ _ h
    subst h
    decide
  · have h : Fetched.instr .trieReset = .instr (.trieInsert node byte code) := h
    injection h with h
    injection h

theorem witness_EveryStepKeepsHostInv :
    HostInv (issued enc2 (.cmd 0x000004#24)) ∧ ∃ t, step (issued enc2 (.cmd 0x000004#24)) = .next t :=
  ⟨issued_inv enc2_inv _, isSome_next (by decide)⟩

/-- One state for each of the three answers. -/
theorem witness_HostReachesNoOtherStop :
    HostInv (issued enc2 (.cmd 0x000004#24)) ∧
    (HostInv (issued (dec0 [0x87#8, 0x01#8]) (.cmd 0x000006#24)) ∧
      faultsWith (step (issued (dec0 [0x87#8, 0x01#8]) (.cmd 0x000006#24))) .unassignedCode = true) ∧
    (HostInv (issued (dec0 pairs7) (.putZin [])) ∧
      refusedWith (step (issued (dec0 pairs7) (.putZin []))) .zinChangedInRun = true) :=
  ⟨issued_inv enc2_inv _, ⟨issued_inv decUndef_inv _, by decide⟩, issued_inv dec0_inv _, by decide⟩

theorem witness_EncodeEmitsTheLz78Wire : cfg8.Ok ∧ cfg4.Ok ∧ State.reset.cfg.Ok := by
  refine ⟨cfg8_ok, cfg4_ok, ?_⟩
  decide

theorem witness_RoundTrip :
    idle8.cfg.Ok ∧ (State.resetOf { cfg8 with block := 1 }).cfg.Ok ∧
    (State.resetOf { cfg8 with block := 1 }).cfg.maxCode = idle8.cfg.maxCode ∧
    (State.resetOf { cfg8 with block := 1 }).cfg.magic = idle8.cfg.magic ∧
    (State.resetOf { cfg8 with block := 1 }).cfg.headerPad = idle8.cfg.headerPad ∧
    nextWith (serve (encodeInputs 0x01A4#16 [0x61#8, 0x61#8]) idle8) (fun t => decide (t.zout.length < 2 ^ 64)) = true := by
  decide

/-- One byte altered, and an empty wire. -/
theorem witness_AlteredMagicIsRejected :
    idle8.cfg.Ok ∧
    headerMagic ((List.range 4).map (fun i => ([0xAD#8, 0xBA#8, 0xAD#8, 0xBA#8] : ByteSeq).getD i 0#8)) ≠ idle8.cfg.magic ∧
    headerMagic ((List.range 4).map (fun i => ([] : ByteSeq).getD i 0#8)) ≠ idle8.cfg.magic := by decide

theorem witness_SentinelIsLastAndOnlyLast : idle8.cfg.Ok ∧ idle4.cfg.Ok := ⟨cfg8_ok, cfg4_ok⟩

/-- A run that ends in DONE, and one that stops on an unassigned code. -/
theorem witness_DecodedBytesDoNotDependOnBlock :
    idle8.cfg.Ok ∧ (State.resetOf { cfg8 with block := 1 }).cfg.Ok ∧
    (State.resetOf { cfg8 with block := 1 }).cfg.maxCode = idle8.cfg.maxCode ∧
    (State.resetOf { cfg8 with block := 1 }).cfg.magic = idle8.cfg.magic ∧
    (State.resetOf { cfg8 with block := 1 }).cfg.headerPad = idle8.cfg.headerPad ∧
    (header6 ++ pairs7).length < 2 ^ 64 ∧
    nextWith (serve (decodeInputs (header6 ++ pairs7) 5) idle8) (fun t => decide (t.runState = .done)) = true ∧
    faultsWith (serve (decodeInputs (header6 ++ [0x87#8, 0x01#8]) 1) idle8) .unassignedCode = true := by decide

end Sys2Proof.Tests
end

section
/-! Which instruction a step runs (00_scope.md R13, R16): the unit-request side of `fetch` and `step`. The command side is
`step_cmd`. -/

namespace Sys2Proof.Machine

/-- A pending unit request goes before every host input (log entry 4). -/
theorem fetch_of_request {s : State} {r : UnitRequest} (hu : s.unitIn = some r) :
    fetch s = (fetchUnit r, { s with unitIn := none }) := by
  simp only [fetch, hu]

theorem fetchUnit_of_ok {r : UnitRequest} {i : Instr} (hd : decodeUnit r = .ok i) : fetchUnit r = .instr i := by
  simp only [fetchUnit, hd]

theorem fetchUnit_of_error {r : UnitRequest} {e : DecodeError} (hd : decodeUnit r = .error e) :
    fetchUnit r = .unknownUnit := by
  simp only [fetchUnit, hd]

theorem step_request {s : State} {r : UnitRequest} {i : Instr} (hu : s.unitIn = some r) (hd : decodeUnit r = .ok i) :
    step s = exec i { s with unitIn := none } := by
  simp only [step, fetch_of_request hu, fetchUnit_of_ok hd]

theorem step_unknown_request {s : State} {r : UnitRequest} {e : DecodeError} (hu : s.unitIn = some r)
    (hd : decodeUnit r = .error e) : step s = .refused .unknownUnitOperation := by
  simp only [step, fetch_of_request hu, fetchUnit_of_error hd]

/-- Settles O4: each clause is the rule of `step` for what is next on the engine's ports: a command word, a unit request, a
request with no operation. -/
theorem stepRunsTheDecodedInstruction : Obligations.StepRunsTheDecodedInstruction := by
  refine ⟨?command, ?request, ?unknownRequest⟩
  case command => exact fun _ _ _ _ hu hx hd => step_cmd hu hx hd
  case request => exact fun _ _ _ hu hd => step_request hu hd
  case unknownRequest => exact fun _ _ _ hu hd => step_unknown_request hu hd

end Sys2Proof.Machine
end

section
/-! Family 10_state: what one step can answer, and what every step keeps (10_state.md R22 to R37, 60_exceptions.md R184). -/

namespace Sys2Proof.Machine

/-! ### STATUS and the REG port -/

/-- STATUS as a number: STATE from bit 0, ERR from bit 3, HAS_MORE from bit 6 (10_state.md R30). -/
theorem statusReg_toNat (s : State) :
    (statusReg s).toNat = 64 * s.hasMore.toNat + 8 * s.err.toNat + s.runState.code.toNat := by
  have hcode := s.runState.code.isLt
  have herr := s.err.isLt
  unfold statusReg
  rw [BitVec.toNat_append, BitVec.toNat_append, BitVec.toNat_append, ← Nat.shiftLeft_add_eq_or_of_lt hcode,
    ← Nat.shiftLeft_add_eq_or_of_lt herr, ← Nat.shiftLeft_add_eq_or_of_lt (BitVec.ofBool s.hasMore).isLt,
    BitVec.toNat_ofBool]
  simp only [Nat.shiftLeft_eq, BitVec.toNat_ofNat]
  omega

theorem statusReg_state (s : State) : (statusReg s).toNat % 8 = s.runState.code.toNat := by
  have hcode := s.runState.code.isLt
  rw [statusReg_toNat]
  omega

theorem statusReg_err (s : State) : (statusReg s).toNat / 8 % 8 = s.err.toNat := by
  have hcode := s.runState.code.isLt
  have herr := s.err.isLt
  rw [statusReg_toNat]
  omega

theorem statusReg_hasMore (s : State) : (statusReg s).getLsbD 6 = s.hasMore := by
  unfold statusReg
  rw [BitVec.getLsbD_append, BitVec.getLsbD_append, BitVec.getLsbD_append]
  simp

theorem statusReg_top (s : State) : (statusReg s).getLsbD 7 = false := by
  unfold statusReg
  rw [BitVec.getLsbD_append, BitVec.getLsbD_append, BitVec.getLsbD_append]
  simp

/-- Settles O12: each field is read off the number that STATUS is; ERR non-zero exactly in ERROR is a clause of `EngineInv`. -/
theorem statusFields : Obligations.StatusFields := by
  intro s he
  obtain ⟨hiff, hle⟩ := he.errors
  refine ⟨?state, statusReg_err s, hle, statusReg_hasMore s, statusReg_top s, ?errorIff⟩
  case state =>
    rw [statusReg_state]
    cases s.runState <;> rfl
  case errorIff =>
    rw [statusReg_err, ← hiff]
    exact not_congr (BitVec.toNat_inj (y := 0#3))

/-- A register shown on the 64-bit port keeps its value. -/
theorem toNat_shown {w : Nat} (x : BitVec w) (hw : w ≤ 64) : (x.setWidth 64).toNat = x.toNat :=
  BitVec.toNat_setWidth_of_le hw

theorem shown_lt {w : Nat} (x : BitVec w) (hw : w ≤ 64) : (x.setWidth 64).toNat < 2 ^ w := by
  rw [toNat_shown x hw]
  exact x.isLt

theorem regRead_unused (s : State) {n : Nat} (hn : 11 ≤ n) : regRead s n = 0 := by
  obtain ⟨k, rfl⟩ := Nat.exists_eq_add_of_le' hn
  rfl

/-- Each register fits the width that the table of R29 gives it. -/
theorem regRead_lt_width (s : State) (n : Nat) : (regRead s n).toNat < 2 ^ regWidth n :=
  match n with
  | 0 => shown_lt (statusReg s) (by decide)
  | 1 => shown_lt s.nextCode (by decide)
  | 2 => shown_lt (codeWidth s) (by decide)
  | 3 => shown_lt s.prot (by decide)
  | 4 => s.totalBits.isLt
  | 5 => s.totalSyms.isLt
  | 6 => shown_lt (BitVec.ofNat 17 s.cfg.maxCode) (by decide)
  | 7 => shown_lt (BitVec.ofNat 32 s.cfg.block) (by decide)
  | 8 => shown_lt s.cfg.magic (by decide)
  | 9 => shown_lt s.cur (by decide)
  | 10 => s.zinPos.isLt
  | _ + 11 => Nat.one_pos

/-- Settles O13: a register read is its field, zero-extended; `CFG_MAX_CODE` and `CFG_BLOCK` fit their 17 and 32 bits. -/
theorem registerPortShowsTheState : Obligations.RegisterPortShowsTheState := by
  intro s he hblock
  have hmax : s.cfg.maxCode < 2 ^ 17 := Nat.lt_of_le_of_lt he.params.2.1 (by decide)
  refine ⟨toNat_shown (statusReg s) (by decide), toNat_shown s.nextCode (by decide), ?width, toNat_shown s.prot (by decide),
    rfl, rfl, ?maxCode, ?block, toNat_shown s.cfg.magic (by decide), toNat_shown s.cur (by decide), rfl,
    fun n hn => regRead_unused s hn, regRead_lt_width s⟩
  case width => exact (toNat_shown (codeWidth s) (by decide)).trans (codeWidth_toNat s)
  case maxCode =>
    exact (toNat_shown (BitVec.ofNat 17 s.cfg.maxCode) (by decide)).trans (Nat.mod_eq_of_lt hmax)
  case block =>
    exact (toNat_shown (BitVec.ofNat 32 s.cfg.block) (by decide)).trans (Nat.mod_eq_of_lt hblock)

/-! ### Right after reset -/

theorem standard_ok : Config.standard.Ok :=
  ⟨by decide, by decide, by rw [show Config.standard.maxCode = 2 ^ 16 from rfl, Nat.log2_two_pow], by decide⟩

/-- The reset state is a state that reset leaves as it is. -/
theorem resetOf_hostInv {cfg : Config} (h : cfg.Ok) : HostInv (State.resetOf cfg) :=
  resetState_hostInv (s := State.resetOf cfg) h rfl

/-- Settles O51: at the reset state of a legal engine every map is empty and every cursor at its start. -/
theorem invariantsHoldAtReset : Obligations.InvariantsHoldAtReset :=
  ⟨⟨resetOf_engineInv standard_ok, resetOf_hostInv standard_ok⟩,
    fun _ h => ⟨resetOf_engineInv h, resetOf_hostInv h, NodeNames.empty _⟩⟩

/-! ### The configuration -/

/-- Settles O49: no operation writes the parameters, and neither does error entry, reset or the host. -/
theorem configurationNeverChanges : Obligations.ConfigurationNeverChanges := by
  intro s t ht
  rcases step_cases ht with rfl | ⟨i, xs, r, hexec⟩ | ⟨xs, rfl⟩ | ⟨xs, rfl⟩ | ⟨wire, rest, -, -, rfl⟩
  · rfl
  · exact (exec_same hexec).cfg
  · exact raiseError_cfg _ _
  · rfl
  · rfl

/-! ### What a step can answer, by what it fetched -/

theorem fetch_of_input {s : State} (hu : s.unitIn = none) {x : HostInput} {rest : List HostInput}
    (hx : s.cmdIn = x :: rest) : fetch s = (fetchInput x, { s with cmdIn := rest }) := by
  simp only [fetch, hu, hx]

theorem fetch_of_nothing {s : State} (hu : s.unitIn = none) (hx : s.cmdIn = []) : fetch s = (.nothing, s) := by
  simp only [fetch, hu, hx]

/-- With no unit request pending, only the host's queue is taken from. -/
theorem fetch_state_of_noRequest {s : State} (hu : s.unitIn = none) : ∃ xs, (fetch s).2 = { s with cmdIn := xs } := by
  cases hx : s.cmdIn with
  | nil => exact ⟨s.cmdIn, by rw [fetch_of_nothing hu hx]⟩
  | cons x rest => exact ⟨rest, by rw [fetch_of_input hu hx]⟩

/-- Taking a request off its port changes the ports only. -/
theorem fetch_state (s : State) : ∃ xs r, (fetch s).2 = { s with cmdIn := xs, unitIn := r } := by
  cases hu : s.unitIn with
  | some r => exact ⟨s.cmdIn, none, by rw [fetch_of_request hu]⟩
  | none =>
    obtain ⟨xs, hxs⟩ := fetch_state_of_noRequest hu
    exact ⟨xs, s.unitIn, hxs⟩

theorem fetchCmd_eq_instr {w : BitVec 24} {i : Instr} (hf : fetchCmd w = .instr i) : decodeCmd w = .ok i := by
  unfold fetchCmd at hf
  cases hd : decodeCmd w with
  | ok j =>
    rw [hd] at hf
    rw [Fetched.instr.inj hf]
  | error e =>
    rw [hd] at hf
    cases hf

/-- With no unit request pending, an instruction is a command word that decodes (30_encoding.md R93). -/
theorem fetch_command {s : State} (hu : s.unitIn = none) {i : Instr} (hf : (fetch s).1 = .instr i) :
    ∃ w, decodeCmd w = .ok i := by
  cases hx : s.cmdIn with
  | nil =>
    rw [fetch_of_nothing hu hx] at hf
    cases hf
  | cons x rest =>
    rw [fetch_of_input hu hx] at hf
    cases x with
    | cmd w => exact ⟨w, fetchCmd_eq_instr hf⟩
    | hardReset => cases hf
    | putZin wire => cases hf

/-- The five ways a step answers a next state, with the request it served. -/
theorem step_eq_next {s t : State} (ht : step s = .next t) :
    ((fetch s).1 = .nothing ∧ t = (fetch s).2) ∨
    (∃ i, (fetch s).1 = .instr i ∧ exec i (fetch s).2 = .next t) ∨
    ((fetch s).1 = .illegalCommand ∧ t = raiseError errCmd (fetch s).2) ∨
    ((fetch s).1 = .hardReset ∧ t = resetState (fetch s).2) ∨
    ∃ wire, (fetch s).1 = .putZin wire ∧ placeZin wire (fetch s).2 = .next t := by
  unfold step at ht
  rcases hf : fetch s with ⟨f, u⟩
  rw [hf] at ht
  cases f with
  | nothing => exact .inl ⟨rfl, (Host.Outcome.next.inj ht).symm⟩
  | instr i => exact .inr (.inl ⟨i, rfl, ht⟩)
  | illegalCommand => exact .inr (.inr (.inl ⟨rfl, (Host.Outcome.next.inj ht).symm⟩))
  | unknownUnit => cases ht
  | hardReset => exact .inr (.inr (.inr (.inl ⟨rfl, (Host.Outcome.next.inj ht).symm⟩)))
  | putZin wire => exact .inr (.inr (.inr (.inr ⟨wire, rfl, ht⟩)))

theorem placeZin_eq_next {s t : State} {wire : ByteSeq} (ht : placeZin wire s = .next t) :
    s.runState ≠ .dec ∧ t = { s with zin := wire } := by
  unfold placeZin at ht
  split_ifs at ht with hd
  exact ⟨hd, (Host.Outcome.next.inj ht).symm⟩

/-- A command legal in one run state runs its body there and raises ERR_CMD elsewhere (43_codec.md R153). -/
theorem inState_eq_next {r : RunState} {s t : State} {body : Res State} (ht : inState r s body = .next t) :
    (s.runState = r ∧ body = .next t) ∨ (s.runState ≠ r ∧ t = raiseError errCmd s) := by
  by_cases hr : s.runState = r
  · rw [inState_of_eq _ hr] at ht
    exact .inl ⟨hr, ht⟩
  · rw [inState_of_ne _ hr] at ht
    exact .inr ⟨hr, (Host.Outcome.next.inj ht).symm⟩

/-! ### A host-driven engine -/

theorem inState_hostInv {r : RunState} {s t : State} {body : Res State} (h : HostInv s)
    (hlegal : s.runState = r → HostInv t) (ht : inState r s body = .next t) : HostInv t := by
  rcases inState_eq_next ht with ⟨hr, -⟩ | ⟨-, rfl⟩
  · exact hlegal hr
  · exact raiseError_hostInv h (.inr rfl)

/-- Every command keeps the run state's invariant: where it is not legal it raises ERR_CMD. -/
theorem command_hostInv {w : BitVec 24} {i : Instr} (hd : decodeCmd w = .ok i) {s t : State} (h : HostInv s)
    (ht : exec i s = .next t) : HostInv t := by
  rcases decodeCmd_forms hd with ⟨-, rfl⟩ | ⟨prot, -, rfl⟩ | ⟨sym, -, rfl⟩ | ⟨-, rfl⟩ | ⟨-, rfl⟩ | ⟨-, rfl⟩
  · obtain rfl := Host.Outcome.next.inj ht
    exact resetState_hostInv h.engine.params h.noRequest
  · exact inState_hostInv h (fun hr => encStart_hostInv h hr ht) ht
  · exact inState_hostInv h (fun hr => encSym_hostInv h hr ht) ht
  · exact inState_hostInv h (fun hr => encEnd_hostInv h hr ht) ht
  · exact inState_hostInv h (fun hr => decStart_hostInv h hr ht) ht
  · exact inState_hostInv h (fun hr => decPair_hostInv h hr ht) ht

/-- Settles O53: with no unit request pending a step serves a host input, and each kind of input keeps `HostInv`. -/
theorem everyStepKeepsHostInv : Obligations.EveryStepKeepsHostInv := by
  intro s t h ht
  obtain ⟨xs, hxs⟩ := fetch_state_of_noRequest h.noRequest
  have hu : HostInv (fetch s).2 := by
    rw [hxs]
    exact h.cmdIn xs
  rcases step_eq_next ht with ⟨-, rfl⟩ | ⟨i, hi, hexec⟩ | ⟨-, rfl⟩ | ⟨-, rfl⟩ | ⟨wire, -, hwire⟩
  · exact hu
  · obtain ⟨w, hd⟩ := fetch_command h.noRequest hi
    exact command_hostInv hd hu hexec
  · exact raiseError_hostInv hu (.inr rfl)
  · exact resetState_hostInv hu.engine.params hu.noRequest
  · obtain ⟨hdec, rfl⟩ := placeZin_eq_next hwire
    exact hu.placeZin hdec wire

/-! ### What the shared operations leave alone

Inside a command no shared operation writes the run state, so the command enters its next state from the one it was legal in; only
the trie operations write `child`. -/

/-- The run state, the counter and the trie's map are the same. -/
structure SameTrie (s t : State) : Prop where
  runState : t.runState = s.runState
  nextCode : t.nextCode = s.nextCode
  child : t.child = s.child

theorem SameTrie.trans {s t u : State} (h : SameTrie s t) (h' : SameTrie t u) : SameTrie s u :=
  ⟨h'.runState.trans h.runState, h'.nextCode.trans h.nextCode, h'.child.trans h.child⟩

theorem writePair_sameTrie {s t : State} {c : Code} {y : Byte} {w : Width} (ht : writePair c y w s = .next t) :
    SameTrie s t := by
  obtain ⟨-, -, rfl⟩ := writePair_eq_next ht
  rw [putBits_frame]
  exact ⟨rfl, rfl, rfl⟩

theorem afterBits_sameTrie (n : Nat) (s : State) : SameTrie s (afterBits n s) := by
  unfold afterBits
  rw [getBits_frame]
  exact ⟨rfl, rfl, rfl⟩

theorem readPair_sameTrie {s t : State} {w : Width} (ht : readPair w s = .next t) : SameTrie s t := by
  obtain ⟨-, -, -, -, rfl⟩ := readPair_eq_next ht
  exact (afterBits_sameTrie _ s).trans ⟨rfl, rfl, rfl⟩

theorem flush_sameTrie {s t : State} (ht : flush s = .next t) : SameTrie s t := by
  obtain ⟨-, rfl⟩ := flush_eq_next ht
  exact ⟨rfl, rfl, rfl⟩

theorem writeWord_sameTrie {s t : State} {xs : ByteSeq} (ht : writeWord xs s = .next t) : SameTrie s t := by
  obtain ⟨-, rfl⟩ := writeWord_eq_next ht
  rw [putBytesOut_frame]
  exact ⟨rfl, rfl, rfl⟩

theorem flushWords_sameTrie {s t : State} (ht : flushWords s = .next t) : SameTrie s t := by
  obtain ⟨-, rfl⟩ := flushWords_eq_next ht
  exact ⟨rfl, rfl, rfl⟩

theorem wtAssign_sameTrie {s t : State} {c p : Code} {b : Byte} (ht : wtAssign c p b s = .next t) : SameTrie s t := by
  obtain ⟨-, -, -, _, -, rfl⟩ := wtAssign_eq_next ht
  exact ⟨rfl, rfl, rfl⟩

theorem wtReset_sameTrie {s t : State} (ht : wtReset s = .next t) : SameTrie s t := by
  obtain ⟨-, rfl⟩ := wtReset_eq_next ht
  exact ⟨rfl, rfl, rfl⟩

theorem wtDelete_sameTrie {s t : State} (ht : wtDelete s = .next t) : SameTrie s t := by
  obtain ⟨-, rfl⟩ := wtDelete_eq_next ht
  exact ⟨rfl, rfl, rfl⟩

theorem trieReset_runState {s t : State} (ht : trieReset s = .next t) : t.runState = s.runState := by
  obtain ⟨-, rfl⟩ := trieReset_eq_next ht
  rfl

theorem trieDelete_runState {s t : State} {n : Code} (ht : trieDelete n s = .next t) : t.runState = s.runState := by
  obtain ⟨-, ⟨-, rfl⟩ | ⟨-, rfl⟩⟩ := trieDelete_eq_next ht <;> rfl

theorem advanceCode_runState {op : State → Res State} (hop : ∀ {u v : State}, op u = .next v → v.runState = u.runState)
    {s t : State} (ht : advanceCode op s = .next t) : t.runState = s.runState := by
  rcases advanceCode_eq_next.1 ht with ⟨-, u, hu, rfl⟩ | ⟨-, rfl⟩
  · show u.runState = s.runState
    exact hop hu
  · rfl

/-- ADVANCE_CODE changes the trie only by resetting it (43_codec.md R152). -/
theorem advanceCode_trieReset_child {s t : State} (ht : advanceCode trieReset s = .next t) :
    t.child = [] ∨ t.child = s.child := by
  rcases advanceCode_eq_next.1 ht with ⟨-, u, hu, rfl⟩ | ⟨-, rfl⟩
  · obtain ⟨-, rfl⟩ := trieReset_eq_next hu
    exact .inl rfl
  · exact .inr rfl

theorem advanceCode_wtReset_child {s t : State} (ht : advanceCode wtReset s = .next t) : t.child = s.child := by
  rcases advanceCode_eq_next.1 ht with ⟨-, u, hu, rfl⟩ | ⟨-, rfl⟩
  · exact (wtReset_sameTrie hu).child
  · rfl

theorem raiseError_child (cause : BitVec 3) (s : State) : (raiseError cause s).child = s.child := by rw [raiseError_eq]

theorem acceptHeader_child (m : BitVec 32) (p : BitVec 16) (s : State) : (acceptHeader m p s).child = s.child := by
  unfold acceptHeader
  split_ifs
  · rfl
  · exact raiseError_child _ _

theorem endOfStream_child {s t : State} (ht : endOfStream s = .next t) : t.child = s.child := by
  obtain ⟨s1, h1, ht⟩ := andThen_eq_next.1 ht
  obtain ⟨s2, h2, ht⟩ := andThen_eq_next.1 ht
  obtain rfl := Host.Outcome.next.inj ht
  exact ((flushWords_sameTrie h1).trans (wtDelete_sameTrie h2)).child

theorem appendPair_child {s t : State} {c : Code} {y : Byte} (ht : appendPair c y s = .next t) : t.child = s.child := by
  obtain ⟨w, -, ht⟩ := andThen_eq_next.1 ht
  obtain ⟨s1, h1, ht⟩ := andThen_eq_next.1 ht
  obtain ⟨s2, h2, ht⟩ := andThen_eq_next.1 ht
  exact (advanceCode_wtReset_child ht).trans ((wtAssign_sameTrie h1).trans (writeWord_sameTrie h2)).child

theorem writeFinalPair_runState {s t : State} (ht : writeFinalPair s = .next t) : t.runState = s.runState := by
  unfold writeFinalPair at ht
  split_ifs at ht
  · rw [Host.Outcome.next.inj ht]
  · obtain ⟨u, hu, ht⟩ := andThen_eq_next.1 ht
    exact (advanceCode_runState trieReset_runState ht).trans (writePair_sameTrie hu).runState

/-! ### Every operation keeps the engine's invariant -/

theorem inState_engineInv {r : RunState} {s t : State} {body : Res State} (h : EngineInv s)
    (hbody : s.runState = r → body = .next t → EngineInv t) (ht : inState r s body = .next t) : EngineInv t := by
  rcases inState_eq_next ht with ⟨hr, hb⟩ | ⟨-, rfl⟩
  · exact hbody hr hb
  · exact raiseError_engineInv h (.inr rfl)

theorem EngineInv.setCur {s : State} (h : EngineInv s) (cur : Code) : EngineInv { s with cur := cur } :=
  h.registers cur s.prevCode s.prevSym s.prot s.rpCode s.rpSym s.hasMore s.totalBits s.totalSyms

theorem EngineInv.setProt {s : State} (h : EngineInv s) (prot : BitVec 16) : EngineInv { s with prot := prot } :=
  h.registers s.cur s.prevCode s.prevSym prot s.rpCode s.rpSym s.hasMore s.totalBits s.totalSyms

theorem EngineInv.countSym {s : State} (h : EngineInv s) : EngineInv { s with totalSyms := s.totalSyms + 1 } :=
  h.registers s.cur s.prevCode s.prevSym s.prot s.rpCode s.rpSym s.hasMore s.totalBits (s.totalSyms + 1)

theorem EngineInv.showResult {s : State} (h : EngineInv s) (o : UnitResult) : EngineInv { s with unitOut := o } :=
  h.ports s.zin s.zout s.sout s.zinPos s.cmdIn s.unitIn o

theorem EngineInv.placeZin {s : State} (h : EngineInv s) (wire : ByteSeq) : EngineInv { s with zin := wire } :=
  h.ports wire s.zout s.sout s.zinPos s.cmdIn s.unitIn s.unitOut

theorem pull_engineInv {s : State} (h : EngineInv s) (n : Nat) : EngineInv (pull n s).2 :=
  h.ports s.zin s.zout s.sout _ s.cmdIn s.unitIn s.unitOut

theorem writeHeader_engineInv {s : State} (h : EngineInv s) (m : BitVec 32) (p : BitVec 16) : EngineInv (writeHeader m p s) :=
  h.ports s.zin _ s.sout s.zinPos s.cmdIn s.unitIn s.unitOut

theorem acceptHeader_engineInv {s : State} (h : EngineInv s) (hs : s.runState = .idle) (m : BitVec 32) (p : BitVec 16) :
    EngineInv (acceptHeader m p s) := by
  unfold acceptHeader
  split_ifs
  · exact (wtCreate_engineInv (h.setProt p)).started.enter (by simp [hs]) (by simp)
  · exact raiseError_engineInv h (.inl rfl)

theorem endOfStream_engineInv {s t : State} (h : EngineInv s) (hs : s.runState = .dec) (ht : endOfStream s = .next t) :
    EngineInv t := by
  obtain ⟨s1, h1, ht⟩ := andThen_eq_next.1 ht
  obtain ⟨s2, h2, ht⟩ := andThen_eq_next.1 ht
  obtain rfl := Host.Outcome.next.inj ht
  have hrun : s2.runState = .dec := ((flushWords_sameTrie h1).trans (wtDelete_sameTrie h2)).runState.trans hs
  exact (wtDelete_engineInv (flushWords_engineInv h h1) h2).enter (by simp [hrun]) (by simp)

theorem appendPair_engineInv {s t : State} (h : EngineInv s) {c : Code} {y : Byte} (ht : appendPair c y s = .next t) :
    EngineInv t := by
  obtain ⟨w, -, ht⟩ := andThen_eq_next.1 ht
  obtain ⟨s1, h1, ht⟩ := andThen_eq_next.1 ht
  obtain ⟨s2, h2, ht⟩ := andThen_eq_next.1 ht
  exact advanceCode_engineInv (fun _ _ => wtReset_engineInv) (writeWord_engineInv (wtAssign_engineInv h h1) h2) ht

theorem encStart_engineInv {s t : State} (h : EngineInv s) {prot : BitVec 16} (ht : execEncStart prot s = .next t) :
    EngineInv t := by
  refine inState_engineInv h (fun hs hb => ?_) ht
  obtain rfl := Host.Outcome.next.inj hb
  have hopen := (trieCreate_engineInv (writeHeader_engineInv (h.setProt prot) s.cfg.magic prot)).setCur emptyCode
  exact hopen.started.enter (by simp [hs]) (by simp)

theorem encSym_engineInv {s t : State} (h : EngineInv s) {sym : Byte} (ht : execEncSym sym s = .next t) : EngineInv t := by
  refine inState_engineInv h (fun _ hb => ?_) ht
  obtain ⟨found, -, hb⟩ := andThen_eq_next.1 hb
  cases found with
  | some node =>
    obtain rfl := Host.Outcome.next.inj hb
    exact h.registers node s.cur sym s.prot s.rpCode s.rpSym s.hasMore s.totalBits (s.totalSyms + 1)
  | none =>
    obtain ⟨s1, h1, hb⟩ := andThen_eq_next.1 hb
    obtain ⟨s2, h2, hb⟩ := andThen_eq_next.1 hb
    have hinsert := trieInsert_engineInv (writePair_engineInv h.countSym h1) h2
    exact advanceCode_engineInv (fun _ _ => trieReset_engineInv) (hinsert.setCur emptyCode) hb

theorem writeFinalPair_engineInv {s t : State} (h : EngineInv s) (ht : writeFinalPair s = .next t) : EngineInv t := by
  unfold writeFinalPair at ht
  split_ifs at ht
  · rwa [← Host.Outcome.next.inj ht]
  · obtain ⟨u, hu, ht⟩ := andThen_eq_next.1 ht
    exact advanceCode_engineInv (fun _ _ => trieReset_engineInv) (writePair_engineInv h hu) ht

theorem encEnd_engineInv {s t : State} (h : EngineInv s) (ht : execEncEnd s = .next t) : EngineInv t := by
  refine inState_engineInv h (fun hs hb => ?_) ht
  obtain ⟨s1, h1, hb⟩ := andThen_eq_next.1 hb
  obtain ⟨s2, h2, hb⟩ := andThen_eq_next.1 hb
  obtain ⟨s3, h3, hb⟩ := andThen_eq_next.1 hb
  obtain ⟨s4, h4, hb⟩ := andThen_eq_next.1 hb
  obtain rfl := Host.Outcome.next.inj hb
  have hrun : s4.runState = .enc := by
    rw [trieDelete_runState h4, (flush_sameTrie h3).runState, (writePair_sameTrie h2).runState, writeFinalPair_runState h1, hs]
  have hflush := flush_engineInv (writePair_engineInv (writeFinalPair_engineInv h h1) h2) h3
  exact ((trieDelete_engineInv hflush h4).setCur emptyCode).enter (by simp [hrun]) (by simp)

theorem decStart_engineInv {s t : State} (h : EngineInv s) (ht : execDecStart s = .next t) : EngineInv t := by
  refine inState_engineInv h (fun hs hb => ?_) ht
  obtain rfl := Host.Outcome.next.inj hb
  exact acceptHeader_engineInv (pull_engineInv h _) hs _ _

theorem decPair_engineInv {s t : State} (h : EngineInv s) (ht : execDecPair s = .next t) : EngineInv t := by
  refine inState_engineInv h (fun hs hb => ?_) ht
  obtain ⟨s1, h1, hb⟩ := andThen_eq_next.1 hb
  have hread := readPair_engineInv h h1
  split_ifs at hb
  · exact appendPair_engineInv hread hb
  · exact endOfStream_engineInv hread ((readPair_sameTrie h1).runState.trans hs) hb

/-- Every operation keeps the engine's invariant, in every run state. -/
theorem exec_engineInv {i : Instr} {s t : State} (h : EngineInv s) (ht : exec i s = .next t) : EngineInv t := by
  cases i with
  | reset => obtain rfl := Host.Outcome.next.inj ht; exact resetState_engineInv h.params
  | encStart prot => exact encStart_engineInv h ht
  | encSym sym => exact encSym_engineInv h ht
  | encEnd => exact encEnd_engineInv h ht
  | decStart => exact decStart_engineInv h ht
  | decPair => exact decPair_engineInv h ht
  | writeHeader m p => obtain rfl := Host.Outcome.next.inj ht; exact writeHeader_engineInv h m p
  | readHeader => obtain rfl := Host.Outcome.next.inj ht; exact (pull_engineInv h _).showResult _
  | writePair c y w => exact writePair_engineInv h ht
  | readPair w =>
    obtain ⟨u, hu, ht⟩ := andThen_eq_next.1 ht
    obtain rfl := Host.Outcome.next.inj ht
    exact (readPair_engineInv h hu).showResult _
  | flush => exact flush_engineInv h ht
  | writeWord xs => exact writeWord_engineInv h ht
  | flushWords => exact flushWords_engineInv h ht
  | trieCreate => obtain rfl := Host.Outcome.next.inj ht; exact trieCreate_engineInv h
  | trieStep n b =>
    obtain ⟨u, -, ht⟩ := andThen_eq_next.1 ht
    obtain rfl := Host.Outcome.next.inj ht
    exact h.showResult _
  | trieInsert n b c => exact trieInsert_engineInv h ht
  | trieReset => exact trieReset_engineInv h ht
  | trieDelete n => exact trieDelete_engineInv h ht
  | wtCreate => obtain rfl := Host.Outcome.next.inj ht; exact wtCreate_engineInv h
  | wtLookup c =>
    obtain ⟨u, -, ht⟩ := andThen_eq_next.1 ht
    obtain rfl := Host.Outcome.next.inj ht
    exact h.showResult _
  | wtAssign c p b => exact wtAssign_engineInv h ht
  | wtReset => exact wtReset_engineInv h ht
  | wtDelete => exact wtDelete_engineInv h ht
  | header m p =>
    refine inState_engineInv h (fun hs hb => ?_) ht
    obtain rfl := Host.Outcome.next.inj hb
    exact acceptHeader_engineInv h hs m p
  | pairStop w y =>
    exact inState_engineInv h (fun hs hb => endOfStream_engineInv (latchPair_engineInv h w stopCode y) hs hb) ht
  | pairLit w y =>
    exact inState_engineInv h (fun _ hb => appendPair_engineInv (latchPair_engineInv h w emptyCode y) hb) ht
  | pairRef w c y =>
    exact inState_engineInv h (fun _ hb => appendPair_engineInv (latchPair_engineInv h w c y) hb) ht
  | pairUndef w c y => cases ht

/-! ### Every operation but a TRIE_INSERT outside its range keeps the nodes' names -/

theorem inState_nodeNames {r : RunState} {s t : State} {body : Res State} {maxCode : Nat} (hn : NodeNames maxCode s.child)
    (hbody : body = .next t → NodeNames maxCode t.child) (ht : inState r s body = .next t) : NodeNames maxCode t.child := by
  rcases inState_eq_next ht with ⟨-, hb⟩ | ⟨-, rfl⟩
  · exact hbody hb
  · rwa [raiseError_child]

theorem trieInsert_nodeNames {s t : State} (hn : NodeNames s.cfg.maxCode s.child) {n c : Code} {b : Byte}
    (hc : 2 ≤ c.toNat ∧ c.toNat < s.cfg.maxCode) (ht : trieInsert n b c s = .next t) : NodeNames s.cfg.maxCode t.child := by
  obtain ⟨-, -, hfree, rfl⟩ := trieInsert_eq_next ht
  rw [insertedCode_of (codeAssignable_iff.2 hc)]
  exact hn.insert _ hfree hc

theorem trieDelete_nodeNames {s t : State} {maxCode : Nat} (hn : NodeNames maxCode s.child) {n : Code}
    (ht : trieDelete n s = .next t) : NodeNames maxCode t.child := by
  obtain ⟨-, ⟨-, rfl⟩ | ⟨-, rfl⟩⟩ := trieDelete_eq_next ht
  · exact NodeNames.empty _
  · exact hn.sub fun _ => mem_prune

/-- The broken match's word takes `next_code`, which is assignable (10_state.md R22). -/
theorem encSym_nodeNames {s t : State} (h : EngineInv s) (hn : NodeNames s.cfg.maxCode s.child) {sym : Byte}
    (ht : execEncSym sym s = .next t) : NodeNames s.cfg.maxCode t.child := by
  refine inState_nodeNames hn (fun hb => ?_) ht
  obtain ⟨found, -, hb⟩ := andThen_eq_next.1 hb
  cases found with
  | some node => obtain rfl := Host.Outcome.next.inj hb; exact hn
  | none =>
    obtain ⟨s1, h1, hb⟩ := andThen_eq_next.1 hb
    obtain ⟨s2, h2, hb⟩ := andThen_eq_next.1 hb
    have hcfg : s1.cfg = s.cfg := (writePair_same h1).cfg
    have hinsert : NodeNames s.cfg.maxCode s2.child := by
      rw [← hcfg]
      refine trieInsert_nodeNames ?_ ?_ h2
      · rw [hcfg, (writePair_sameTrie h1).child]; exact hn
      · rw [hcfg, (writePair_sameTrie h1).nextCode]; exact h.counter
    rcases advanceCode_trieReset_child hb with hc | hc
    · rw [hc]; exact NodeNames.empty _
    · rw [hc]; exact hinsert

/-- ENC_END tears the trie down (43_codec.md R158). -/
theorem encEnd_nodeNames {s t : State} {maxCode : Nat} (hn : NodeNames maxCode s.child) (ht : execEncEnd s = .next t) :
    NodeNames maxCode t.child := by
  refine inState_nodeNames hn (fun hb => ?_) ht
  obtain ⟨s1, -, hb⟩ := andThen_eq_next.1 hb
  obtain ⟨s2, -, hb⟩ := andThen_eq_next.1 hb
  obtain ⟨s3, -, hb⟩ := andThen_eq_next.1 hb
  obtain ⟨s4, h4, hb⟩ := andThen_eq_next.1 hb
  obtain rfl := Host.Outcome.next.inj hb
  obtain ⟨-, ⟨-, rfl⟩ | ⟨hroot, -⟩⟩ := trieDelete_eq_next h4
  · exact NodeNames.empty _
  · exact absurd rfl hroot

theorem decPair_nodeNames {s t : State} {maxCode : Nat} (hn : NodeNames maxCode s.child) (ht : execDecPair s = .next t) :
    NodeNames maxCode t.child := by
  refine inState_nodeNames hn (fun hb => ?_) ht
  obtain ⟨s1, h1, hb⟩ := andThen_eq_next.1 hb
  have hread := (readPair_sameTrie h1).child
  split_ifs at hb
  · rwa [appendPair_child hb, hread]
  · rwa [endOfStream_child hb, hread]

theorem exec_nodeNames {i : Instr} {s t : State} (h : EngineInv s) (hn : NodeNames s.cfg.maxCode s.child)
    (hrange : ∀ node byte code, i = .trieInsert node byte code → 2 ≤ code.toNat ∧ code.toNat < s.cfg.maxCode)
    (ht : exec i s = .next t) : NodeNames s.cfg.maxCode t.child := by
  have hsame : t.child = s.child → NodeNames s.cfg.maxCode t.child := fun hc => by rwa [hc]
  cases i with
  | reset => obtain rfl := Host.Outcome.next.inj ht; exact NodeNames.empty _
  | encStart prot =>
    exact inState_nodeNames hn (fun hb => by obtain rfl := Host.Outcome.next.inj hb; exact NodeNames.empty _) ht
  | encSym sym => exact encSym_nodeNames h hn ht
  | encEnd => exact encEnd_nodeNames hn ht
  | decStart =>
    refine inState_nodeNames hn (fun hb => hsame ?_) ht
    obtain rfl := Host.Outcome.next.inj hb
    exact acceptHeader_child _ _ _
  | decPair => exact decPair_nodeNames hn ht
  | writeHeader m p => obtain rfl := Host.Outcome.next.inj ht; exact hn
  | readHeader => obtain rfl := Host.Outcome.next.inj ht; exact hn
  | writePair c y w => exact hsame (writePair_sameTrie ht).child
  | readPair w =>
    obtain ⟨u, hu, ht⟩ := andThen_eq_next.1 ht
    obtain rfl := Host.Outcome.next.inj ht
    exact hsame (readPair_sameTrie hu).child
  | flush => exact hsame (flush_sameTrie ht).child
  | writeWord xs => exact hsame (writeWord_sameTrie ht).child
  | flushWords => exact hsame (flushWords_sameTrie ht).child
  | trieCreate => obtain rfl := Host.Outcome.next.inj ht; exact NodeNames.empty _
  | trieStep n b =>
    obtain ⟨u, -, ht⟩ := andThen_eq_next.1 ht
    obtain rfl := Host.Outcome.next.inj ht
    exact hn
  | trieInsert n b c => exact trieInsert_nodeNames hn (hrange n b c rfl) ht
  | trieReset =>
    obtain ⟨-, rfl⟩ := trieReset_eq_next ht
    exact NodeNames.empty _
  | trieDelete n => exact trieDelete_nodeNames hn ht
  | wtCreate => obtain rfl := Host.Outcome.next.inj ht; exact hn
  | wtLookup c =>
    obtain ⟨u, -, ht⟩ := andThen_eq_next.1 ht
    obtain rfl := Host.Outcome.next.inj ht
    exact hn
  | wtAssign c p b => exact hsame (wtAssign_sameTrie ht).child
  | wtReset => exact hsame (wtReset_sameTrie ht).child
  | wtDelete => exact hsame (wtDelete_sameTrie ht).child
  | header m p =>
    refine inState_nodeNames hn (fun hb => hsame ?_) ht
    obtain rfl := Host.Outcome.next.inj hb
    exact acceptHeader_child _ _ _
  | pairStop w y =>
    exact inState_nodeNames hn (fun hb => hsame ((endOfStream_child hb).trans (latchPair_child w stopCode y s))) ht
  | pairLit w y => exact inState_nodeNames hn (fun hb => hsame ((appendPair_child hb).trans (latchPair_child w emptyCode y s))) ht
  | pairRef w c y => exact inState_nodeNames hn (fun hb => hsame ((appendPair_child hb).trans (latchPair_child w c y s))) ht
  | pairUndef w c y => cases ht

/-! ### Every step -/

theorem step_engineInv {s t : State} (h : EngineInv s) (ht : step s = .next t) : EngineInv t := by
  obtain ⟨xs, r, hfetch⟩ := fetch_state s
  have hu : EngineInv (fetch s).2 := by
    rw [hfetch]
    exact h.ports s.zin s.zout s.sout s.zinPos xs r s.unitOut
  rcases step_eq_next ht with ⟨-, rfl⟩ | ⟨i, -, hexec⟩ | ⟨-, rfl⟩ | ⟨-, rfl⟩ | ⟨wire, -, hwire⟩
  · exact hu
  · exact exec_engineInv hu hexec
  · exact raiseError_engineInv hu (.inr rfl)
  · exact resetState_engineInv hu.params
  · obtain ⟨-, rfl⟩ := placeZin_eq_next hwire
    exact hu.placeZin wire

theorem step_nodeNames {s t : State} (h : EngineInv s) (hn : NodeNames s.cfg.maxCode s.child)
    (hrange : ∀ node byte code, (fetch s).1 = .instr (.trieInsert node byte code) →
      2 ≤ code.toNat ∧ code.toNat < s.cfg.maxCode) (ht : step s = .next t) : NodeNames s.cfg.maxCode t.child := by
  obtain ⟨xs, r, hfetch⟩ := fetch_state s
  rcases step_eq_next ht with ⟨-, rfl⟩ | ⟨i, hi, hexec⟩ | ⟨-, rfl⟩ | ⟨-, rfl⟩ | ⟨wire, -, hwire⟩
  · rwa [hfetch]
  · rw [hfetch] at hexec
    have hports := h.ports s.zin s.zout s.sout s.zinPos xs r s.unitOut
    refine exec_nodeNames (s := { s with cmdIn := xs, unitIn := r }) hports hn (fun node byte code hx => ?_) hexec
    exact hrange node byte code (by rw [hi, hx])
  · rwa [raiseError_child, hfetch]
  · exact NodeNames.empty _
  · obtain ⟨-, rfl⟩ := placeZin_eq_next hwire
    rw [hfetch]
    exact hn

/-- Settles O52: each shared operation keeps the invariant and the commands are made of these; of `child`, a step adds at most one
entry, whose code no live node holds. -/
theorem everyStepKeepsEngineInv : Obligations.EveryStepKeepsEngineInv := by
  refine ⟨fun s t h ht => step_engineInv h ht, fun s t h hn hrange ht => ?_⟩
  rw [configurationNeverChanges s t ht]
  exact step_nodeNames h hn hrange ht

end Sys2Proof.Machine
end

section
/-! Family 20_memory: the streams behind the buffers. What each unit operation does to the sent bits, the decoded bytes and the
upcoming bits, none of which depends on BLOCK (20_memory.md R66). -/

namespace Sys2Proof.Machine

/-! ### What leaves a buffer alone -/

/-- ZOUT and WBUF are the same. -/
structure SameWriter (s t : State) : Prop where
  zout : t.zout = s.zout
  wbuf : t.wbuf = s.wbuf
  widx : t.widx = s.widx

/-- SOUT and OBUF are the same. -/
structure SameOutput (s t : State) : Prop where
  sout : t.sout = s.sout
  obuf : t.obuf = s.obuf
  oidx : t.oidx = s.oidx

/-- ZIN, its position and RBUF are the same, in a buffer of the same size. -/
structure SameReader (s t : State) : Prop where
  cfg : t.cfg = s.cfg
  zin : t.zin = s.zin
  zinPos : t.zinPos = s.zinPos
  rbuf : t.rbuf = s.rbuf
  ridx : t.ridx = s.ridx

/-- All three buffers and their ports are the same. -/
structure SameBuffers (s t : State) : Prop where
  writer : SameWriter s t
  output : SameOutput s t
  reader : SameReader s t

theorem SameWriter.sent_eq {s t : State} (h : SameWriter s t) : sentBits t = sentBits s := by
  unfold sentBits pendingBits
  rw [h.zout, h.wbuf, h.widx]

theorem SameOutput.decoded_eq {s t : State} (h : SameOutput s t) : decodedBytes t = decodedBytes s := by
  unfold decodedBytes
  rw [h.sout, h.obuf, h.oidx]

theorem SameReader.upcoming_eq {s t : State} (h : SameReader s t) (k : Nat) : upcomingBit t k = upcomingBit s k := by
  unfold upcomingBit inByte
  rw [h.cfg, h.zin, h.zinPos, h.rbuf, h.ridx]

/-- The dictionaries, their flags and the results may change. -/
theorem SameBuffers.dictionaries (s : State) (child : SlotMap Code) (wt : SlotMap ByteSeq) (tl wl : Bool) (o : UnitResult)
    (n : Nat) :
    SameBuffers s { s with child := child, wt := wt, trieLive := tl, wtLive := wl, unitOut := o, freeIndex := n } :=
  ⟨⟨rfl, rfl, rfl⟩, ⟨rfl, rfl, rfl⟩, ⟨rfl, rfl, rfl, rfl, rfl⟩⟩

theorem trieCreate_sameBuffers (s : State) : SameBuffers s (trieCreate s) := .dictionaries s _ _ _ _ _ _

theorem wtCreate_sameBuffers (s : State) : SameBuffers s (wtCreate s) := .dictionaries s _ _ _ _ _ _

theorem trieInsert_sameBuffers {s t : State} {n c : Code} {b : Byte} (ht : trieInsert n b c s = .next t) : SameBuffers s t := by
  obtain ⟨-, -, -, rfl⟩ := trieInsert_eq_next ht
  exact .dictionaries s _ _ _ _ _ _

theorem trieReset_sameBuffers {s t : State} (ht : trieReset s = .next t) : SameBuffers s t := by
  obtain ⟨-, rfl⟩ := trieReset_eq_next ht
  exact .dictionaries s _ _ _ _ _ _

theorem trieDelete_sameBuffers {s t : State} {n : Code} (ht : trieDelete n s = .next t) : SameBuffers s t := by
  obtain ⟨-, ⟨-, rfl⟩ | ⟨-, rfl⟩⟩ := trieDelete_eq_next ht
  · exact .dictionaries s _ _ _ _ _ _
  · exact .dictionaries s _ _ _ _ _ _

theorem wtAssign_sameBuffers {s t : State} {c p : Code} {b : Byte} (ht : wtAssign c p b s = .next t) : SameBuffers s t := by
  obtain ⟨-, -, -, -, -, rfl⟩ := wtAssign_eq_next ht
  exact .dictionaries s _ _ _ _ _ _

theorem wtReset_sameBuffers {s t : State} (ht : wtReset s = .next t) : SameBuffers s t := by
  obtain ⟨-, rfl⟩ := wtReset_eq_next ht
  exact .dictionaries s _ _ _ _ _ _

theorem wtDelete_sameBuffers {s t : State} (ht : wtDelete s = .next t) : SameBuffers s t := by
  obtain ⟨-, rfl⟩ := wtDelete_eq_next ht
  exact .dictionaries s _ _ _ _ _ _

/-! ### What each BitChannel operation does to the three streams -/

theorem givenBits_writePair (bits : List Bool) (c : Code) (y : Byte) (w : Width) :
    givenBits bits (.writePair c y w) = bits ++ pairBits c y w.toNat := rfl

theorem givenBits_flush (bits : List Bool) :
    givenBits bits .flush = bits ++ List.replicate (8 * ((bits.length + 7) / 8) - bits.length) false := rfl

/-- What FLUSH puts on ZOUT in all: the sent bits, packed (40_bitchannel.md R115). -/
theorem flush_zout {s t : State} (ht : flush s = .next t) : t.zout = packBytes (sentBits s) := by
  obtain ⟨-, rfl⟩ := flush_eq_next ht
  exact (packBytes_bytesBits_append s.zout (pendingBits s)).symm

/-- FLUSH gives WBUF the zero bits to the next whole byte. -/
theorem flush_sent {s t : State} (ht : flush s = .next t) : sentBits t = givenBits (sentBits s) .flush := by
  have hz := flush_zout ht
  obtain ⟨-, rfl⟩ := flush_eq_next ht
  have hpending : sentBits { s with
      wbuf := Memory.clearBits (8 * ((s.widx + 7) / 8) - s.widx) s.widx s.wbuf
      widx := 0
      zout := s.zout ++ packBytes (pendingBits s) } = bytesBits (s.zout ++ packBytes (pendingBits s)) := List.append_nil _
  rw [hpending, show s.zout ++ packBytes (pendingBits s) = packBytes (sentBits s) from hz, bytesBits_packBytes,
    givenBits_flush]

theorem flush_sameOutput {s t : State} (ht : flush s = .next t) : SameOutput s t := by
  obtain ⟨-, rfl⟩ := flush_eq_next ht
  exact ⟨rfl, rfl, rfl⟩

theorem flush_sameReader {s t : State} (ht : flush s = .next t) : SameReader s t := by
  obtain ⟨-, rfl⟩ := flush_eq_next ht
  exact ⟨rfl, rfl, rfl, rfl, rfl⟩

theorem writePair_sent {s t : State} {c : Code} {y : Byte} {w : Width} (ht : writePair c y w s = .next t) :
    sentBits t = sentBits s ++ pairBits c y w.toNat := by
  obtain ⟨-, -, rfl⟩ := writePair_eq_next ht
  exact putBits_sent s _

theorem writePair_sameOutput {s t : State} {c : Code} {y : Byte} {w : Width} (ht : writePair c y w s = .next t) :
    SameOutput s t := by
  obtain ⟨-, -, rfl⟩ := writePair_eq_next ht
  rw [putBits_frame]
  exact ⟨rfl, rfl, rfl⟩

theorem writePair_sameReader {s t : State} {c : Code} {y : Byte} {w : Width} (ht : writePair c y w s = .next t) :
    SameReader s t := by
  obtain ⟨-, -, rfl⟩ := writePair_eq_next ht
  rw [putBits_frame]
  exact ⟨rfl, rfl, rfl, rfl, rfl⟩

theorem afterBits_sameWriter (n : Nat) (s : State) : SameWriter s (afterBits n s) := by
  unfold afterBits
  rw [getBits_frame]
  exact ⟨rfl, rfl, rfl⟩

theorem afterBits_sameOutput (n : Nat) (s : State) : SameOutput s (afterBits n s) := by
  unfold afterBits
  rw [getBits_frame]
  exact ⟨rfl, rfl, rfl⟩

theorem readPair_sameWriter {s t : State} {w : Width} (ht : readPair w s = .next t) : SameWriter s t := by
  obtain ⟨-, -, -, -, rfl⟩ := readPair_eq_next ht
  obtain ⟨hzout, hwbuf, hwidx⟩ := afterBits_sameWriter (w.toNat + 8) s
  exact ⟨hzout, hwbuf, hwidx⟩

theorem readPair_sameOutput {s t : State} {w : Width} (ht : readPair w s = .next t) : SameOutput s t := by
  obtain ⟨-, -, -, -, rfl⟩ := readPair_eq_next ht
  obtain ⟨hsout, hobuf, hoidx⟩ := afterBits_sameOutput (w.toNat + 8) s
  exact ⟨hsout, hobuf, hoidx⟩

theorem readPair_upcomingBit {s t : State} {w : Width} (ht : readPair w s = .next t) (hz : s.zin.length < 2 ^ 64) (k : Nat) :
    upcomingBit t k = upcomingBit s (k + (w.toNat + 8)) := by
  obtain ⟨-, -, hr, hb, rfl⟩ := readPair_eq_next ht
  obtain ⟨-, hcoming, -⟩ := getBits_spec hr hb hz (w.toNat + 8)
  exact hcoming k

theorem writeWord_decoded {s t : State} {xs : ByteSeq} (ht : writeWord xs s = .next t) :
    decodedBytes t = decodedBytes s ++ xs := by
  obtain ⟨-, rfl⟩ := writeWord_eq_next ht
  exact putBytesOut_decoded s xs

theorem writeWord_sameWriter {s t : State} {xs : ByteSeq} (ht : writeWord xs s = .next t) : SameWriter s t := by
  obtain ⟨-, rfl⟩ := writeWord_eq_next ht
  rw [putBytesOut_frame]
  exact ⟨rfl, rfl, rfl⟩

theorem writeWord_sameReader {s t : State} {xs : ByteSeq} (ht : writeWord xs s = .next t) : SameReader s t := by
  obtain ⟨-, rfl⟩ := writeWord_eq_next ht
  rw [putBytesOut_frame]
  exact ⟨rfl, rfl, rfl, rfl, rfl⟩

/-- FLUSH_WORDS moves decoded bytes from OBUF to SOUT and adds none (40_bitchannel.md R117). -/
theorem flushWords_decoded {s t : State} (ht : flushWords s = .next t) : decodedBytes t = decodedBytes s := by
  obtain ⟨-, rfl⟩ := flushWords_eq_next ht
  exact List.append_nil _

theorem flushWords_sameWriter {s t : State} (ht : flushWords s = .next t) : SameWriter s t := by
  obtain ⟨-, rfl⟩ := flushWords_eq_next ht
  exact ⟨rfl, rfl, rfl⟩

theorem flushWords_sameReader {s t : State} (ht : flushWords s = .next t) : SameReader s t := by
  obtain ⟨-, rfl⟩ := flushWords_eq_next ht
  exact ⟨rfl, rfl, rfl, rfl, rfl⟩

/-! ### What a unit operation does to the three streams -/

/-- `i` gives `givenBits` to ZOUT and `givenBytes` to SOUT, and takes `takenBits` from ZIN. WRITE_HEADER goes round WBUF and
READ_HEADER round RBUF. -/
structure StreamStep (i : Instr) (s t : State) : Prop where
  sent : isWriteHeader i = false → sentBits t = givenBits (sentBits s) i
  decoded : decodedBytes t = decodedBytes s ++ givenBytes i
  coming : i ≠ .readHeader → s.zin.length < 2 ^ 64 → ∀ k, upcomingBit t k = upcomingBit s (takenBits i + k)

theorem SameOutput.decodedNothing {s t : State} (h : SameOutput s t) : decodedBytes t = decodedBytes s ++ [] := by
  rw [h.decoded_eq, List.append_nil]

theorem SameReader.tookNothing {s t : State} (h : SameReader s t) (k : Nat) : upcomingBit t k = upcomingBit s (0 + k) := by
  rw [h.upcoming_eq, Nat.zero_add]

/-- An operation on a dictionary gives and takes nothing. -/
theorem SameBuffers.streamStep {i : Instr} {s t : State} (h : SameBuffers s t) (hbits : ∀ bits, givenBits bits i = bits)
    (hbytes : givenBytes i = []) (htaken : takenBits i = 0) : StreamStep i s t where
  sent := fun _ => by rw [hbits, h.writer.sent_eq]
  decoded := by rw [hbytes]; exact h.output.decodedNothing
  coming := fun _ _ k => by rw [htaken]; exact h.reader.tookNothing k

theorem exec_streamStep {i : Instr} (hu : isUnitOperation i = true) {s t : State} (ht : exec i s = .next t) :
    StreamStep i s t := by
  have dictionary : SameBuffers s t → (∀ bits, givenBits bits i = bits) → givenBytes i = [] → takenBits i = 0 →
    StreamStep i s t := SameBuffers.streamStep
  cases i with
  | writeHeader m p =>
    obtain rfl := Host.Outcome.next.inj ht
    refine ⟨fun h => ?_, SameOutput.decodedNothing ⟨rfl, rfl, rfl⟩,
      fun _ _ => SameReader.tookNothing ⟨rfl, rfl, rfl, rfl, rfl⟩⟩
    cases h
  | readHeader =>
    obtain rfl := Host.Outcome.next.inj ht
    exact ⟨fun _ => SameWriter.sent_eq ⟨rfl, rfl, rfl⟩, SameOutput.decodedNothing ⟨rfl, rfl, rfl⟩, fun h => absurd rfl h⟩
  | writePair c y w =>
    exact ⟨fun _ => writePair_sent ht, (writePair_sameOutput ht).decodedNothing,
      fun _ _ => (writePair_sameReader ht).tookNothing⟩
  | readPair w =>
    obtain ⟨u, hread, ht⟩ := andThen_eq_next.1 ht
    obtain rfl := Host.Outcome.next.inj ht
    refine ⟨fun _ => (readPair_sameWriter hread).sent_eq, (readPair_sameOutput hread).decodedNothing, fun _ hz k => ?_⟩
    rw [Nat.add_comm]
    exact readPair_upcomingBit hread hz k
  | flush => exact ⟨fun _ => flush_sent ht, (flush_sameOutput ht).decodedNothing, fun _ _ => (flush_sameReader ht).tookNothing⟩
  | writeWord xs =>
    exact ⟨fun _ => (writeWord_sameWriter ht).sent_eq, writeWord_decoded ht,
      fun _ _ => (writeWord_sameReader ht).tookNothing⟩
  | flushWords =>
    exact ⟨fun _ => (flushWords_sameWriter ht).sent_eq, (flushWords_decoded ht).trans (List.append_nil _).symm,
      fun _ _ => (flushWords_sameReader ht).tookNothing⟩
  | trieCreate =>
    obtain rfl := Host.Outcome.next.inj ht
    exact dictionary (trieCreate_sameBuffers s) (fun _ => rfl) rfl rfl
  | trieStep n b =>
    obtain ⟨_, -, ht⟩ := andThen_eq_next.1 ht
    obtain rfl := Host.Outcome.next.inj ht
    exact dictionary (.dictionaries s _ _ _ _ _ _) (fun _ => rfl) rfl rfl
  | trieInsert n b c => exact dictionary (trieInsert_sameBuffers ht) (fun _ => rfl) rfl rfl
  | trieReset => exact dictionary (trieReset_sameBuffers ht) (fun _ => rfl) rfl rfl
  | trieDelete n => exact dictionary (trieDelete_sameBuffers ht) (fun _ => rfl) rfl rfl
  | wtCreate =>
    obtain rfl := Host.Outcome.next.inj ht
    exact dictionary (wtCreate_sameBuffers s) (fun _ => rfl) rfl rfl
  | wtLookup c =>
    obtain ⟨_, -, ht⟩ := andThen_eq_next.1 ht
    obtain rfl := Host.Outcome.next.inj ht
    exact dictionary (.dictionaries s _ _ _ _ _ _) (fun _ => rfl) rfl rfl
  | wtAssign c p b => exact dictionary (wtAssign_sameBuffers ht) (fun _ => rfl) rfl rfl
  | wtReset => exact dictionary (wtReset_sameBuffers ht) (fun _ => rfl) rfl rfl
  | wtDelete => exact dictionary (wtDelete_sameBuffers ht) (fun _ => rfl) rfl rfl
  | reset => cases hu
  | encStart p => cases hu
  | encSym y => cases hu
  | encEnd => cases hu
  | decStart => cases hu
  | decPair => cases hu
  | header m p => cases hu
  | pairStop w y => cases hu
  | pairLit w y => cases hu
  | pairRef w c y => cases hu
  | pairUndef w c y => cases hu

/-! ### Sequences of unit operations -/

theorem execAll_cons_eq_next {i : Instr} {is : List Instr} {s t : State} :
    execAll (i :: is) s = .next t ↔ ∃ u, exec i s = .next u ∧ execAll is u = .next t := andThen_eq_next

theorem execAll_engineInv {is : List Instr} {s t : State} (h : EngineInv s) (ht : execAll is s = .next t) : EngineInv t := by
  induction is generalizing s with
  | nil => rwa [← Host.Outcome.next.inj ht]
  | cons i is ih =>
    obtain ⟨u, hi, ht⟩ := execAll_cons_eq_next.1 ht
    exact ih (exec_engineInv h hi) ht

theorem execAll_zin {is : List Instr} {s t : State} (ht : execAll is s = .next t) : t.zin = s.zin := by
  induction is generalizing s with
  | nil => rw [Host.Outcome.next.inj ht]
  | cons i is ih =>
    obtain ⟨u, hi, ht⟩ := execAll_cons_eq_next.1 ht
    exact (ih ht).trans (exec_same hi).zin

theorem execAll_sent {is : List Instr} (hu : ∀ i ∈ is, isUnitOperation i = true) (hw : ∀ i ∈ is, isWriteHeader i = false)
    {s t : State} (ht : execAll is s = .next t) : sentBits t = is.foldl givenBits (sentBits s) := by
  induction is generalizing s with
  | nil => rw [← Host.Outcome.next.inj ht]; rfl
  | cons i is ih =>
    obtain ⟨hui, hu⟩ := List.forall_mem_cons.1 hu
    obtain ⟨hwi, hw⟩ := List.forall_mem_cons.1 hw
    obtain ⟨u, hi, ht⟩ := execAll_cons_eq_next.1 ht
    rw [ih hu hw ht, (exec_streamStep hui hi).sent hwi, List.foldl_cons]

theorem execAll_decoded {is : List Instr} (hu : ∀ i ∈ is, isUnitOperation i = true) {s t : State}
    (ht : execAll is s = .next t) : decodedBytes t = decodedBytes s ++ is.flatMap givenBytes := by
  induction is generalizing s with
  | nil => rw [← Host.Outcome.next.inj ht]; exact (List.append_nil _).symm
  | cons i is ih =>
    obtain ⟨hui, hu⟩ := List.forall_mem_cons.1 hu
    obtain ⟨u, hi, ht⟩ := execAll_cons_eq_next.1 ht
    rw [ih hu ht, (exec_streamStep hui hi).decoded, List.flatMap_cons, List.append_assoc]

theorem execAll_coming {is : List Instr} (hu : ∀ i ∈ is, isUnitOperation i = true) (hr : ∀ i ∈ is, i ≠ .readHeader)
    {s t : State} (hz : s.zin.length < 2 ^ 64) (ht : execAll is s = .next t) (k : Nat) :
    upcomingBit t k = upcomingBit s ((is.map takenBits).sum + k) := by
  induction is generalizing s with
  | nil => rw [← Host.Outcome.next.inj ht, List.map_nil, List.sum_nil, Nat.zero_add]
  | cons i is ih =>
    obtain ⟨hui, hu⟩ := List.forall_mem_cons.1 hu
    obtain ⟨hri, hr⟩ := List.forall_mem_cons.1 hr
    obtain ⟨u, hi, ht⟩ := execAll_cons_eq_next.1 ht
    rw [ih hu hr (by rwa [(exec_same hi).zin]) ht, (exec_streamStep hui hi).coming hri hz, List.map_cons, List.sum_cons,
      Nat.add_assoc]

/-- Whole bytes in front of the given bits stay in front, and do not change how FLUSH pads. -/
theorem givenBits_bytesBits_append (bs : ByteSeq) (bits : List Bool) (i : Instr) :
    givenBits (bytesBits bs ++ bits) i = bytesBits bs ++ givenBits bits i := by
  cases i
  case writePair c y w => rw [givenBits_writePair, givenBits_writePair, List.append_assoc]
  case flush =>
    have hpad : 8 * (((bytesBits bs ++ bits).length + 7) / 8) - (bytesBits bs ++ bits).length =
        8 * ((bits.length + 7) / 8) - bits.length := by
      rw [List.length_append, bytesBits_length]
      omega
    rw [givenBits_flush, givenBits_flush, hpad, List.append_assoc]
  all_goals rfl

theorem foldl_givenBits_bytesBits_append (bs : ByteSeq) (is : List Instr) (bits : List Bool) :
    is.foldl givenBits (bytesBits bs ++ bits) = bytesBits bs ++ is.foldl givenBits bits := by
  induction is generalizing bits with
  | nil => rfl
  | cons i is ih => rw [List.foldl_cons, List.foldl_cons, givenBits_bytesBits_append, ih]

/-- FLUSH completes after any sequence of unit operations without WRITE_HEADER, and ZOUT then holds what it held before the
sequence, if that ended with WBUF empty, and the packed bits of the sequence. -/
theorem execAll_flush_zout {is : List Instr} (hu : ∀ i ∈ is, isUnitOperation i = true)
    (hw : ∀ i ∈ is, isWriteHeader i = false) {s t : State} (h : EngineInv s) {bs : ByteSeq} (hs : sentBits s = bytesBits bs)
    (ht : execAll is s = .next t) : ∃ u, exec .flush t = .next u ∧ u.zout = bs ++ packBytes (is.foldl givenBits []) := by
  have hf := flush_eq (execAll_engineInv h ht).cursors.1
  refine ⟨_, hf, ?_⟩
  rw [flush_zout hf, execAll_sent hu hw ht, hs, ← packBytes_bytesBits_append, ← foldl_givenBits_bytesBits_append,
    List.append_nil]

/-- FLUSH_WORDS completes after any sequence of unit operations, and SOUT then holds every decoded byte. -/
theorem execAll_flushWords_sout {is : List Instr} (hu : ∀ i ∈ is, isUnitOperation i = true) {s t : State} (h : EngineInv s)
    (hs : decodedBytes s = []) (ht : execAll is s = .next t) :
    ∃ u, exec .flushWords t = .next u ∧ u.sout = is.flatMap givenBytes := by
  refine ⟨_, flushWords_eq (execAll_engineInv h ht).cursors.2.2, ?_⟩
  show decodedBytes t = _
  rw [execAll_decoded hu ht, hs, List.nil_append]

/-- With RBUF exhausted the bits that come are those of ZIN from `zin_pos` on (20_memory.md R58, R61, R76). -/
theorem upcomingBit_of_exhausted {s : State} (h : s.ridx = 8 * s.cfg.block) (k : Nat) :
    upcomingBit s k = (inByte s (s.zinPos.toNat + k / 8)).getLsbD (k % 8) := by
  unfold upcomingBit
  rw [if_neg (by omega), show s.ridx + k - 8 * s.cfg.block = k by omega]

/-- READ_HEADER right after reset leaves the stream bits of the wire to come. -/
theorem readHeader_upcomingBit {s t : State} (hpos : s.zinPos = 0) (hridx : s.ridx = 8 * s.cfg.block)
    (hz : s.zin.length < 2 ^ 64) (ht : exec .readHeader s = .next t) (k : Nat) :
    upcomingBit t k = streamBit s.cfg s.zin k := by
  have htpos : t.zinPos.toNat = min s.cfg.headerBytes s.zin.length := by
    obtain rfl := Host.Outcome.next.inj ht
    show (pull s.cfg.headerBytes s).2.zinPos.toNat = _
    rw [pull_state]
    exact (pull_pos hz s.cfg.headerBytes).trans (by simp [hpos])
  have htridx : t.ridx = 8 * t.cfg.block := by
    obtain rfl := Host.Outcome.next.inj ht
    exact hridx
  rw [upcomingBit_of_exhausted htridx]
  unfold inByte streamBit
  rw [htpos, (exec_same ht).zin]
  by_cases hlen : s.cfg.headerBytes ≤ s.zin.length
  · rw [Nat.min_eq_left hlen]
  · rw [List.getD_eq_default _ _ (by omega), List.getD_eq_default _ _ (by omega)]

/-- Settles O23, by induction over the sequence: each unit operation appends to the sent bits and to the decoded bytes and takes
from the upcoming bits, and BLOCK is in none of these streams. -/
theorem portsDoNotDependOnBlock : Obligations.PortsDoNotDependOnBlock := by
  intro cfg wire is hcfg hu
  have hreset : EngineInv { State.resetOf cfg with zin := wire } := (resetOf_engineInv hcfg).placeZin wire
  refine ⟨?bits, ?header, ?words, ?getBits⟩
  case bits => exact fun t hw ht => execAll_flush_zout hu hw hreset (bs := []) rfl ht
  case header =>
    intro t magic prot hw ht
    obtain ⟨s1, h1, ht⟩ := execAll_cons_eq_next.1 ht
    refine execAll_flush_zout hu hw (exec_engineInv hreset h1) ?_ ht
    obtain rfl := Host.Outcome.next.inj h1
    exact List.append_nil _
  case words => exact fun t ht => execAll_flushWords_sout hu hreset rfl ht
  case getBits =>
    intro t hz hr ht n
    obtain ⟨s1, h1, ht⟩ := execAll_cons_eq_next.1 ht
    have hz1 : s1.zin.length < 2 ^ 64 := by rw [(exec_same h1).zin]; exact hz
    have he := execAll_engineInv (exec_engineInv hreset h1) ht
    obtain ⟨hbits, -, -⟩ := getBits_spec he.cursors.2.1 he.block_pos (by rwa [execAll_zin ht]) n
    rw [hbits]
    refine List.map_congr_left fun k _ => ?_
    rw [execAll_coming hu hr hz1 ht]
    exact readHeader_upcomingBit rfl rfl hz h1 _

end Sys2Proof.Machine
end

section
/-! Family 20_memory: what the ports keep. Bytes on ZOUT and SOUT are final (20_memory.md R70), ZIN is the host's (R73), and a host
meets no other stop than U1 and a refused change of ZIN (93_implementation_defined.md). -/

namespace Sys2Proof.Machine

/-! ### ZOUT and SOUT only grow -/

/-- Every byte on ZOUT and on SOUT is still there, at its place. -/
structure PortsGrow (s t : State) : Prop where
  zout : s.zout <+: t.zout
  sout : s.sout <+: t.sout

theorem PortsGrow.of_eq {s t : State} (hz : t.zout = s.zout) (hs : t.sout = s.sout) : PortsGrow s t :=
  ⟨by rw [hz], by rw [hs]⟩

theorem PortsGrow.trans {s t u : State} (h : PortsGrow s t) (h' : PortsGrow t u) : PortsGrow s u :=
  ⟨h.zout.trans h'.zout, h.sout.trans h'.sout⟩

theorem SameBuffers.portsGrow {s t : State} (h : SameBuffers s t) : PortsGrow s t := .of_eq h.writer.zout h.output.sout

theorem raiseError_portsGrow (cause : BitVec 3) (s : State) : PortsGrow s (raiseError cause s) := by
  rw [raiseError_eq]
  exact .of_eq rfl rfl

theorem inState_portsGrow {r : RunState} {s t : State} {body : Res State} (hbody : body = .next t → PortsGrow s t)
    (ht : inState r s body = .next t) : PortsGrow s t := by
  rcases inState_eq_next ht with ⟨-, hb⟩ | ⟨-, rfl⟩
  · exact hbody hb
  · exact raiseError_portsGrow _ _

theorem writeHeader_portsGrow (m : BitVec 32) (p : BitVec 16) (s : State) : PortsGrow s (writeHeader m p s) :=
  ⟨List.prefix_append _ _, List.prefix_rfl⟩

theorem pull_portsGrow (n : Nat) (s : State) : PortsGrow s (pull n s).2 := .of_eq rfl rfl

theorem writePair_portsGrow {s t : State} {c : Code} {y : Byte} {w : Width} (ht : writePair c y w s = .next t) :
    PortsGrow s t := by
  have hsout := (writePair_sameOutput ht).sout
  obtain ⟨-, -, rfl⟩ := writePair_eq_next ht
  exact ⟨putBits_zout _ s, by rw [hsout]⟩

theorem readPair_portsGrow {s t : State} {w : Width} (ht : readPair w s = .next t) : PortsGrow s t :=
  .of_eq (readPair_sameWriter ht).zout (readPair_sameOutput ht).sout

theorem flush_portsGrow {s t : State} (ht : flush s = .next t) : PortsGrow s t := by
  obtain ⟨-, rfl⟩ := flush_eq_next ht
  exact ⟨List.prefix_append _ _, List.prefix_rfl⟩

theorem writeWord_portsGrow {s t : State} {xs : ByteSeq} (ht : writeWord xs s = .next t) : PortsGrow s t := by
  have hzout := (writeWord_sameWriter ht).zout
  obtain ⟨-, rfl⟩ := writeWord_eq_next ht
  exact ⟨by rw [hzout], putBytesOut_sout xs s⟩

theorem flushWords_portsGrow {s t : State} (ht : flushWords s = .next t) : PortsGrow s t := by
  obtain ⟨-, rfl⟩ := flushWords_eq_next ht
  exact ⟨List.prefix_rfl, List.prefix_append _ _⟩

theorem advanceCode_portsGrow {op : State → Res State} (hop : ∀ {u v : State}, op u = .next v → SameBuffers u v)
    {s t : State} (ht : advanceCode op s = .next t) : PortsGrow s t := by
  rcases advanceCode_eq_next.1 ht with ⟨-, u, hu, rfl⟩ | ⟨-, rfl⟩
  · exact (hop hu).portsGrow.trans (.of_eq rfl rfl)
  · exact .of_eq rfl rfl

theorem acceptHeader_portsGrow (m : BitVec 32) (p : BitVec 16) (s : State) : PortsGrow s (acceptHeader m p s) := by
  unfold acceptHeader
  split_ifs
  · exact .of_eq rfl rfl
  · exact raiseError_portsGrow _ _

theorem appendPair_portsGrow {s t : State} {c : Code} {y : Byte} (ht : appendPair c y s = .next t) : PortsGrow s t := by
  obtain ⟨_, -, ht⟩ := andThen_eq_next.1 ht
  obtain ⟨s1, hassign, ht⟩ := andThen_eq_next.1 ht
  obtain ⟨s2, hword, ht⟩ := andThen_eq_next.1 ht
  exact (wtAssign_sameBuffers hassign).portsGrow.trans
    ((writeWord_portsGrow hword).trans (advanceCode_portsGrow wtReset_sameBuffers ht))

theorem endOfStream_portsGrow {s t : State} (ht : endOfStream s = .next t) : PortsGrow s t := by
  obtain ⟨s1, hflush, ht⟩ := andThen_eq_next.1 ht
  obtain ⟨s2, hdelete, ht⟩ := andThen_eq_next.1 ht
  obtain rfl := Host.Outcome.next.inj ht
  exact (flushWords_portsGrow hflush).trans ((wtDelete_sameBuffers hdelete).portsGrow.trans (.of_eq rfl rfl))

theorem encStart_portsGrow {s t : State} {prot : BitVec 16} (ht : execEncStart prot s = .next t) : PortsGrow s t := by
  refine inState_portsGrow (fun hb => ?_) ht
  obtain rfl := Host.Outcome.next.inj hb
  exact ⟨List.prefix_append _ _, List.prefix_rfl⟩

theorem encSym_portsGrow {s t : State} {sym : Byte} (ht : execEncSym sym s = .next t) : PortsGrow s t := by
  refine inState_portsGrow (fun hb => ?_) ht
  obtain ⟨found, -, hb⟩ := andThen_eq_next.1 hb
  cases found with
  | some node =>
    obtain rfl := Host.Outcome.next.inj hb
    exact .of_eq rfl rfl
  | none =>
    obtain ⟨s1, hpair, hb⟩ := andThen_eq_next.1 hb
    obtain ⟨s2, hinsert, hb⟩ := andThen_eq_next.1 hb
    have hcount : PortsGrow s { s with totalSyms := s.totalSyms + 1 } := .of_eq rfl rfl
    have hroot : PortsGrow s2 { s2 with cur := emptyCode } := .of_eq rfl rfl
    exact hcount.trans ((writePair_portsGrow hpair).trans ((trieInsert_sameBuffers hinsert).portsGrow.trans
      (hroot.trans (advanceCode_portsGrow trieReset_sameBuffers hb))))

theorem writeFinalPair_portsGrow {s t : State} (ht : writeFinalPair s = .next t) : PortsGrow s t := by
  unfold writeFinalPair at ht
  split_ifs at ht
  · obtain rfl := Host.Outcome.next.inj ht
    exact .of_eq rfl rfl
  · obtain ⟨u, hpair, ht⟩ := andThen_eq_next.1 ht
    exact (writePair_portsGrow hpair).trans (advanceCode_portsGrow trieReset_sameBuffers ht)

theorem encEnd_portsGrow {s t : State} (ht : execEncEnd s = .next t) : PortsGrow s t := by
  refine inState_portsGrow (fun hb => ?_) ht
  obtain ⟨s1, hfinal, hb⟩ := andThen_eq_next.1 hb
  obtain ⟨s2, hstop, hb⟩ := andThen_eq_next.1 hb
  obtain ⟨s3, hflush, hb⟩ := andThen_eq_next.1 hb
  obtain ⟨s4, hdelete, hb⟩ := andThen_eq_next.1 hb
  obtain rfl := Host.Outcome.next.inj hb
  exact (writeFinalPair_portsGrow hfinal).trans ((writePair_portsGrow hstop).trans ((flush_portsGrow hflush).trans
    ((trieDelete_sameBuffers hdelete).portsGrow.trans (.of_eq rfl rfl))))

theorem decStart_portsGrow {s t : State} (ht : execDecStart s = .next t) : PortsGrow s t := by
  refine inState_portsGrow (fun hb => ?_) ht
  obtain rfl := Host.Outcome.next.inj hb
  exact (pull_portsGrow _ s).trans (acceptHeader_portsGrow _ _ _)

theorem decPair_portsGrow {s t : State} (ht : execDecPair s = .next t) : PortsGrow s t := by
  refine inState_portsGrow (fun hb => ?_) ht
  obtain ⟨u, hread, hb⟩ := andThen_eq_next.1 hb
  refine (readPair_portsGrow hread).trans ?_
  split_ifs at hb
  · exact appendPair_portsGrow hb
  · exact endOfStream_portsGrow hb

/-- Settles O48: each shared operation keeps or extends ZOUT and SOUT, and every operation but RESET is made of these. -/
theorem emittedBytesAreFinal : Obligations.EmittedBytesAreFinal := by
  intro i s t hi ht
  have latch : ∀ (w : Width) (c : Code) (y : Byte), PortsGrow s (latchPair w c y s) := fun _ _ _ => .of_eq rfl rfl
  suffices h : PortsGrow s t from ⟨h.zout, h.sout⟩
  cases i with
  | reset => exact absurd rfl hi
  | encStart prot => exact encStart_portsGrow ht
  | encSym sym => exact encSym_portsGrow ht
  | encEnd => exact encEnd_portsGrow ht
  | decStart => exact decStart_portsGrow ht
  | decPair => exact decPair_portsGrow ht
  | writeHeader m p => obtain rfl := Host.Outcome.next.inj ht; exact writeHeader_portsGrow m p s
  | readHeader => obtain rfl := Host.Outcome.next.inj ht; exact .of_eq rfl rfl
  | writePair c y w => exact writePair_portsGrow ht
  | readPair w =>
    obtain ⟨u, hread, ht⟩ := andThen_eq_next.1 ht
    obtain rfl := Host.Outcome.next.inj ht
    exact (readPair_portsGrow hread).trans (.of_eq rfl rfl)
  | flush => exact flush_portsGrow ht
  | writeWord xs => exact writeWord_portsGrow ht
  | flushWords => exact flushWords_portsGrow ht
  | trieCreate => obtain rfl := Host.Outcome.next.inj ht; exact (trieCreate_sameBuffers s).portsGrow
  | trieStep n b =>
    obtain ⟨_, -, ht⟩ := andThen_eq_next.1 ht
    obtain rfl := Host.Outcome.next.inj ht
    exact .of_eq rfl rfl
  | trieInsert n b c => exact (trieInsert_sameBuffers ht).portsGrow
  | trieReset => exact (trieReset_sameBuffers ht).portsGrow
  | trieDelete n => exact (trieDelete_sameBuffers ht).portsGrow
  | wtCreate => obtain rfl := Host.Outcome.next.inj ht; exact (wtCreate_sameBuffers s).portsGrow
  | wtLookup c =>
    obtain ⟨_, -, ht⟩ := andThen_eq_next.1 ht
    obtain rfl := Host.Outcome.next.inj ht
    exact .of_eq rfl rfl
  | wtAssign c p b => exact (wtAssign_sameBuffers ht).portsGrow
  | wtReset => exact (wtReset_sameBuffers ht).portsGrow
  | wtDelete => exact (wtDelete_sameBuffers ht).portsGrow
  | header m p =>
    refine inState_portsGrow (fun hb => ?_) ht
    obtain rfl := Host.Outcome.next.inj hb
    exact acceptHeader_portsGrow m p s
  | pairStop w y => exact inState_portsGrow (fun hb => (latch w stopCode y).trans (endOfStream_portsGrow hb)) ht
  | pairLit w y => exact inState_portsGrow (fun hb => (latch w emptyCode y).trans (appendPair_portsGrow hb)) ht
  | pairRef w c y => exact inState_portsGrow (fun hb => (latch w c y).trans (appendPair_portsGrow hb)) ht
  | pairUndef w c y => cases ht

/-! ### Serving each kind of host input -/

theorem step_nothing {s : State} (hu : s.unitIn = none) (hx : s.cmdIn = []) : step s = .next s := by
  simp only [step, fetch_of_nothing hu hx]

theorem step_putZin {s : State} (hu : s.unitIn = none) {wire : ByteSeq} {rest : List HostInput}
    (hx : s.cmdIn = .putZin wire :: rest) : step s = placeZin wire { s with cmdIn := rest } := by
  simp only [step, fetch_of_input hu hx, fetchInput]

theorem step_hardReset {s : State} (hu : s.unitIn = none) {rest : List HostInput} (hx : s.cmdIn = .hardReset :: rest) :
    step s = .next (resetState { s with cmdIn := rest }) := by
  simp only [step, fetch_of_input hu hx, fetchInput]

theorem step_illegalCommand {s : State} (hu : s.unitIn = none) {w : BitVec 24} {rest : List HostInput}
    (hx : s.cmdIn = .cmd w :: rest) {e : DecodeError} (hd : decodeCmd w = .error e) :
    step s = .next (raiseError errCmd { s with cmdIn := rest }) := by
  simp only [step, fetch_of_input hu hx, fetchInput, fetchCmd, hd]

/-- Settles O50: no operation, no error entry and no reset writes ZIN, so a step that changed it served the host's own move. -/
theorem onlyTheHostWritesZin : Obligations.OnlyTheHostWritesZin := by
  refine ⟨fun i s t ht => (exec_same ht).zin, fun s wire rest hu hx => step_putZin hu hx, fun s t ht hne => ?_⟩
  rcases step_cases ht with rfl | ⟨i, xs, r, hexec⟩ | ⟨xs, rfl⟩ | ⟨xs, rfl⟩ | ⟨wire, rest, hx, hdec, rfl⟩
  · exact absurd rfl hne
  · exact absurd (exec_same hexec).zin hne
  · exact absurd (raiseError_same errCmd { s with cmdIn := xs }).zin hne
  · exact absurd rfl hne
  · exact ⟨rest, hx, hdec⟩

/-! ### What stops a host-driven engine -/

theorem inState_answers {r : RunState} {s : State} {body : Res State} (hlegal : s.runState = r → ∃ t, body = .next t) :
    ∃ t, inState r s body = .next t := by
  by_cases hr : s.runState = r
  · rw [inState_of_eq _ hr]
    exact hlegal hr
  · exact ⟨_, inState_of_ne _ hr⟩

theorem encSym_answers {s : State} (h : HostInv s) (sym : Byte) : ∃ t, execEncSym sym s = .next t := by
  by_cases hr : s.runState = .enc
  · have hready := (h.enc hr).ready
    cases hc : childAt s s.cur sym with
    | some node => exact ⟨_, execEncSym_extend hr hready hc⟩
    | none => exact ⟨_, execEncSym_break hr h.engine hready ((h.enc hr).fresh h.engine) hc⟩
  · exact ⟨_, inState_of_ne _ hr⟩

theorem encEnd_answers {s : State} (h : HostInv s) : ∃ t, execEncEnd s = .next t := by
  by_cases hr : s.runState = .enc
  · by_cases hc : s.cur = emptyCode
    · exact ⟨_, execEncEnd_root hr h.engine (h.enc hr).live hc⟩
    · exact ⟨_, execEncEnd_match hr h.engine (h.enc hr).live hc⟩
  · exact ⟨_, inState_of_ne _ hr⟩

/-- A data pair in a decode run completes exactly if its code is assigned (30_encoding.md R88). -/
theorem appendPair_answers {s : State} (he : EngineInv s) (hl : s.wtLive = true) (hfree : wordAt s s.nextCode = none)
    (c : Code) (y : Byte) : (∃ t, appendPair c y s = .next t) ∨ appendPair c y s = .fault .unassignedCode := by
  cases hw : wordAt s c with
  | none => exact .inr (appendPair_absent hl y hw)
  | some w => exact .inl ⟨_, appendPair_eq hl y hw hfree he.next_assignable he.cursors.2.2⟩

/-- DEC_PAIR completes, but for a reference to an unassigned code in a decode run (43_codec.md R160). -/
theorem decPair_answers {s : State} (h : HostInv s) :
    (∃ t, execDecPair s = .next t) ∨ (s.runState = .dec ∧ execDecPair s = .fault .unassignedCode) := by
  by_cases hr : s.runState = .dec
  · have hd := h.dec hr
    have hread := readPair_bits h.engine.width_ok hd.notStopped h.engine.cursors.2.1 h.engine.block_pos
    have hue := readPair_engineInv h.engine hread
    unfold execDecPair
    rw [inState_of_eq _ hr, hread, andThen_next]
    obtain ⟨r, i, z, hbits⟩ := getBits_only ((codeWidth s).toNat + 8) s
    unfold afterBits at hue ⊢
    rw [hbits] at hue ⊢
    split_ifs
    · rcases appendPair_answers hue hd.live (hd.fresh h.engine) _ _ with ht | hf
      · exact .inl ht
      · exact .inr ⟨hr, hf⟩
    · exact .inl ⟨_, endOfStream_eq hue.cursors.2.2 hd.live⟩
  · exact .inl ⟨_, inState_of_ne _ hr⟩

/-- A command of a host-driven engine completes, but for a DEC_PAIR that is U1. -/
theorem command_answers {w : BitVec 24} {i : Instr} (hd : decodeCmd w = .ok i) {s : State} (h : HostInv s) :
    (∃ t, exec i s = .next t) ∨ (s.runState = .dec ∧ w = 0x000006#24 ∧ exec i s = .fault .unassignedCode) := by
  rcases decodeCmd_forms hd with ⟨-, rfl⟩ | ⟨prot, -, rfl⟩ | ⟨sym, -, rfl⟩ | ⟨-, rfl⟩ | ⟨-, rfl⟩ | ⟨hw, rfl⟩
  · exact .inl ⟨_, rfl⟩
  · exact .inl (inState_answers fun _ => ⟨_, rfl⟩)
  · exact .inl (encSym_answers h sym)
  · exact .inl (encEnd_answers h)
  · exact .inl (inState_answers fun _ => ⟨_, rfl⟩)
  · rcases decPair_answers h with ht | ⟨hr, hf⟩
    · exact .inl ht
    · exact .inr ⟨hr, hw, hf⟩

/-- Settles O54: by the host's next input; of the commands only DEC_PAIR can stop, and of the other inputs only a change of ZIN. -/
theorem hostReachesNoOtherStop : Obligations.HostReachesNoOtherStop := by
  intro s h
  cases hx : s.cmdIn with
  | nil => exact .inl ⟨s, step_nothing h.noRequest hx⟩
  | cons x rest =>
    cases x with
    | hardReset => exact .inl ⟨_, step_hardReset h.noRequest hx⟩
    | putZin wire =>
      rw [step_putZin h.noRequest hx]
      by_cases hr : s.runState = .dec
      · exact .inr (.inr ⟨hr, ⟨wire, rest, rfl⟩, if_pos hr⟩)
      · exact .inl ⟨_, if_neg hr⟩
    | cmd w =>
      cases hd : decodeCmd w with
      | error e => exact .inl ⟨_, step_illegalCommand h.noRequest hx hd⟩
      | ok i =>
        rw [step_cmd h.noRequest hx hd]
        rcases command_answers hd (h.cmdIn rest) with ht | ⟨hr, hw, hf⟩
        · exact .inl ht
        · exact .inr (.inl ⟨hr, ⟨rest, by rw [hw]⟩, hf⟩)

end Sys2Proof.Machine
end

section
/-! Family 20_memory: two decoders that differ in BLOCK only, step by step. They are related by what a decode run goes by: the
counter, the word table, the bits that come and the bytes put out, none of which holds a BLOCK (20_memory.md R66, 00_scope.md R9). -/

namespace Sys2Proof.Machine

/-! ### Outcomes that agree -/

/-- Where `o` answers a next state `o'` answers one that `R` relates to it, and where `o` faults `o'` has the same fault. -/
structure Agree (R : State → State → Prop) (o o' : Res State) : Prop where
  next : ∀ t, o = .next t → ∃ t', o' = .next t' ∧ R t t'
  fault : ∀ r, o = .fault r → o' = .fault r

theorem agree_next {R : State → State → Prop} {t t' : State} (h : R t t') : Agree R (.next t) (.next t') where
  next := by rintro _ ⟨⟩; exact ⟨t', rfl, h⟩
  fault := by rintro _ ⟨⟩

theorem agree_fault (R : State → State → Prop) (r : Fault) : Agree R (.fault r) (.fault r) where
  next := by rintro _ ⟨⟩
  fault := fun _ h => h

theorem Agree.andThen {R Q : State → State → Prop} {o o' : Res State} {f f' : State → Res State} (h : Agree R o o')
    (hf : ∀ t t', R t t' → Agree Q (f t) (f' t')) : Agree Q (andThen o f) (andThen o' f') where
  next := by
    intro u hu
    obtain ⟨t, ht, hu⟩ := andThen_eq_next.1 hu
    obtain ⟨t', ht', hR⟩ := h.next t ht
    obtain ⟨u', hu', hQ⟩ := (hf t t' hR).next u hu
    exact ⟨u', andThen_eq_next.2 ⟨t', ht', hu'⟩, hQ⟩
  fault := by
    intro r hr
    rcases andThen_eq_fault.1 hr with ho | ⟨t, ht, hr⟩
    · exact andThen_eq_fault.2 (.inl (h.fault r ho))
    · obtain ⟨t', ht', hR⟩ := h.next t ht
      exact andThen_eq_fault.2 (.inr ⟨t', ht', (hf t t' hR).fault r hr⟩)

/-! ### Two engines in the same decode run -/

/-- A host-driven engine, its wire short enough for `zin_pos`. -/
structure Driven (s : State) : Prop where
  host : HostInv s
  countable : s.zin.length < 2 ^ 64

theorem Driven.command {s t : State} (h : Driven s) {w : BitVec 24} {i : Instr} (hd : decodeCmd w = .ok i)
    (ht : exec i s = .next t) : Driven t :=
  ⟨command_hostInv hd h.host ht, by rw [(exec_same ht).zin]; exact h.countable⟩

theorem Driven.withInputs {s : State} (h : Driven s) (xs : List HostInput) : Driven (s.withInputs xs) := by
  have hs : s.withInputs xs = { s with cmdIn := xs } := by
    unfold State.withInputs
    rw [← h.host.noRequest]
  rw [hs]
  exact ⟨h.host.cmdIn xs, h.countable⟩

/-- Two engines at the same place of the same decode run, whatever their BLOCKs. -/
structure SameRun (s s' : State) : Prop where
  left : Driven s
  right : Driven s'
  maxCode : s'.cfg.maxCode = s.cfg.maxCode
  runState : s'.runState = s.runState
  nextCode : s'.nextCode = s.nextCode
  prot : s'.prot = s.prot
  totalBits : s'.totalBits = s.totalBits
  totalSyms : s'.totalSyms = s.totalSyms
  wt : s'.wt = s.wt
  decoded : decodedBytes s' = decodedBytes s
  coming : ∀ k, upcomingBit s' k = upcomingBit s k

theorem SameRun.withInputs {s s' : State} (h : SameRun s s') (xs : List HostInput) :
    SameRun (s.withInputs xs) (s'.withInputs xs) :=
  ⟨h.left.withInputs xs, h.right.withInputs xs, h.maxCode, h.runState, h.nextCode, h.prot, h.totalBits, h.totalSyms, h.wt,
    h.decoded, h.coming⟩

theorem SameRun.upcomingBits_eq {s s' : State} (h : SameRun s s') (start n : Nat) :
    upcomingBits s' start n = upcomingBits s start n := by
  unfold upcomingBits
  rw [funext h.coming]

theorem SameRun.upcomingCode_eq {s s' : State} (h : SameRun s s') : upcomingCode s' = upcomingCode s := by
  unfold upcomingCode
  rw [h.upcomingBits_eq, h.nextCode]

theorem SameRun.upcomingSym_eq {s s' : State} (h : SameRun s s') : upcomingSym s' = upcomingSym s := by
  unfold upcomingSym
  rw [h.upcomingBits_eq, h.nextCode]

theorem SameRun.wordAt_eq {s s' : State} (h : SameRun s s') (c : Code) : wordAt s' c = wordAt s c := by
  unfold wordAt
  rw [h.wt]

theorem SameRun.advancedCode_eq {s s' : State} (h : SameRun s s') : advancedCode s' = advancedCode s := by
  unfold advancedCode
  rw [h.nextCode, h.maxCode]

/-! ### DEC_PAIR -/

@[simp] theorem afterPair_cfg (s : State) : (afterPair s).cfg = s.cfg := by
  obtain ⟨_, _, _, h⟩ := afterPair_only s
  rw [h]

@[simp] theorem afterPair_runState (s : State) : (afterPair s).runState = s.runState := by
  obtain ⟨_, _, _, h⟩ := afterPair_only s
  rw [h]

@[simp] theorem afterPair_nextCode (s : State) : (afterPair s).nextCode = s.nextCode := by
  obtain ⟨_, _, _, h⟩ := afterPair_only s
  rw [h]

@[simp] theorem afterPair_prot (s : State) : (afterPair s).prot = s.prot := by
  obtain ⟨_, _, _, h⟩ := afterPair_only s
  rw [h]

@[simp] theorem afterPair_totalSyms (s : State) : (afterPair s).totalSyms = s.totalSyms := by
  obtain ⟨_, _, _, h⟩ := afterPair_only s
  rw [h]

@[simp] theorem afterPair_totalBits (s : State) :
    (afterPair s).totalBits = s.totalBits + BitVec.ofNat 64 (bitLength s.nextCode.toNat + 8) := by
  obtain ⟨_, _, _, h⟩ := afterPair_only s
  rw [h]

theorem Driven.afterPair_upcomingBit {s : State} (h : Driven s) (k : Nat) :
    upcomingBit (afterPair s) k = upcomingBit s (k + (bitLength s.nextCode.toNat + 8)) := by
  obtain ⟨-, hcoming, -⟩ := getBits_spec h.host.engine.cursors.2.1 h.host.engine.block_pos h.countable
    (bitLength s.nextCode.toNat + 8)
  exact hcoming k

theorem SameRun.afterPair_coming {s s' : State} (h : SameRun s s') (k : Nat) :
    upcomingBit (afterPair s') k = upcomingBit (afterPair s) k := by
  rw [h.left.afterPair_upcomingBit, h.right.afterPair_upcomingBit, h.nextCode, h.coming]

theorem SameRun.afterPair_totalBits_eq {s s' : State} (h : SameRun s s') :
    (afterPair s').totalBits = (afterPair s).totalBits := by
  rw [afterPair_totalBits, afterPair_totalBits, h.totalBits, h.nextCode]

theorem raiseError_sameRun {s s' : State} (h : SameRun s s') : SameRun (raiseError errCmd s) (raiseError errCmd s') where
  left := ⟨raiseError_hostInv h.left.host (.inr rfl), by rw [(raiseError_same errCmd s).zin]; exact h.left.countable⟩
  right := ⟨raiseError_hostInv h.right.host (.inr rfl), by rw [(raiseError_same errCmd s').zin]; exact h.right.countable⟩
  maxCode := by rw [raiseError_cfg, raiseError_cfg, h.maxCode]
  runState := by rw [raiseError_runState, raiseError_runState]
  nextCode := by rw [raiseError_eq, raiseError_eq]; exact h.nextCode
  prot := by rw [raiseError_eq, raiseError_eq]; exact h.prot
  totalBits := by rw [raiseError_eq, raiseError_eq]; exact h.totalBits
  totalSyms := by rw [raiseError_eq, raiseError_eq]; exact h.totalSyms
  wt := by rw [raiseError_eq, raiseError_eq]; exact h.wt
  decoded := by rw [raiseError_eq, raiseError_eq]; exact h.decoded
  coming := by rw [raiseError_eq, raiseError_eq]; exact h.coming

theorem decodeCmd_decPair : decodeCmd (cmdWord 0x06#8 0) = .ok .decPair := by
  rw [decodeCmd_cmdWord]
  rfl

section
variable {s s' : State}

/-- Both engines read the sentinel: both go to DONE. -/
theorem decPair_sameRun_stop (h : SameRun s s') (hr : s.runState = .dec) (hc : upcomingCode s = stopCode) :
    Agree SameRun (execDecPair s) (execDecPair s') := by
  have hr' : s'.runState = .dec := h.runState.trans hr
  have hd := h.left.host.dec hr
  have hd' := h.right.host.dec hr'
  have hs := execDecPair_stop hr h.left.host.engine h.left.countable hd.notStopped hd.live hc
  have hs' := execDecPair_stop hr' h.right.host.engine h.right.countable hd'.notStopped hd'.live (h.upcomingCode_eq.trans hc)
  have hleft := h.left.command decodeCmd_decPair hs
  have hright := h.right.command decodeCmd_decPair hs'
  rw [hs, hs']
  refine agree_next ⟨hleft, hright, ?_, rfl, ?_, ?_, h.afterPair_totalBits_eq, ?_, rfl, ?_, h.afterPair_coming⟩
  · simpa using h.maxCode
  · simpa using h.nextCode
  · simpa using h.prot
  · simpa using h.totalSyms
  · exact congrArg (· ++ []) h.decoded

/-- Both engines read a reference to the same unassigned code: U1 in both. -/
theorem decPair_sameRun_undef (h : SameRun s s') (hr : s.runState = .dec) (hc : upcomingCode s ≠ stopCode)
    (hw : wordAt s (upcomingCode s) = none) : Agree SameRun (execDecPair s) (execDecPair s') := by
  have hr' : s'.runState = .dec := h.runState.trans hr
  have hd := h.left.host.dec hr
  have hd' := h.right.host.dec hr'
  rw [execDecPair_undef hr h.left.host.engine h.left.countable hd.notStopped hd.live hc hw,
    execDecPair_undef hr' h.right.host.engine h.right.countable hd'.notStopped hd'.live
      (by rwa [h.upcomingCode_eq]) (by rw [h.wordAt_eq, h.upcomingCode_eq, hw])]
  exact agree_fault _ _

/-- Both engines read the same data pair: both put out the same word and learn it under the same code. -/
theorem decPair_sameRun_data (h : SameRun s s') (hr : s.runState = .dec) (hc : upcomingCode s ≠ stopCode) {w : ByteSeq}
    (hw : wordAt s (upcomingCode s) = some w) : Agree SameRun (execDecPair s) (execDecPair s') := by
  have hr' : s'.runState = .dec := h.runState.trans hr
  have hd := h.left.host.dec hr
  have hd' := h.right.host.dec hr'
  have he := h.left.host.engine
  have he' := h.right.host.engine
  have hw' : wordAt s' (upcomingCode s') = some w := by rw [h.wordAt_eq, h.upcomingCode_eq, hw]
  have hs := execDecPair_data hr he h.left.countable hd.notStopped hd.live hc hw (hd.fresh he)
  have hs' := execDecPair_data hr' he' h.right.countable hd'.notStopped hd'.live (by rwa [h.upcomingCode_eq]) hw'
    (hd'.fresh he')
  have hleft := h.left.command decodeCmd_decPair hs
  have hright := h.right.command decodeCmd_decPair hs'
  rw [hs, hs']
  refine agree_next ⟨hleft, hright, ?_, ?_, ?_, ?_, h.afterPair_totalBits_eq, ?_, ?_, ?_, h.afterPair_coming⟩
  · simpa using h.maxCode
  · simpa using h.runState
  · exact congrArg (BitVec.ofNat 16) h.advancedCode_eq
  · simpa using h.prot
  · exact congrArg (· + _) h.totalSyms
  · simp only [h.nextCode, h.maxCode, h.wt, h.upcomingSym_eq]
  · calc
      _ = decodedBytes s' ++ (w ++ [upcomingSym s']) := putBytesOut_decoded s' _
      _ = decodedBytes s ++ (w ++ [upcomingSym s]) := by rw [h.decoded, h.upcomingSym_eq]
      _ = _ := (putBytesOut_decoded s _).symm

theorem decPair_sameRun (h : SameRun s s') : Agree SameRun (execDecPair s) (execDecPair s') := by
  by_cases hr : s.runState = .dec
  · by_cases hc : upcomingCode s = stopCode
    · exact decPair_sameRun_stop h hr hc
    · cases hw : wordAt s (upcomingCode s) with
      | none => exact decPair_sameRun_undef h hr hc hw
      | some w => exact decPair_sameRun_data h hr hc hw
  · have hr' : s'.runState ≠ .dec := fun e => hr (h.runState.symm.trans e)
    rw [show execDecPair s = _ from inState_of_ne _ hr, show execDecPair s' = _ from inState_of_ne _ hr']
    exact agree_next (raiseError_sameRun h)

end

theorem pairInputs_sameRun (n : Nat) {s s' : State} (h : SameRun s s') :
    Agree SameRun (serve (pairInputs n) s) (serve (pairInputs n) s') := by
  induction n generalizing s s' with
  | zero => exact agree_next (h.withInputs [])
  | succ n ih =>
    rw [show pairInputs (n + 1) = .cmd (cmdWord 0x06#8 0) :: pairInputs n from rfl, serve_cmd decodeCmd_decPair,
      serve_cmd decodeCmd_decPair]
    exact (decPair_sameRun (h.withInputs _)).andThen fun _ _ => ih

/-! ### RESET, the wire, DEC_START -/

theorem decodeCmd_reset : decodeCmd (cmdWord 0x01#8 0) = .ok .reset := by
  rw [decodeCmd_cmdWord]
  rfl

theorem decodeCmd_decStart : decodeCmd (cmdWord 0x05#8 0) = .ok .decStart := by
  rw [decodeCmd_cmdWord]
  rfl

/-- The engine right after RESET with a wire on ZIN and inputs pending. -/
def wireReady (wire : ByteSeq) (xs : List HostInput) (s : State) : State :=
  { State.resetOf s.cfg with zin := wire, cmdIn := xs, freeIndex := s.freeIndex }

theorem serve_decodeInputs (wire : ByteSeq) (n : Nat) (s : State) :
    serve (decodeInputs wire n) s = andThen (execDecStart (wireReady wire (pairInputs n) s)) (serve (pairInputs n)) := by
  unfold decodeInputs
  rw [serve_cmd decodeCmd_reset]
  refine (serve_putZin _ _).trans ?_
  exact serve_cmd decodeCmd_decStart _ _

theorem wireReady_driven {wire : ByteSeq} (hz : wire.length < 2 ^ 64) (xs : List HostInput) {s : State} (hc : s.cfg.Ok) :
    Driven (wireReady wire xs s) :=
  ⟨resetState_hostInv (s := wireReady wire xs s) hc rfl, hz⟩

/-- Two engines with an exhausted RBUF at the same place of the same wire have the same bits to come. -/
theorem upcomingBit_congr_of_exhausted {s s' : State} (h : s.ridx = 8 * s.cfg.block) (h' : s'.ridx = 8 * s'.cfg.block)
    (hzin : s'.zin = s.zin) (hpos : s'.zinPos = s.zinPos) (k : Nat) : upcomingBit s' k = upcomingBit s k := by
  rw [upcomingBit_of_exhausted h, upcomingBit_of_exhausted h']
  unfold inByte
  rw [hzin, hpos]

section
variable {s s' : State} {wire : ByteSeq} {xs : List HostInput}

theorem wireReady_pull (n : Nat) : (pull n (wireReady wire xs s')).1 = (pull n (wireReady wire xs s)).1 := by
  rw [pull_bytes, pull_bytes]
  rfl

theorem decStart_sameRun (hc : s.cfg.Ok) (hc' : s'.cfg.Ok) (hmax : s'.cfg.maxCode = s.cfg.maxCode)
    (hmagic : s'.cfg.magic = s.cfg.magic) (hpad : s'.cfg.headerPad = s.cfg.headerPad) (hz : wire.length < 2 ^ 64) :
    Agree SameRun (execDecStart (wireReady wire xs s)) (execDecStart (wireReady wire xs s')) := by
  have hhb : s'.cfg.headerBytes = s.cfg.headerBytes := by unfold Config.headerBytes; rw [hpad]
  have hpull : (pull s'.cfg.headerBytes (wireReady wire xs s')).1 = (pull s.cfg.headerBytes (wireReady wire xs s)).1 := by
    rw [hhb, wireReady_pull]
  have hpos : (0 : Counter) + BitVec.ofNat 64 (min s'.cfg.headerBytes (wire.length - 0)) =
      0 + BitVec.ofNat 64 (min s.cfg.headerBytes (wire.length - 0)) := by rw [hhb]
  by_cases hm : headerMagic (pull s.cfg.headerBytes (wireReady wire xs s)).1 = s.cfg.magic
  · have hm' : headerMagic (pull s'.cfg.headerBytes (wireReady wire xs s')).1 = s'.cfg.magic := by rw [hpull, hm, hmagic]
    have hs := execDecStart_accept (s := wireReady wire xs s) rfl hm
    have hs' := execDecStart_accept (s := wireReady wire xs s') rfl hm'
    have hleft := (wireReady_driven hz xs hc).command decodeCmd_decStart hs
    have hright := (wireReady_driven hz xs hc').command decodeCmd_decStart hs'
    rw [hs, hs']
    exact agree_next ⟨hleft, hright, hmax, rfl, rfl, congrArg headerProt hpull, rfl, rfl, rfl, rfl,
      upcomingBit_congr_of_exhausted rfl rfl rfl hpos⟩
  · have hm' : headerMagic (pull s'.cfg.headerBytes (wireReady wire xs s')).1 ≠ s'.cfg.magic := by rwa [hpull, hmagic]
    have hs := execDecStart_reject (s := wireReady wire xs s) rfl hm
    have hs' := execDecStart_reject (s := wireReady wire xs s') rfl hm'
    have hleft := (wireReady_driven hz xs hc).command decodeCmd_decStart hs
    have hright := (wireReady_driven hz xs hc').command decodeCmd_decStart hs'
    rw [hs, hs']
    exact agree_next ⟨hleft, hright, hmax, rfl, rfl, rfl, rfl, rfl, rfl, rfl,
      upcomingBit_congr_of_exhausted rfl rfl rfl hpos⟩

end

/-- At the end of a run every decoded byte is on SOUT (43_codec.md R162). -/
theorem HostInv.done_sout {s : State} (h : HostInv s) (hr : s.runState = .done) : s.sout = decodedBytes s := by
  unfold decodedBytes
  rw [(h.done hr).flushed.2]
  exact (List.append_nil _).symm

/-- Settles O59: DEC_START puts two engines that differ in BLOCK only at the same place of the same run, and every DEC_PAIR keeps
them there, or stops both. -/
theorem decodedBytesDoNotDependOnBlock : Obligations.DecodedBytesDoNotDependOnBlock := by
  intro s s' wire n hc hc' hmax hmagic hpad hz
  have hrun : Agree SameRun (serve (decodeInputs wire n) s) (serve (decodeInputs wire n) s') := by
    rw [serve_decodeInputs, serve_decodeInputs]
    exact (decStart_sameRun hc hc' hmax hmagic hpad hz).andThen fun _ _ => pairInputs_sameRun n
  refine ⟨fun t ht => ?_, hrun.fault⟩
  obtain ⟨t', ht', h⟩ := hrun.next t ht
  refine ⟨t', ht', h.runState, h.decoded, fun hdone => ?_, h.nextCode, h.prot, h.totalBits, h.totalSyms⟩
  rw [h.left.host.done_sout hdone, h.right.host.done_sout (h.runState.trans hdone), h.decoded]

end Sys2Proof.Machine
end

section
/-! Family 30_encoding: decode and encode agree (30_encoding.md R81 to R96), an illegal command word (R93), and the units of the
wire as DEC_START and DEC_PAIR run them (R81, R85). -/

namespace Sys2Proof.Machine

/-! ### Decode of encode -/

/-- Every instruction is read back from its encoding: one law of `Laws.RoundTrip` per constructor. -/
theorem decode_encode (i : Instr) : Laws.RoundTrip.Statement i := by
  cases i with
  | reset => exact Laws.RoundTrip.reset
  | encStart p => exact Laws.RoundTrip.encStart p
  | encSym y => exact Laws.RoundTrip.encSym y
  | encEnd => exact Laws.RoundTrip.encEnd
  | decStart => exact Laws.RoundTrip.decStart
  | decPair => exact Laws.RoundTrip.decPair
  | writeHeader m p => exact Laws.RoundTrip.writeHeader m p
  | readHeader => exact Laws.RoundTrip.readHeader
  | writePair c y w => exact Laws.RoundTrip.writePair c y w
  | readPair w => exact Laws.RoundTrip.readPair w
  | flush => exact Laws.RoundTrip.flush
  | writeWord xs => exact Laws.RoundTrip.writeWord xs
  | flushWords => exact Laws.RoundTrip.flushWords
  | trieCreate => exact Laws.RoundTrip.trieCreate
  | trieStep n b => exact Laws.RoundTrip.trieStep n b
  | trieInsert n b c => exact Laws.RoundTrip.trieInsert n b c
  | trieReset => exact Laws.RoundTrip.trieReset
  | trieDelete n => exact Laws.RoundTrip.trieDelete n
  | wtCreate => exact Laws.RoundTrip.wtCreate
  | wtLookup c => exact Laws.RoundTrip.wtLookup c
  | wtAssign c p b => exact Laws.RoundTrip.wtAssign c p b
  | wtReset => exact Laws.RoundTrip.wtReset
  | wtDelete => exact Laws.RoundTrip.wtDelete
  | header m p => exact Laws.RoundTrip.header m p
  | pairStop w y => exact Laws.RoundTrip.pairStop w y
  | pairLit w y => exact Laws.RoundTrip.pairLit w y
  | pairRef w c y => exact Laws.RoundTrip.pairRef w c y
  | pairUndef w c y => exact Laws.RoundTrip.pairUndef w c y

/-- Settles O2, by cases on the instruction: a command word is its opid and its argument, a unit request carries its operands on
their ports, header bytes and pair bits give back the numbers they were made of, and the counter gives a pair its width and class. -/
theorem decodeOfEncodeIsTheInstruction : Obligations.DecodeOfEncodeIsTheInstruction :=
  fun cfg n i hwf hn => decode_encode i cfg n hwf hn

/-! ### Command words -/

/-- The argument constraints of R91 are what is left of legality when the run state is free to choose. -/
theorem opOk_iff_opLegal (opid arg : Nat) : opOk opid arg = true ↔ ∃ r, opLegal r opid arg = true := by
  have : Nonempty RunState := ⟨.idle⟩
  match opid with
  | 0 | 1 | 2 | 3 | 4 | 5 | 6 | _ + 7 => simp [opOk, opLegal]

/-- Every operation that a command word decodes to is legal in some run state (43_codec.md R153). -/
theorem decodeCmd_legal_somewhere {w : BitVec 24} {i : Instr} (hd : decodeCmd w = .ok i) : ∃ r, legalIn r i := by
  rcases decodeCmd_forms hd with ⟨-, rfl⟩ | ⟨_, -, rfl⟩ | ⟨_, -, rfl⟩ | ⟨-, rfl⟩ | ⟨-, rfl⟩ | ⟨-, rfl⟩
  · exact ⟨.idle, trivial⟩
  · exact ⟨.idle, rfl⟩
  · exact ⟨.enc, rfl⟩
  · exact ⟨.enc, rfl⟩
  · exact ⟨.idle, rfl⟩
  · exact ⟨.dec, rfl⟩

/-- The words that decode are the words R91 admits (30_encoding.md R93 (a), (b)). -/
theorem decodeCmd_iff_commandWordOk (w : BitVec 24) : (∃ i, decodeCmd w = .ok i) ↔ commandWordOk w = true :=
  calc
    (∃ i, decodeCmd w = .ok i) ↔ ∃ r, commandLegal r w = true := by
      simp only [commandLegal_iff]
      constructor
      · rintro ⟨i, hd⟩
        obtain ⟨r, hl⟩ := decodeCmd_legal_somewhere hd
        exact ⟨r, i, hd, hl⟩
      · rintro ⟨_, i, hd, -⟩
        exact ⟨i, hd⟩
    _ ↔ commandWordOk w = true := (opOk_iff_opLegal _ _).symm

/-- No bit of a command word is lost: encoding the operation it decodes to gives it back. -/
theorem encode_of_decodeCmd (cfg : Config) {w : BitVec 24} {i : Instr} (hd : decodeCmd w = .ok i) : encode cfg i = .cmd w := by
  rcases decodeCmd_forms hd with ⟨rfl, rfl⟩ | ⟨_, rfl, rfl⟩ | ⟨_, rfl, rfl⟩ | ⟨rfl, rfl⟩ | ⟨rfl, rfl⟩ | ⟨rfl, rfl⟩ <;> rfl

/-- Settles O3: the words that decode are those that are legal in some run state, and each is the encoding of its operation. -/
theorem commandDecodingIsExact : Obligations.CommandDecodingIsExact :=
  ⟨decodeCmd_iff_commandWordOk, fun cfg _ _ hd => encode_of_decodeCmd cfg hd⟩

/-- Error entry with ERR_CMD, in the words of the statements. -/
theorem raiseError_errCmd (s : State) : raiseError errCmd s = errCmdEntry s := raiseError_eq errCmd s

theorem inState_errCmdEntry {r : RunState} {s : State} (body : Res State) (h : s.runState ≠ r) :
    inState r s body = .next (errCmdEntry s) := by
  rw [inState_of_ne body h, raiseError_errCmd]

/-- A command in a run state it is not legal in raises ERR_CMD and does nothing else (30_encoding.md R93 (c)). -/
theorem exec_command_illegal {w : BitVec 24} {i : Instr} (hd : decodeCmd w = .ok i) {s : State} (hl : ¬ legalIn s.runState i) :
    exec i s = .next (errCmdEntry s) := by
  rcases decodeCmd_forms hd with ⟨-, rfl⟩ | ⟨_, -, rfl⟩ | ⟨_, -, rfl⟩ | ⟨-, rfl⟩ | ⟨-, rfl⟩ | ⟨-, rfl⟩
  · exact absurd trivial hl
  all_goals exact inState_errCmdEntry _ hl

/-- Settles O8: an illegal word either does not decode, or decodes to a command that is not legal in the run state. -/
theorem illegalCommandRaisesErrCmd : Obligations.IllegalCommandRaisesErrCmd := by
  refine ⟨fun s w rest hu hx hl => ?illegal, fun r => ?reset⟩
  case illegal =>
    cases hd : decodeCmd w with
    | error e => rw [step_illegalCommand hu hx hd, raiseError_errCmd]
    | ok i =>
      have hi : ¬ legalIn s.runState i := fun h => by
        rw [(commandLegal_iff s.runState w).2 ⟨i, hd, h⟩] at hl
        cases hl
      rw [step_cmd hu hx hd]
      exact exec_command_illegal hd hi
  case reset => exact (commandLegal_iff r _).2 ⟨.reset, rfl, trivial⟩

/-! ### The pair on the wire -/

/-- The class that R85 gives a pair at a counter is one the counter calls for. -/
theorem classifyPair_atCounter {n : Nat} {w : Width} (hw : w.toNat = bitLength n) (c : Code) (y : Byte) :
    atCounter n (classifyPair n w c y) := by
  unfold classifyPair
  split_ifs with hstop hempty hlt
  · exact hw
  · exact hw
  · exact ⟨hw, hlt⟩
  · exact ⟨hw, Nat.le_of_not_lt hlt⟩

/-- The bits that come at the read cursor decode to the pair that READ_PAIR reads there (30_encoding.md R82 to R84). -/
theorem decodePair_upcoming (s : State) :
    decodePair s.nextCode.toNat ((List.range (bitLength s.nextCode.toNat + 8)).map (upcomingBit s)) =
      .ok (classifyPair s.nextCode.toNat (codeWidth s) (upcomingCode s) (upcomingSym s)) := by
  have hsplit : (List.range (bitLength s.nextCode.toNat + 8)).map (upcomingBit s) =
      (List.range (bitLength s.nextCode.toNat)).map (fun i => upcomingBit s (0 + i)) ++
        (List.range 8).map (fun i => upcomingBit s (bitLength s.nextCode.toNat + i)) := by
    simp only [List.range_add, List.map_append, List.map_map, Function.comp_def, Nat.zero_add]
  have hlen : ((List.range (bitLength s.nextCode.toNat)).map (fun i => upcomingBit s (0 + i))).length =
      bitLength s.nextCode.toNat := by simp
  unfold decodePair
  rw [hsplit]
  simp only [List.take_left' hlen, List.drop_left' hlen]
  rw [if_pos (by simp)]
  rfl

/-- What a wire pair of a decode run does once its bits are taken: the sentinel ends the stream, every other pair is appended; a
reference to an unassigned code finds its slot empty (30_encoding.md R85, R88). -/
theorem exec_classifyPair {u : State} (hr : u.runState = .dec) (hl : u.wtLive = true) {n : Nat} {c : Code}
    (hundef : c ≠ emptyCode → n ≤ c.toNat → wordAt u c = none) (w : Width) (y : Byte) :
    exec (classifyPair n w c y) u =
      if c = stopCode then endOfStream (latchPair w c y u) else appendPair c y (latchPair w c y u) := by
  unfold classifyPair
  split_ifs with hstop hempty hlt
  · rw [hstop]; exact inState_of_eq _ hr
  · rw [hempty]; exact inState_of_eq _ hr
  · exact inState_of_eq _ hr
  · exact (appendPair_absent (u := latchPair w c y u) hl y (hundef hempty (Nat.le_of_not_lt hlt))).symm

/-- In a decode run the codes from `next_code` on are unassigned (42_wordtable.md R147). -/
theorem DecInv.unassigned {s : State} (h : DecInv s) {c : Code} (hc : c ≠ emptyCode) (hn : s.nextCode.toNat ≤ c.toNat) :
    wordAt s c = none := by
  by_contra hsome
  rcases (h.slots c).1 (Option.isSome_iff_ne_none.2 hsome) with h0 | ⟨-, hlt⟩
  · exact hc h0
  · omega

/-- Taking wire bits leaves the word table alone. -/
theorem afterBits_table (n : Nat) (s : State) : (afterBits n s).wt = s.wt ∧ (afterBits n s).wtLive = s.wtLive := by
  unfold afterBits
  rw [getBits_frame]
  exact ⟨rfl, rfl⟩

/-- Settles O41: READ_PAIR and the decoder take the same bits for code and symbol, and DEC_PAIR, which goes by the slot of the code,
agrees with the pair's class, which goes by the counter. -/
theorem decPairRunsThePairOnTheWire : Obligations.DecPairRunsThePairOnTheWire := by
  intro s hs he hd hz
  obtain ⟨hwt, hlive⟩ := afterBits_table (bitLength s.nextCode.toNat + 8) s
  have hrun := (afterBits_sameTrie (bitLength s.nextCode.toNat + 8) s).runState
  refine ⟨_, decodePair_upcoming s, classifyPair_atCounter (codeWidth_toNat s) _ _, ?runs, afterBits_took he hz _⟩
  rw [exec_classifyPair (hrun.trans hs) (hlive.trans hd.live)
    fun hc hn => (congrArg (slotGet · _) hwt).trans (hd.unassigned hc hn)]
  exact execDecPair_parts hs he hz hd.notStopped

/-! ### The units of the wire -/

/-- HEADER in IDLE with the engine's magic opens a decode run (43_codec.md R159). -/
theorem acceptHeader_of_eq {m : BitVec 32} {s : State} (hm : m = s.cfg.magic) (p : BitVec 16) :
    acceptHeader m p s = { s with
      prot := p, wt := emptyTable, wtLive := true, nextCode := startCode, runState := .dec } := if_pos hm

/-- HEADER with another magic raises ERR_FORMAT (43_codec.md R159, 60_exceptions.md R182). -/
theorem acceptHeader_of_ne {m : BitVec 32} {s : State} (hm : m ≠ s.cfg.magic) (p : BitVec 16) :
    acceptHeader m p s = raiseError errFormat s := if_neg hm

/-- A literal or a reference to an assigned code, in a decode run: its code has a word, which the pair extends
(30_encoding.md R85). -/
theorem exec_dataPair {s : State} (hr : s.runState = .dec) (hd : DecInv s) {w : Width} {code : Code} {sym : Byte} {i : Instr}
    (hi : (code = 0#16 ∧ i = .pairLit w sym) ∨
      (2 ≤ code.toNat ∧ code.toNat < s.nextCode.toNat ∧ i = .pairRef w code sym)) :
    code ≠ stopCode ∧ (∃ word, wordAt s code = some word) ∧ exec i s = appendPair code sym (latchPair w code sym s) := by
  rcases hi with ⟨rfl, rfl⟩ | ⟨hge, hlt, rfl⟩
  · exact ⟨by decide, Option.isSome_iff_exists.1 ((hd.slots _).2 (.inl rfl)), inState_of_eq _ hr⟩
  · refine ⟨fun hstop => ?_, Option.isSome_iff_exists.1 ((hd.slots code).2 (.inr ⟨hge, hlt⟩)), inState_of_eq _ hr⟩
    rw [hstop] at hge
    exact absurd hge (by decide)

/-- OBUF's cursor after a word and one more byte. -/
theorem putBytesOut_oidx_snoc {s : State} (h : s.oidx < s.cfg.block) (word : ByteSeq) (y : Byte) :
    (putBytesOut (word ++ [y]) s).oidx = (s.oidx + (word.length + 1)) % s.cfg.block := by
  rw [putBytesOut_oidx h, List.length_append, List.length_singleton]

/-- A latched data pair of a decode run, appended: the word of its code with the symbol is put out and learnt under `next_code`
(43_codec.md R160). -/
theorem appendPair_latched {s : State} (he : EngineInv s) (hd : DecInv s) {code : Code} {word : ByteSeq}
    (hw : wordAt s code = some word) (hc : code ≠ stopCode) (w : Width) (sym : Byte) :
    appendPair code sym (latchPair w code sym s) = .next { s with
      rpCode := code, rpSym := sym, hasMore := true
      totalBits := s.totalBits + BitVec.ofNat 64 (w.toNat + 8)
      totalSyms := s.totalSyms + BitVec.ofNat 64 (word.length + 1)
      wt := if s.nextCode.toNat + 1 = s.cfg.maxCode then emptyTable else slotPut s.wt s.nextCode.toNat (word ++ [sym])
      obuf := (putBytesOut (word ++ [sym]) s).obuf
      sout := (putBytesOut (word ++ [sym]) s).sout
      oidx := (s.oidx + (word.length + 1)) % s.cfg.block
      nextCode := BitVec.ofNat 16 (advancedCode s) } := by
  have hmore : hasMoreOf code = true := decide_eq_true hc
  obtain ⟨hobuf, hoidx, hsout⟩ := putBytesOut_congr (word ++ [sym]) (s := s) (u := latchPair w code sym s) rfl rfl rfl rfl
  rw [appendPair_eq (u := latchPair w code sym s) hd.live sym hw (hd.fresh he) he.next_assignable he.cursors.2.2,
    hobuf, hoidx, hsout, putBytesOut_oidx_snoc he.cursors.2.2, ← hmore]
  rfl

/-- The table after a data pair: emptied where the epoch ends, else one word more (43_codec.md R152, R160). -/
theorem learn_wordAt (s : State) (word : ByteSeq) (c : Code) :
    slotGet (if s.nextCode.toNat + 1 = s.cfg.maxCode then emptyTable else slotPut s.wt s.nextCode.toNat word) c.toNat =
      if s.nextCode.toNat + 1 = s.cfg.maxCode then (if c = emptyCode then some [] else none)
      else if c = s.nextCode then some word else wordAt s c := by
  by_cases hmax : s.nextCode.toNat + 1 = s.cfg.maxCode
  · rw [if_pos hmax, if_pos hmax]
    exact wordAt_emptyTable c
  · rw [if_neg hmax, if_neg hmax]
    exact wordAt_put s s.nextCode word c

/-- Settles O42: HEADER by its magic, PAIR.STOP by the end of the stream, PAIR.LIT and PAIR.REF by the word of their code, and each
outside its run state by ERR_CMD. -/
theorem wireUnitsComplete : Obligations.WireUnitsComplete := by
  refine ⟨fun magic prot s => ⟨?headerElsewhere, ?badMagic, ?goodMagic⟩, fun w sym s => ⟨?pairElsewhere, ?stop⟩, ?data⟩
  case headerElsewhere => exact fun hr => inState_errCmdEntry _ hr
  case badMagic =>
    intro hr hm
    have hne : s.runState ≠ .error := by rw [hr]; decide
    refine (inState_of_eq _ hr).trans ?_
    rw [acceptHeader_of_ne hm, raiseError_of_ne _ hne]
    rfl
  case goodMagic =>
    intro hr hm
    exact ⟨_, (inState_of_eq _ hr).trans (congrArg _ (acceptHeader_of_eq hm prot)), rfl, wordAt_emptyTable⟩
  case pairElsewhere =>
    exact fun hr => ⟨inState_errCmdEntry _ hr, inState_errCmdEntry _ hr, fun _ => inState_errCmdEntry _ hr⟩
  case stop =>
    intro hr he hd
    refine (inState_of_eq _ hr).trans ?_
    exact endOfStream_eq (u := latchPair w stopCode sym s) he.cursors.2.2 hd.live
  case data =>
    intro w code sym s hr he hd i hi
    obtain ⟨hstop, ⟨word, hword⟩, hexec⟩ := exec_dataPair hr hd hi
    have htable := learn_wordAt s (word ++ [sym])
    refine ⟨word, _, hword, hexec.trans (appendPair_latched he hd hword hstop w sym), rfl, putBytesOut_sout _ s, ?decoded,
      fun hmax c => (htable c).trans (if_pos hmax), fun hmax c => (htable c).trans (if_neg hmax), fun a ha => ?frame⟩
    case decoded =>
      rw [← putBytesOut_decoded, ← putBytesOut_oidx_snoc he.cursors.2.2]
      rfl
    case frame => exact putBytesOut_other he.cursors.2.2 (word ++ [sym]) (by simpa using ha)

/-! ### Words of the spec, and the undefined pair -/

/-- Settles O1, by running the decoder on each word. -/
theorem wordsOfTheSpecDecode : Obligations.WordsOfTheSpecDecode :=
  ⟨rfl, rfl, rfl, rfl, rfl, rfl, rfl, rfl, rfl, rfl, rfl⟩

/-- Settles O43: the meaning of PAIR.UNDEF is the fault, whatever the state (30_encoding.md R88, U1). -/
theorem undefinedPairFaults : Obligations.UndefinedPairFaults := fun _ _ _ _ => rfl

end Sys2Proof.Machine
end

section
/-! Family 40_bitchannel, the round trip of R119: what WRITE_HEADER, WRITE_PAIR and FLUSH put on ZOUT, READ_HEADER and READ_PAIR
return. The writer is followed by the bits it sent, the reader by the bits that come; neither holds a BLOCK. -/

namespace Sys2Proof.Machine

/-! ### The width operand -/

theorem widthInRange_iff {w : Width} : widthInRange w = true ↔ 1 ≤ w.toNat ∧ w.toNat ≤ 16 := by
  unfold widthInRange
  rw [Bool.and_eq_true, decide_eq_true_iff, decide_eq_true_iff]

/-- A width up to 16 fits the 5-bit operand. -/
theorem width_toNat {n : Nat} (h : n ≤ 16) : (BitVec.ofNat 5 n).toNat = n := by
  rw [BitVec.toNat_ofNat]
  omega

theorem widthInRange_ofNat {n : Nat} (h1 : 1 ≤ n) (h16 : n ≤ 16) : widthInRange (BitVec.ofNat 5 n) = true := by
  rw [widthInRange_iff, width_toNat h16]
  exact ⟨h1, h16⟩

/-! ### The writer -/

theorem pairListBits_cons (p : WirePair) (ps : List WirePair) :
    pairListBits (p :: ps) = pairBits p.code p.sym p.width ++ pairListBits ps := rfl

/-- WRITE_PAIR of every pair of a list completes, and the sent bits grow by the bits of the list. -/
theorem writeAll_sent {ps : List WirePair} (hw : ∀ p ∈ ps, 1 ≤ p.width ∧ p.width ≤ 16) {s : State} (he : EngineInv s) :
    ∃ t, writeAll ps s = .next t ∧ EngineInv t ∧ sentBits t = sentBits s ++ pairListBits ps := by
  induction ps generalizing s with
  | nil => exact ⟨s, rfl, he, (List.append_nil _).symm⟩
  | cons p ps ih =>
    obtain ⟨⟨h1, h16⟩, hw⟩ := List.forall_mem_cons.1 hw
    have hp := writePair_eq (widthInRange_ofNat h1 h16) he.cursors.1 p.code p.sym
    obtain ⟨t, hrest, het, hsent⟩ := ih hw (writePair_engineInv he hp)
    refine ⟨t, andThen_eq_next.2 ⟨_, hp, hrest⟩, het, ?_⟩
    rw [hsent, writePair_sent hp, width_toNat h16, List.append_assoc, pairListBits_cons]

/-- The header and the pairs written right after reset, and flushed: the wire. -/
theorem write_wire {cfg : Config} (hcfg : cfg.Ok) (magic : BitVec 32) (prot : BitVec 16) {ps : List WirePair}
    (hw : ∀ p ∈ ps, 1 ≤ p.width ∧ p.width ≤ 16) :
    ∃ t, andThen (exec (.writeHeader magic prot) (State.resetOf cfg)) (fun s1 =>
        andThen (writeAll ps s1) (exec .flush)) = .next t ∧
      t.zout = headerImage cfg magic prot ++ packBytes (pairListBits ps) := by
  have hheader : exec (.writeHeader magic prot) (State.resetOf cfg) = .next (writeHeader magic prot (State.resetOf cfg)) := rfl
  have hsent : sentBits (writeHeader magic prot (State.resetOf cfg)) = bytesBits (headerImage cfg magic prot) :=
    List.append_nil _
  obtain ⟨t, ht, het, hbits⟩ := writeAll_sent hw (exec_engineInv (resetOf_engineInv hcfg) hheader)
  have hflush := flush_eq het.cursors.1
  refine ⟨_, andThen_eq_next.2 ⟨_, hheader, andThen_eq_next.2 ⟨t, ht, hflush⟩⟩, ?_⟩
  rw [flush_zout hflush, hbits, hsent, packBytes_bytesBits_append]

/-! ### The reader -/

/-- Pulling as many bytes as stand in front of ZIN gives them. -/
theorem pull_front {s : State} (hpos : s.zinPos = 0) {bs rest : ByteSeq} (hzin : s.zin = bs ++ rest) :
    (pull bs.length s).1 = bs := by
  have htaken : zinAvailable s bs.length = bs := by
    unfold zinAvailable
    rw [hpos, hzin]
    exact List.take_left
  show zinAvailable s bs.length ++ List.replicate (bs.length - (zinAvailable s bs.length).length) 0#8 = bs
  rw [htaken, Nat.sub_self]
  exact List.append_nil bs

/-- The length of a header depends on HEADER_PAD only. -/
theorem headerImage_length_of_pad {cfg cfg' : Config} (hpad : cfg'.headerPad = cfg.headerPad) (m : BitVec 32)
    (p : BitVec 16) : (headerImage cfg m p).length = cfg'.headerBytes := by
  rw [headerImage_length]
  unfold Config.headerBytes
  rw [hpad]

/-- READ_HEADER of a wire that begins with a header, made by an engine with the same HEADER_PAD, returns that header. -/
theorem readHeader_image {cfg : Config} {s t : State} (hpad : s.cfg.headerPad = cfg.headerPad) (hpos : s.zinPos = 0)
    {magic : BitVec 32} {prot : BitVec 16} {rest : ByteSeq} (hzin : s.zin = headerImage cfg magic prot ++ rest)
    (ht : exec .readHeader s = .next t) : t.unitOut = .header magic prot := by
  obtain rfl := Host.Outcome.next.inj ht
  show UnitResult.header (headerMagic (pull s.cfg.headerBytes s).1) (headerProt (pull s.cfg.headerBytes s).1) = _
  rw [← headerImage_length_of_pad hpad magic prot, pull_front hpos hzin]
  exact congrArg₂ UnitResult.header (headerMagic_image magic prot _) (headerProt_image magic prot _)

/-- The stream bits of a wire are the bits packed after its header (20_memory.md R75, R76). -/
theorem streamBit_wire {cfg : Config} {header : ByteSeq} (hlen : header.length = cfg.headerBytes) (bits : List Bool) {k : Nat}
    (hk : k < bits.length) : streamBit cfg (header ++ packBytes bits) k = bits.getD k false := by
  unfold streamBit
  rw [getD_append, if_neg (by omega), hlen, Nat.add_sub_cancel_left, ← bytesBits_getD, bytesBits_packBytes, getD_append,
    if_pos hk]

/-- The bits `bits` come next at the read cursor. -/
def Coming (s : State) (bits : List Bool) : Prop := ∀ k < bits.length, upcomingBit s k = bits.getD k false

/-- The next bits are what GetBits makes its number of (20_memory.md R59). -/
theorem Coming.upcomingBits_eq {s : State} {pre bits post : List Bool} (h : Coming s (pre ++ bits ++ post)) :
    upcomingBits s pre.length bits.length = natOfBits bits := by
  unfold upcomingBits
  congr 1
  refine list_ext_getD false (by simp) fun i hi => ?_
  have hi : i < bits.length := by simpa using hi
  rw [getD_map_range, if_pos hi, h _ (by simp; omega), getD_append, if_pos (by simp; omega), getD_append, if_neg (by omega),
    Nat.add_sub_cancel_left]

/-- Once the first of the coming bits are taken, the others come. -/
theorem Coming.taken {s t : State} {bits rest : List Bool} (h : Coming s (bits ++ rest))
    (ht : ∀ k, upcomingBit t k = upcomingBit s (k + bits.length)) : Coming t rest := by
  intro k hk
  rw [ht, h _ (by simp; omega), getD_append, if_neg (by omega), Nat.add_sub_cancel]

/-- READ_PAIR of a pair whose bits come next returns it and latches its code (40_bitchannel.md R114). -/
theorem exec_readPair_of_coming {s : State} (he : EngineInv s) (hz : s.zin.length < 2 ^ 64) (hn : s.rpCode ≠ stopCode)
    {p : WirePair} (h1 : 1 ≤ p.width) (h16 : p.width ≤ 16) (hfits : p.code.toNat < 2 ^ p.width) {rest : List Bool}
    (hc : Coming s (pairBits p.code p.sym p.width ++ rest)) :
    ∃ t, exec (.readPair (BitVec.ofNat 5 p.width)) s = .next t ∧
      t.unitOut = .pair p.code p.sym (decide (p.code ≠ 1#16)) ∧ t.rpCode = p.code ∧ Coming t rest := by
  have hcode : BitVec.ofNat 16 (upcomingBits s 0 p.width) = p.code := by
    have h := Coming.upcomingBits_eq (pre := []) (bits := bitsOf p.code.toNat p.width) (post := bitsOf p.sym.toNat 8 ++ rest)
      (by simpa [pairBits] using hc)
    rw [bitsOf_length] at h
    exact (congrArg _ h).trans (code_of_bits hfits)
  have hsym : BitVec.ofNat 8 (upcomingBits s p.width 8) = p.sym := by
    have h := Coming.upcomingBits_eq (pre := bitsOf p.code.toNat p.width) (bits := bitsOf p.sym.toNat 8) (post := rest) hc
    rw [bitsOf_length, bitsOf_length] at h
    exact (congrArg _ h).trans (byte_of_bits p.sym)
  have hread := readPair_eq (widthInRange_ofNat h1 h16) hn he.cursors.2.1 he.block_pos hz
  rw [width_toNat h16, hcode, hsym] at hread
  have hcoming := readPair_upcomingBit hread hz
  rw [width_toNat h16] at hcoming
  refine ⟨_, andThen_eq_next.2 ⟨_, hread, rfl⟩, rfl, rfl, hc.taken fun k => ?_⟩
  rw [pairBits_length]
  exact hcoming k

/-- READ_PAIR at the widths of a list whose bits come next returns the pairs of the list; only the last may be the sentinel. -/
theorem readAll_of_coming {ps : List WirePair} (hw : ∀ p ∈ ps, 1 ≤ p.width ∧ p.width ≤ 16 ∧ p.code.toNat < 2 ^ p.width)
    (hstop : ∀ p ∈ ps.dropLast, p.code ≠ stopCode) {s : State} (he : EngineInv s) (hz : s.zin.length < 2 ^ 64)
    (hn : ps ≠ [] → s.rpCode ≠ stopCode) (hc : Coming s (pairListBits ps)) :
    ∃ r, readAll (ps.map (fun p => p.width)) s = .next r ∧
      r.1 = ps.map (fun p => UnitResult.pair p.code p.sym (decide (p.code ≠ 1#16))) := by
  induction ps generalizing s with
  | nil => exact ⟨([], s), rfl, rfl⟩
  | cons p ps ih =>
    obtain ⟨⟨h1, h16, hfits⟩, hw⟩ := List.forall_mem_cons.1 hw
    obtain ⟨t, ht, hout, hlatch, hct⟩ := exec_readPair_of_coming he hz (hn (List.cons_ne_nil p ps)) h1 h16 hfits hc
    have hnt : ps ≠ [] → t.rpCode ≠ stopCode := fun hne => by
      rw [hlatch]
      exact hstop p (by rw [List.dropLast_cons_of_ne_nil hne]; exact List.mem_cons_self)
    have hstop' : ∀ q ∈ ps.dropLast, q.code ≠ stopCode := fun q hq =>
      hstop q (by rw [List.dropLast_cons_of_ne_nil (by rintro rfl; cases hq)]; exact List.mem_cons_of_mem p hq)
    obtain ⟨r, hr, hpairs⟩ := ih hw hstop' (exec_engineInv he ht) (by rwa [(exec_same ht).zin]) hnt hct
    exact ⟨_, andThen_eq_next.2 ⟨t, ht, andThen_eq_next.2 ⟨r, hr, rfl⟩⟩, congrArg₂ List.cons hout hpairs⟩

/-- Settles O22: the sent bits of the writer are the header's and the list's, so the wire is the header and the packed bits; the bits
that come to the reader after READ_HEADER are the list's, and each READ_PAIR takes those of one pair. -/
theorem readPairInvertsWritePair : Obligations.ReadPairInvertsWritePair := by
  intro cfg cfg' magic prot ps hcfg hcfg' hpad hw hstop
  obtain ⟨t, ht, hzout⟩ := write_wire hcfg magic prot fun p hp => have ⟨h1, h16, _⟩ := hw p hp; ⟨h1, h16⟩
  refine ⟨t, ht, hzout, fun hz => ?_⟩
  have hreset : EngineInv { State.resetOf cfg' with zin := t.zout } := (resetOf_engineInv hcfg').placeZin t.zout
  obtain ⟨u, hu⟩ : ∃ u, exec .readHeader { State.resetOf cfg' with zin := t.zout } = .next u := ⟨_, rfl⟩
  have hcoming : Coming u (pairListBits ps) := fun k hk => by
    rw [readHeader_upcomingBit rfl rfl hz hu]
    exact (congrArg (streamBit cfg' · k) hzout).trans 
      (streamBit_wire (headerImage_length_of_pad hpad magic prot) _ hk)
  have hnotStopped : u.rpCode ≠ stopCode := by
    obtain rfl := Host.Outcome.next.inj hu
    exact show (0 : Code) ≠ stopCode by decide
  obtain ⟨r, hr, hpairs⟩ := readAll_of_coming hw hstop (exec_engineInv hreset hu) (by rwa [(exec_same hu).zin])
    (fun _ => hnotStopped) hcoming
  exact ⟨u, r, hu, readHeader_image hpad rfl hzout hu, hr, hpairs⟩

end Sys2Proof.Machine
end

section
/-! Family 40_bitchannel: what each BitChannel operation changes and what it leaves (40_bitchannel.md R110 to R117). -/

namespace Sys2Proof.Machine

/-! ### The header -/

/-- Settles O14: the bytes emitted are the header's, and Emit(ZOUT) is all WRITE_HEADER does. -/
theorem writeHeaderEmitsTheHeader : Obligations.WriteHeaderEmitsTheHeader := by
  refine ⟨fun _ => rfl, fun magic prot s => ?_⟩
  show Host.Outcome.next { s with
    zout := s.zout ++ (le32 magic ++ le16 prot ++ List.replicate s.cfg.headerPad 0#8) } = _
  rw [← List.append_assoc]
  rfl

/-- READ_HEADER, whole: Pull moves `zin_pos`, and the results are shown. -/
theorem execReadHeader_eq (s : State) : execReadHeader s = .next { s with
    zinPos := pulledTo s s.cfg.headerBytes
    unitOut := .header (headerMagic (pull s.cfg.headerBytes s).1) (headerProt (pull s.cfg.headerBytes s).1) } := by
  rw [pulledTo_eq]
  unfold execReadHeader
  simp only [pull_state]

theorem pull_getD (s : State) {n i : Nat} (h : i < n) : (pull n s).1.getD i 0#8 = inByte s (s.zinPos.toNat + i) := by
  rw [pull_bytes, getD_map_range, if_pos h]

/-- Settles O15: the header's bytes are pulled, so they are ZIN's, and each bit of a result is a bit of one of them. -/
theorem readHeaderTakesTheHeader : Obligations.ReadHeaderTakesTheHeader := by
  refine ⟨fun _ => rfl, fun s => ⟨_, _, execReadHeader_eq s, fun i hi => ?magic, fun i hi => ?prot⟩⟩
  case magic =>
    have hbyte : i / 8 < s.cfg.headerBytes := by unfold Config.headerBytes; omega
    rw [headerMagic_bits _ hi, pull_getD s hbyte]
  case prot =>
    have hbyte : 4 + i / 8 < s.cfg.headerBytes := by unfold Config.headerBytes; omega
    rw [headerProt_bits _ hi, pull_getD s hbyte, Nat.add_assoc]

/-! ### Pairs -/

theorem widthInRange_eq_false {w : Width} (h : w.toNat = 0 ∨ 16 < w.toNat) : widthInRange w = false := by
  rw [Bool.eq_false_iff, Ne, widthInRange_iff]
  omega

/-- Settles O16: the pair's bits are put one by one, and PutBits appends to the sent bits and writes no other place of WBUF. -/
theorem writePairAppendsItsBits : Obligations.WritePairAppendsItsBits := by
  refine ⟨fun _ => rfl, fun c y w s h => if_pos (widthInRange_eq_false h), fun c y w s hx h1 h16 => ?_⟩
  have hlen : (pairBits c y w.toNat).length = w.toNat + 8 := pairBits_length c y w.toNat
  refine ⟨_, writePair_eq (widthInRange_iff.2 ⟨h1, h16⟩) hx c y, ?frame, putBits_zout _ s, putBits_sent s _,
    fun i hi => ?bits, fun a ha => ?bytes⟩
  case frame => rw [← hlen, ← putBits_widx hx, putBits_frame]
  case bits => exact putBits_otherBit hx _ (by rwa [hlen])
  case bytes => exact putBits_other hx _ (by rwa [hlen])

theorem readPair_refused {w : Width} (h : w.toNat = 0 ∨ 16 < w.toNat) (s : State) :
    readPair w s = .refused .widthOutOfRange := if_pos (widthInRange_eq_false h)

/-- `has_more` says whether the code latched with it is STOP_CODE. -/
theorem readPair_hasMore {w : Width} {s t : State} (ht : readPair w s = .next t) : t.hasMore = hasMoreOf t.rpCode := by
  obtain ⟨-, -, -, -, rfl⟩ := readPair_eq_next ht
  rfl

/-- A READ_PAIR of a legal width faults once STOP_CODE was read (U3). -/
theorem readPair_afterSentinel {w : Width} {s : State} (hw : widthInRange w = true) (hs : s.rpCode = stopCode) :
    readPair w s = .fault .readAfterSentinel := by
  unfold readPair
  rw [if_neg (by simp [hw]), if_pos hs]

theorem rpCode_of_not_hasMore {c : Code} (h : hasMoreOf c = false) : c = stopCode := by
  unfold hasMoreOf at h
  simpa using h

/-- Settles O17: READ_PAIR is GetBits of the code and of the symbol and the latches; GetBits takes the upcoming bits by lazy refills,
and the latched code tells a READ_PAIR after the sentinel. -/
theorem readPairLatchesTheNextPair : Obligations.ReadPairLatchesTheNextPair := by
  refine ⟨fun _ => rfl, fun w s h => ?refused, fun w w' s t ht hm h1 h16 => ?sentinel, fun w s he hz hn h1 h16 => ?pair⟩
  case refused => exact andThen_eq_refused.2 (.inl (readPair_refused h s))
  case sentinel =>
    obtain ⟨u, hread, ht⟩ := andThen_eq_next.1 ht
    obtain rfl := Host.Outcome.next.inj ht
    have hstop : u.rpCode = stopCode := rpCode_of_not_hasMore ((readPair_hasMore hread).symm.trans hm)
    exact andThen_eq_fault.2 (.inl (readPair_afterSentinel (widthInRange_iff.2 ⟨h1, h16⟩) hstop))
  case pair =>
    have hread := readPair_eq (widthInRange_iff.2 ⟨h1, h16⟩) hn he.cursors.2.1 he.block_pos hz
    have htook := afterBits_took he hz (w.toNat + 8)
    refine ⟨_, andThen_eq_next.2 ⟨_, hread, rfl⟩, ?frame, ?took⟩
    case frame =>
      unfold afterBits
      rw [getBits_frame]
      rfl
    case took => exact ⟨htook.cursor, htook.position, htook.kept, htook.loaded, htook.outside, htook.coming⟩

/-- Settles O18: the bits behind the last pending one are cleared, so the emitted bytes are the pending bits packed. -/
theorem flushEmitsThePendingBits : Obligations.FlushEmitsThePendingBits := by
  refine ⟨fun _ => rfl, fun s hx => ⟨_, flush_eq hx, ?frame, flush_bytes s, fun i => ?bits, fun a ha => ?bytes⟩⟩
  case frame => rw [flush_bytes]
  case bits =>
    have hend : s.widx + (8 * ((s.widx + 7) / 8) - s.widx) = 8 * ((s.widx + 7) / 8) := by omega
    exact (clearBits_readBit _ _ _ i).trans (by rw [hend])
  case bytes => exact clearBits_other _ fun k hk => by omega

/-! ### Words -/

/-- Settles O19: the word's bytes are put one by one, and PutByteOut appends to the decoded bytes and writes no other byte of OBUF. -/
theorem writeWordAppendsItsBytes : Obligations.WriteWordAppendsItsBytes := by
  refine ⟨fun _ => rfl, fun xs s hx => ⟨_, writeWord_eq hx xs, ?frame, putBytesOut_sout xs s, putBytesOut_decoded s xs,
    fun a ha => putBytesOut_other hx xs ha⟩⟩
  case frame => rw [← putBytesOut_oidx hx, ← putBytesOut_frame]

/-- Settles O20: the decoded bytes that are not on SOUT yet are the first ones of OBUF. -/
theorem flushWordsEmitsThePendingBytes : Obligations.FlushWordsEmitsThePendingBytes :=
  ⟨fun _ => rfl, fun _ hx => flushWords_eq hx⟩

/-! ### A leaf: the dictionaries and the counter are not its business

Every operation commutes with putting other dictionaries in: it does not read them, or its answer would differ, and it does not
write them, or they would not come back. -/

/-- `next_code`, the trie and the word table, with their live flags: what no BitChannel operation touches (40_bitchannel.md R110). -/
structure Dictionaries where
  nextCode : Code
  child : SlotMap Code
  wt : SlotMap ByteSeq
  trieLive : Bool
  wtLive : Bool

/-- The state with other dictionaries. -/
def State.withDictionaries (s : State) (d : Dictionaries) : State :=
  { s with nextCode := d.nextCode, child := d.child, wt := d.wt, trieLive := d.trieLive, wtLive := d.wtLive }

@[simp] theorem withDictionaries_rpCode (s : State) (d : Dictionaries) : (s.withDictionaries d).rpCode = s.rpCode := rfl

@[simp] theorem widxInRange_withDictionaries (s : State) (d : Dictionaries) :
    widxInRange (s.withDictionaries d) = widxInRange s := rfl

@[simp] theorem ridxInRange_withDictionaries (s : State) (d : Dictionaries) :
    ridxInRange (s.withDictionaries d) = ridxInRange s := rfl

@[simp] theorem oidxInRange_withDictionaries (s : State) (d : Dictionaries) :
    oidxInRange (s.withDictionaries d) = oidxInRange s := rfl

@[simp] theorem latchPair_withDictionaries (w : Width) (c : Code) (y : Byte) (s : State) (d : Dictionaries) :
    latchPair w c y (s.withDictionaries d) = (latchPair w c y s).withDictionaries d := rfl

/-- An operation does the same whatever the dictionaries, and leaves them. -/
def IgnoresDictionaries (op : State → Res State) : Prop :=
  ∀ (s : State) (d : Dictionaries), op (s.withDictionaries d) = andThen (op s) (fun t => .next (t.withDictionaries d))

theorem IgnoresDictionaries.andThen {op f : State → Res State} (hop : IgnoresDictionaries op) (hf : IgnoresDictionaries f) :
    IgnoresDictionaries (fun s => andThen (op s) f) := by
  intro s d
  show Machine.andThen (op (s.withDictionaries d)) f =
    Machine.andThen (Machine.andThen (op s) f) (fun t => .next (t.withDictionaries d))
  rw [hop s d]
  cases op s with
  | next t => exact hf t d
  | fault r => rfl
  | refused r => rfl

theorem putBit_withDictionaries (b : Bool) (s : State) (d : Dictionaries) :
    putBit b (s.withDictionaries d) = (putBit b s).withDictionaries d := by
  rw [putBit_eq, putBit_eq]
  rfl

theorem putBits_withDictionaries (bs : List Bool) (s : State) (d : Dictionaries) :
    putBits bs (s.withDictionaries d) = (putBits bs s).withDictionaries d := by
  induction bs generalizing s with
  | nil => rfl
  | cons b bs ih => rw [putBits, putBit_withDictionaries, ih, putBits]

theorem getBit_withDictionaries (s : State) (d : Dictionaries) :
    getBit (s.withDictionaries d) = ((getBit s).1, (getBit s).2.withDictionaries d) := by
  unfold getBit
  by_cases h : s.ridx = 8 * s.cfg.block
  · rw [if_pos h, if_pos (show (s.withDictionaries d).ridx = 8 * (s.withDictionaries d).cfg.block from h)]
    rfl
  · rw [if_neg h, if_neg (show (s.withDictionaries d).ridx ≠ 8 * (s.withDictionaries d).cfg.block from h)]
    rfl

theorem getBits_withDictionaries (n : Nat) (s : State) (d : Dictionaries) :
    getBits n (s.withDictionaries d) = ((getBits n s).1, (getBits n s).2.withDictionaries d) := by
  induction n generalizing s with
  | zero => rfl
  | succ n ih => simp only [getBits, getBit_withDictionaries, ih]

theorem putByteOut_withDictionaries (x : Byte) (s : State) (d : Dictionaries) :
    putByteOut x (s.withDictionaries d) = (putByteOut x s).withDictionaries d := by
  rw [putByteOut_eq, putByteOut_eq]
  rfl

theorem putBytesOut_withDictionaries (xs : ByteSeq) (s : State) (d : Dictionaries) :
    putBytesOut xs (s.withDictionaries d) = (putBytesOut xs s).withDictionaries d := by
  induction xs generalizing s with
  | nil => rfl
  | cons x xs ih => rw [putBytesOut, putByteOut_withDictionaries, ih, putBytesOut]

theorem writePair_ignoresDictionaries (c : Code) (y : Byte) (w : Width) : IgnoresDictionaries (execWritePair c y w) := by
  intro s d
  unfold execWritePair writePair
  rw [putBits_withDictionaries, widxInRange_withDictionaries]
  split_ifs <;> rfl

theorem readPair_ignoresDictionaries (w : Width) : IgnoresDictionaries (readPair w) := by
  intro s d
  unfold readPair
  simp only [getBits_withDictionaries, latchPair_withDictionaries, withDictionaries_rpCode, ridxInRange_withDictionaries]
  split_ifs <;> rfl

theorem execReadPair_ignoresDictionaries (w : Width) : IgnoresDictionaries (execReadPair w) :=
  (readPair_ignoresDictionaries w).andThen fun _ _ => rfl

theorem flush_ignoresDictionaries : IgnoresDictionaries execFlush := by
  intro s d
  unfold execFlush flush
  rw [widxInRange_withDictionaries]
  split_ifs <;> rfl

theorem writeWord_ignoresDictionaries (xs : ByteSeq) : IgnoresDictionaries (execWriteWord xs) := by
  intro s d
  unfold execWriteWord writeWord
  rw [putBytesOut_withDictionaries, oidxInRange_withDictionaries]
  split_ifs <;> rfl

theorem flushWords_ignoresDictionaries : IgnoresDictionaries execFlushWords := by
  intro s d
  unfold execFlushWords flushWords
  rw [oidxInRange_withDictionaries]
  split_ifs <;> rfl

theorem exec_ignoresDictionaries {i : Instr} (hi : isBitChannel i = true) : IgnoresDictionaries (exec i) := by
  cases i with
  | writeHeader m p => exact fun _ _ => rfl
  | readHeader => exact fun _ _ => rfl
  | writePair c y w => exact writePair_ignoresDictionaries c y w
  | readPair w => exact execReadPair_ignoresDictionaries w
  | flush => exact flush_ignoresDictionaries
  | writeWord xs => exact writeWord_ignoresDictionaries xs
  | flushWords => exact flushWords_ignoresDictionaries
  | _ => cases hi

/-- Settles O21, one operation at a time: its cursors and its buffers are the same, and so is all that it does to them. -/
theorem bitChannelIsALeaf : Obligations.BitChannelIsALeaf :=
  fun _ hi s n child wt tl wl => exec_ignoresDictionaries hi s ⟨n, child, wt, tl, wl⟩

end Sys2Proof.Machine
end

section
/-! Family 41_trie: what each trie operation changes, what it leaves, and where it faults (41_trie.md R132 to R136). -/

namespace Sys2Proof.Machine

/-! ### Where the operations fault -/

theorem trieStep_notLive {s : State} {n : Code} (h : trieReady s n = false) (b : Byte) :
    trieStep n b s = .fault .notLive := if_neg (by simp [h])

theorem trieInsert_notLive {s : State} {n : Code} (h : trieReady s n = false) (b : Byte) (c : Code) :
    trieInsert n b c s = .fault .notLive := if_pos h

theorem trieReset_notLive {s : State} (h : s.trieLive = false) : trieReset s = .fault .notLive := if_neg (by simp [h])

theorem trieDelete_notLive {s : State} {n : Code} (h : trieReady s n = false) : trieDelete n s = .fault .notLive := if_pos h

/-- U2: the child is there, or a live node holds the code. -/
theorem trieInsert_childExists {s : State} {n : Code} (hn : trieReady s n = true) {b : Byte} {c : Code}
    (h : childAt s n b ≠ none ∨ nodeLive s.child c = true) : trieInsert n b c s = .fault .childExists := by
  have htaken : ((childAt s n b).isSome || nodeLive s.child c) = true := by
    rcases h with h | h
    · rw [Option.isSome_iff_ne_none.2 h, Bool.true_or]
    · rw [h, Bool.or_true]
  unfold trieInsert
  rw [if_neg (by simp [hn]), if_pos htaken]

/-! ### Live nodes -/

theorem trieReady_of_not_liveNode {s : State} (he : EngineInv s) {n : Code} (h : ¬ LiveNode s n) : trieReady s n = false :=
  Bool.eq_false_iff.2 (mt (liveNode_iff he n).2 h)

/-- In a live trie the model's own test for a live node is the spec's (41_trie.md R131). -/
theorem nodeLive_iff_liveNode {s : State} (he : EngineInv s) (hl : s.trieLive = true) (c : Code) :
    nodeLive s.child c = true ↔ LiveNode s c := by
  rw [liveNode_iff he, trieReady_iff]
  simp [hl]

theorem nodeLive_of_not_liveNode {s : State} (he : EngineInv s) (hl : s.trieLive = true) {c : Code} (h : ¬ LiveNode s c) :
    nodeLive s.child c = false := Bool.eq_false_iff.2 (mt (nodeLive_iff_liveNode he hl c).1 h)

/-! ### The parents of the links -/

theorem TrieInv.parent_live {child : SlotMap Code} {live : Bool} (h : TrieInv child live) {p c : Code} {b : Byte}
    (hc : slotGet child (childSlot p b) = some c) : nodeLive child p = true := by
  obtain ⟨q, hq, hlive⟩ := h.parents _ (entry_of_slotGet hc)
  rw [slotNode_childSlot] at hq
  exact BitVec.eq_of_toNat_eq hq ▸ hlive

/-- A node that is not live has no children. -/
theorem TrieInv.no_child {child : SlotMap Code} {live : Bool} (h : TrieInv child live) {n : Code}
    (hn : nodeLive child n = false) (b : Byte) : slotGet child (childSlot n b) = none := by
  by_contra hsome
  obtain ⟨c, hc⟩ := Option.ne_none_iff_exists'.1 hsome
  simp [h.parent_live hc] at hn

/-- "Every node is a descendant of the root" (41_trie.md R135). -/
theorem TrieInv.live_below_root {child : SlotMap Code} {live : Bool} (h : TrieInv child live) {n : Code}
    (hn : nodeLive child n = true) : InSubtree child emptyCode n := by
  rcases nodeLive_iff.1 hn with rfl | ⟨e, he, rfl⟩
  · exact .self
  · exact h.reached e he

/-! ### TRIE_CREATE, TRIE_STEP and TRIE_RESET -/

theorem childAt_of_empty {s : State} (h : s.child = []) (p : Code) (b : Byte) : childAt s p b = none := by
  unfold childAt
  rw [h]
  rfl

/-- Settles O24: the child map is empty and the trie is live. -/
theorem trieCreateMakesTheRoot : Obligations.TrieCreateMakesTheRoot :=
  ⟨fun _ => rfl, fun _ => ⟨_, rfl, rfl, childAt_of_empty rfl, liveNode_empty rfl rfl⟩⟩

/-- Settles O25: the operation asks for the node to be live, and its result is the child. -/
theorem trieStepShowsTheChild : Obligations.TrieStepShowsTheChild := by
  refine ⟨fun _ => rfl, fun s node byte he => ⟨fun hn => ?live, fun hn => ?dead⟩⟩
  case live => exact andThen_eq_next.2 ⟨_, trieStep_eq ((liveNode_iff he node).1 hn) byte, rfl⟩
  case dead => exact andThen_eq_fault.2 (.inl (trieStep_notLive (trieReady_of_not_liveNode he hn) byte))

/-- Settles O27: the child map is empty and the live flag stays. -/
theorem trieResetKeepsOnlyTheRoot : Obligations.TrieResetKeepsOnlyTheRoot :=
  ⟨fun _ => rfl, fun _ =>
    ⟨fun hl => ⟨_, trieReset_eq hl, rfl, childAt_of_empty rfl, liveNode_empty hl rfl⟩, trieReset_notLive⟩⟩

/-! ### TRIE_INSERT -/

theorem insertedCode_of_out_of_range {s : State} {c : Code} (h : codeAssignable s.cfg c = false) :
    insertedCode c s = Config.freeCode s.freeIndex := if_neg (by simp [h])

theorem insertedIndex_of_out_of_range {s : State} {c : Code} (h : codeAssignable s.cfg c = false) :
    insertedIndex c s = s.freeIndex + 1 := if_neg (by simp [h])

/-- One slot of the child map is written, and every other keeps its child. -/
theorem slotGet_putChild (child : SlotMap Code) (n : Code) (b : Byte) (c p : Code) (b' : Byte) :
    slotGet (slotPut child (childSlot n b) c) (childSlot p b') =
      if p = n ∧ b' = b then some c else slotGet child (childSlot p b') := by
  rw [slotGet_put]
  simp only [childSlot_inj]

/-- Settles O26: one slot is written, with the code or with a free value; a code that no live node holds has no children before,
and the new link is not one of its own. -/
theorem trieInsertAddsOneChild : Obligations.TrieInsertAddsOneChild := by
  refine ⟨fun _ => rfl, fun s node byte code he => ⟨fun hn hslot hcode h2 hmax => ?inRange,
    fun hn hslot hcode hout => ?outOfRange, fun hn => ?dead, fun hn htaken => ?taken⟩⟩
  case inRange =>
    have hready := (liveNode_iff he node).1 hn
    have hfree := nodeLive_of_not_liveNode he hn.1 hcode
    have hne : code ≠ node := fun e => hcode (e ▸ hn)
    have hslots := slotGet_putChild s.child node byte code
    refine ⟨_, trieInsert_eq hready hslot hfree (codeAssignable_iff.2 ⟨h2, hmax⟩), rfl, hslots, fun b => ?_⟩
    exact (hslots code b).trans ((if_neg fun h => hne h.1).trans (he.trie.no_child hfree b))
  case outOfRange =>
    have hready := (liveNode_iff he node).1 hn
    have hfree := nodeLive_of_not_liveNode he hn.1 hcode
    have hrange : codeAssignable s.cfg code = false := by
      rw [Bool.eq_false_iff, Ne, codeAssignable_iff]
      omega
    have hrun := trieInsert_run hready hslot hfree
    rw [insertedCode_of_out_of_range hrange, insertedIndex_of_out_of_range hrange] at hrun
    exact ⟨_, hrun, rfl, slotGet_putChild s.child node byte _⟩
  case dead => exact trieInsert_notLive (trieReady_of_not_liveNode he hn) byte code
  case taken =>
    exact trieInsert_childExists ((liveNode_iff he node).1 hn)
      (htaken.imp_right (nodeLive_iff_liveNode he hn.1 code).2)

/-! ### TRIE_DELETE -/

/-- Settles O28: at the root every link is of the subtree, since every parent is below the root; elsewhere the links that stay are
those that pruning keeps. -/
theorem trieDeleteRemovesTheSubtree : Obligations.TrieDeleteRemovesTheSubtree := by
  refine ⟨fun _ => rfl, fun s node he => ⟨fun hn => ?live, fun hn => ?dead⟩⟩
  case dead => exact trieDelete_notLive (trieReady_of_not_liveNode he hn)
  case live =>
    by_cases hroot : node = emptyCode
    · subst hroot
      refine ⟨_, trieDelete_root hn.1, rfl, fun p b c => ⟨fun h => ?_, fun ⟨hc, hout, _⟩ => ?_⟩⟩
      · rw [childAt_of_empty rfl] at h
        cases h
      · exact absurd (he.trie.live_below_root (he.trie.parent_live hc)) hout
    · have hlive : s.trieLive = decide (node ≠ emptyCode) := by simp [hn.1, hroot]
      refine ⟨_, trieDelete_node ((liveNode_iff he node).1 hn) hroot, ?frame, fun p b c => ?links⟩
      case frame => rw [← hlive]
      case links =>
        exact (prune_get he.trie.canonical node p c b).trans
          (and_congr_right fun _ => and_congr_right fun _ => (imp_iff_right hroot).symm)

end Sys2Proof.Machine
end

section
/-! Family 42_wordtable: what each word-table operation changes, what it leaves, and where it faults (42_wordtable.md R141 to R146). -/

namespace Sys2Proof.Machine

/-! ### Where the operations fault -/

theorem wtLookup_notLive {s : State} (h : s.wtLive = false) (c : Code) : wtLookup c s = .fault .notLive := if_pos h

theorem wtAssign_notLive {s : State} (h : s.wtLive = false) (c p : Code) (b : Byte) :
    wtAssign c p b s = .fault .notLive := if_pos h

theorem wtReset_notLive {s : State} (h : s.wtLive = false) : wtReset s = .fault .notLive := if_neg (by simp [h])

theorem wtDelete_notLive {s : State} (h : s.wtLive = false) : wtDelete s = .fault .notLive := if_neg (by simp [h])

/-- U6: the slot holds a word, or the code is not assignable. -/
theorem wtAssign_slotNotFree {s : State} (hl : s.wtLive = true) {c : Code}
    (h : wordAt s c ≠ none ∨ codeAssignable s.cfg c = false) (p : Code) (b : Byte) :
    wtAssign c p b s = .fault .slotNotFree := by
  have htest : ((wordAt s c).isSome || !codeAssignable s.cfg c) = true := by
    rw [Bool.or_eq_true, Bool.not_eq_true']
    exact h.imp_left Option.isSome_iff_ne_none.2
  unfold wtAssign
  rw [if_neg (by simp [hl]), if_pos htest]

/-- U1: a free slot of a live table, but a parent with no word. -/
theorem wtAssign_unassignedParent {s : State} (hl : s.wtLive = true) {c p : Code} (hfree : wordAt s c = none)
    (hc : codeAssignable s.cfg c = true) (hp : wordAt s p = none) (b : Byte) :
    wtAssign c p b s = .fault .unassignedCode := by
  have htest : ((wordAt s c).isSome || !codeAssignable s.cfg c) = false := by rw [hfree, hc]; rfl
  unfold wtAssign
  rw [if_neg (by simp [hl]), if_neg (by simp [htest])]
  exact andThen_eq_fault.2 (.inl (wtLookup_absent hl hp))

theorem codeAssignable_eq_false {cfg : Config} {c : Code} (h : c.toNat < 2 ∨ cfg.maxCode ≤ c.toNat) :
    codeAssignable cfg c = false := by
  rw [Bool.eq_false_iff, Ne, codeAssignable_iff]
  omega

/-! ### WT_ASSIGN -/

/-- Settles O31: the three tests come in the order U4, U6, U1; past them one slot is written, with the parent's word and the byte. -/
theorem wtAssignAppendsOneByte : Obligations.WtAssignAppendsOneByte := by
  refine ⟨fun _ => rfl, fun s c p b =>
    ⟨fun hl => wtAssign_notLive hl c p b, fun hl hbad => ?notFree, fun hl hfree h2 hmax => ⟨fun hp => ?noParent, fun w hp => ?run⟩⟩⟩
  case notFree => exact wtAssign_slotNotFree hl (hbad.imp_right codeAssignable_eq_false) p b
  case noParent => exact wtAssign_unassignedParent hl hfree (codeAssignable_iff.2 ⟨h2, hmax⟩) hp b
  case run => exact ⟨_, wtAssign_eq hl hfree (codeAssignable_iff.2 ⟨h2, hmax⟩) hp, rfl, wordAt_put s c (w ++ [b])⟩

/-! ### What each operation can do to the table

Every operation leaves the words that are there, or leaves a table with the permanent word at most. -/

/-- The word table before an operation and after it. -/
inductive TableChange (wt wt' : SlotMap ByteSeq) : Prop where
  /-- Every word that was present is there, unchanged. -/
  | kept (h : ∀ k w, slotGet wt k = some w → slotGet wt' k = some w)
  /-- No word is left (42_wordtable.md R145). -/
  | emptied (h : wt' = [])
  /-- The permanent empty word is left (R141, R144). -/
  | restarted (h : wt' = emptyTable)

theorem TableChange.of_eq {wt wt' : SlotMap ByteSeq} (h : wt' = wt) : TableChange wt wt' := .kept fun _ _ hw => h ▸ hw

/-- The word at EMPTY_CODE is the empty word, whether the table is live or not. -/
theorem TableInv.word_at_empty {maxCode : Nat} {wt : SlotMap ByteSeq} {live : Bool} (h : TableInv maxCode wt live) {w : ByteSeq}
    (hw : slotGet wt 0 = some w) : w = [] := by
  cases live with
  | true => exact Option.some.inj (hw.symm.trans (h.emptyWord rfl))
  | false =>
    rw [h.dead rfl] at hw
    cases hw

/-- A word that is present stays or goes: the one word a restarted table holds was there before. -/
theorem TableChange.stays_or_goes {maxCode : Nat} {wt wt' : SlotMap ByteSeq} {live : Bool} (h : TableChange wt wt')
    (hinv : TableInv maxCode wt live) {c : Code} {w : ByteSeq} (hw : slotGet wt c.toNat = some w) :
    slotGet wt' c.toNat = some w ∨ slotGet wt' c.toNat = none := by
  cases h with
  | kept h => exact .inl (h _ _ hw)
  | emptied h => exact .inr (by rw [h]; rfl)
  | restarted h =>
    rw [h, wordAt_emptyTable]
    split_ifs with hc
    · subst hc
      exact .inl (by rw [hinv.word_at_empty hw])
    · exact .inr rfl

/-- No BitChannel operation touches the word table (40_bitchannel.md R110). -/
theorem IgnoresDictionaries.wt_eq {op : State → Res State} (hop : IgnoresDictionaries op) {s t : State} (ht : op s = .next t) :
    t.wt = s.wt := by
  have hown : op s = _ := hop s ⟨s.nextCode, s.child, s.wt, s.trieLive, s.wtLive⟩
  rw [ht, andThen_next] at hown
  rw [Host.Outcome.next.inj hown]
  rfl

theorem writePair_wt {s t : State} {c : Code} {y : Byte} {w : Width} (ht : writePair c y w s = .next t) : t.wt = s.wt :=
  (writePair_ignoresDictionaries c y w).wt_eq ht

theorem readPair_wt {s t : State} {w : Width} (ht : readPair w s = .next t) : t.wt = s.wt :=
  (readPair_ignoresDictionaries w).wt_eq ht

theorem writeWord_wt {s t : State} {xs : ByteSeq} (ht : writeWord xs s = .next t) : t.wt = s.wt :=
  (writeWord_ignoresDictionaries xs).wt_eq ht

theorem trieInsert_wt {s t : State} {n c : Code} {b : Byte} (ht : trieInsert n b c s = .next t) : t.wt = s.wt := by
  obtain ⟨-, -, -, rfl⟩ := trieInsert_eq_next ht
  rfl

theorem trieReset_wt {s t : State} (ht : trieReset s = .next t) : t.wt = s.wt := by
  obtain ⟨-, rfl⟩ := trieReset_eq_next ht
  rfl

theorem trieDelete_wt {s t : State} {n : Code} (ht : trieDelete n s = .next t) : t.wt = s.wt := by
  obtain ⟨-, ⟨-, rfl⟩ | ⟨-, rfl⟩⟩ := trieDelete_eq_next ht <;> rfl

theorem raiseError_wt (cause : BitVec 3) (s : State) : (raiseError cause s).wt = s.wt := by rw [raiseError_eq]

/-- WT_ASSIGN writes a slot that holds no word (42_wordtable.md R143). -/
theorem wtAssign_tableChange {s t : State} {c p : Code} {b : Byte} (ht : wtAssign c p b s = .next t) :
    TableChange s.wt t.wt := by
  obtain ⟨-, hfree, -, w, -, rfl⟩ := wtAssign_eq_next ht
  refine .kept fun k v hk => ?_
  have hne : k ≠ c.toNat := fun e => by
    rw [e] at hk
    exact Option.some_ne_none v (hk.symm.trans hfree)
  rw [slotGet_put_ne _ _ hne, hk]

theorem wtReset_wt {s t : State} (ht : wtReset s = .next t) : t.wt = emptyTable := by
  obtain ⟨-, rfl⟩ := wtReset_eq_next ht
  rfl

theorem wtDelete_wt {s t : State} (ht : wtDelete s = .next t) : t.wt = [] := by
  obtain ⟨-, rfl⟩ := wtDelete_eq_next ht
  rfl

/-! ### The encoder's commands leave the word table alone -/

theorem advanceCode_trieReset_wt {s t : State} (ht : advanceCode trieReset s = .next t) : t.wt = s.wt := by
  rcases advanceCode_eq_next.1 ht with ⟨-, u, hreset, rfl⟩ | ⟨-, rfl⟩
  · exact trieReset_wt (t := u) hreset
  · rfl

theorem inState_wt {r : RunState} {s t : State} {body : Res State} (hbody : body = .next t → t.wt = s.wt)
    (ht : inState r s body = .next t) : t.wt = s.wt := by
  rcases inState_eq_next ht with ⟨-, hb⟩ | ⟨-, rfl⟩
  · exact hbody hb
  · exact raiseError_wt _ _

theorem encStart_wt {s t : State} {prot : BitVec 16} (ht : execEncStart prot s = .next t) : t.wt = s.wt := by
  refine inState_wt (fun hb => ?_) ht
  obtain rfl := Host.Outcome.next.inj hb
  rfl

theorem encSym_wt {s t : State} {sym : Byte} (ht : execEncSym sym s = .next t) : t.wt = s.wt := by
  refine inState_wt (fun hb => ?_) ht
  obtain ⟨found, -, hb⟩ := andThen_eq_next.1 hb
  cases found with
  | some node =>
    obtain rfl := Host.Outcome.next.inj hb
    rfl
  | none =>
    obtain ⟨s1, hpair, hb⟩ := andThen_eq_next.1 hb
    obtain ⟨s2, hinsert, hb⟩ := andThen_eq_next.1 hb
    have hcounted := writePair_wt hpair
    have hadvanced := advanceCode_trieReset_wt hb
    exact hadvanced.trans ((trieInsert_wt hinsert).trans hcounted)

theorem writeFinalPair_wt {s t : State} (ht : writeFinalPair s = .next t) : t.wt = s.wt := by
  unfold writeFinalPair at ht
  split_ifs at ht
  · rw [Host.Outcome.next.inj ht]
  · obtain ⟨u, hpair, ht⟩ := andThen_eq_next.1 ht
    exact (advanceCode_trieReset_wt ht).trans (writePair_wt hpair)

theorem encEnd_wt {s t : State} (ht : execEncEnd s = .next t) : t.wt = s.wt := by
  refine inState_wt (fun hb => ?_) ht
  obtain ⟨s1, hfinal, hb⟩ := andThen_eq_next.1 hb
  obtain ⟨s2, hstop, hb⟩ := andThen_eq_next.1 hb
  obtain ⟨s3, hflush, hb⟩ := andThen_eq_next.1 hb
  obtain ⟨s4, hdelete, hb⟩ := andThen_eq_next.1 hb
  obtain rfl := Host.Outcome.next.inj hb
  calc s4.wt = s3.wt := trieDelete_wt hdelete
    _ = s2.wt := flush_ignoresDictionaries.wt_eq hflush
    _ = s1.wt := writePair_wt hstop
    _ = s.wt := writeFinalPair_wt hfinal

/-! ### The decoder's commands -/

theorem inState_tableChange {r : RunState} {s t : State} {body : Res State} (hbody : body = .next t → TableChange s.wt t.wt)
    (ht : inState r s body = .next t) : TableChange s.wt t.wt := by
  rcases inState_eq_next ht with ⟨-, hb⟩ | ⟨-, rfl⟩
  · exact hbody hb
  · exact .of_eq (raiseError_wt _ _)

theorem acceptHeader_tableChange (m : BitVec 32) (p : BitVec 16) (s : State) : TableChange s.wt (acceptHeader m p s).wt := by
  unfold acceptHeader
  split_ifs
  · exact .restarted rfl
  · exact .of_eq (raiseError_wt _ _)

/-- A data pair adds a word; at the end of an epoch it restarts the table instead (43_codec.md R160). -/
theorem appendPair_tableChange {s t : State} {c : Code} {y : Byte} (ht : appendPair c y s = .next t) :
    TableChange s.wt t.wt := by
  obtain ⟨_, -, ht⟩ := andThen_eq_next.1 ht
  obtain ⟨s1, hassign, ht⟩ := andThen_eq_next.1 ht
  obtain ⟨s2, hword, ht⟩ := andThen_eq_next.1 ht
  rcases advanceCode_eq_next.1 ht with ⟨-, u, hreset, rfl⟩ | ⟨-, rfl⟩
  · exact .restarted (wtReset_wt (t := u) hreset)
  · show TableChange s.wt s2.wt
    rw [writeWord_wt hword]
    exact wtAssign_tableChange hassign

theorem endOfStream_tableChange {s t : State} (ht : endOfStream s = .next t) : TableChange s.wt t.wt := by
  obtain ⟨s1, -, ht⟩ := andThen_eq_next.1 ht
  obtain ⟨s2, hdelete, ht⟩ := andThen_eq_next.1 ht
  obtain rfl := Host.Outcome.next.inj ht
  exact .emptied (wtDelete_wt (t := s2) hdelete)

theorem decStart_tableChange {s t : State} (ht : execDecStart s = .next t) : TableChange s.wt t.wt := by
  refine inState_tableChange (fun hb => ?_) ht
  obtain rfl := Host.Outcome.next.inj hb
  exact acceptHeader_tableChange _ _ (pull s.cfg.headerBytes s).2

theorem decPair_tableChange {s t : State} (ht : execDecPair s = .next t) : TableChange s.wt t.wt := by
  refine inState_tableChange (fun hb => ?_) ht
  obtain ⟨u, hread, hb⟩ := andThen_eq_next.1 hb
  rw [← readPair_wt hread]
  split_ifs at hb
  · exact appendPair_tableChange hb
  · exact endOfStream_tableChange hb

/-! ### Every operation -/

theorem exec_tableChange {i : Instr} {s t : State} (ht : exec i s = .next t) : TableChange s.wt t.wt := by
  by_cases hchannel : isBitChannel i = true
  · exact .of_eq ((exec_ignoresDictionaries hchannel).wt_eq ht)
  cases i with
  | writeHeader | readHeader | writePair | readPair | flush | writeWord | flushWords => exact absurd rfl hchannel
  | reset => obtain rfl := Host.Outcome.next.inj ht; exact .emptied rfl
  | encStart prot => exact .of_eq (encStart_wt ht)
  | encSym sym => exact .of_eq (encSym_wt ht)
  | encEnd => exact .of_eq (encEnd_wt ht)
  | decStart => exact decStart_tableChange ht
  | decPair => exact decPair_tableChange ht
  | trieCreate => obtain rfl := Host.Outcome.next.inj ht; exact .of_eq rfl
  | trieStep n b =>
    obtain ⟨_, -, ht⟩ := andThen_eq_next.1 ht
    obtain rfl := Host.Outcome.next.inj ht
    exact .of_eq rfl
  | trieInsert n b c => exact .of_eq (trieInsert_wt ht)
  | trieReset => exact .of_eq (trieReset_wt ht)
  | trieDelete n => exact .of_eq (trieDelete_wt ht)
  | wtCreate => obtain rfl := Host.Outcome.next.inj ht; exact .restarted rfl
  | wtLookup c =>
    obtain ⟨_, -, ht⟩ := andThen_eq_next.1 ht
    obtain rfl := Host.Outcome.next.inj ht
    exact .of_eq rfl
  | wtAssign c p b => exact wtAssign_tableChange ht
  | wtReset => exact .restarted (wtReset_wt ht)
  | wtDelete => exact .emptied (wtDelete_wt ht)
  | header m p =>
    refine inState_tableChange (fun hb => ?_) ht
    obtain rfl := Host.Outcome.next.inj hb
    exact acceptHeader_tableChange m p s
  | pairStop w y => exact inState_tableChange (fun hb => endOfStream_tableChange (s := latchPair w stopCode y s) hb) ht
  | pairLit w y => exact inState_tableChange (fun hb => appendPair_tableChange (s := latchPair w emptyCode y s) hb) ht
  | pairRef w c y => exact inState_tableChange (fun hb => appendPair_tableChange (s := latchPair w c y s) hb) ht
  | pairUndef w c y => cases ht

/-- Settles O35: an operation keeps every word, or clears the table down to the permanent word, which the invariant says was the word
at EMPTY_CODE before. -/
theorem wordsAreNeverModified : Obligations.WordsAreNeverModified :=
  fun _ _ _ he ht _ _ hw => (exec_tableChange ht).stays_or_goes he.table hw

/-! ### WT_CREATE, WT_LOOKUP, WT_RESET and WT_DELETE -/

/-- Settles O29: the table written is the one with the permanent word only. -/
theorem wtCreateHoldsTheEmptyWord : Obligations.WtCreateHoldsTheEmptyWord :=
  ⟨fun _ => rfl, fun _ => ⟨_, rfl, rfl, wordAt_emptyTable⟩⟩

/-- Settles O30: the operation stops where the lookup stops, and shows the word it finds. -/
theorem wtLookupShowsTheWord : Obligations.WtLookupShowsTheWord := by
  refine ⟨fun _ => rfl, fun s c => ⟨fun hl => ?notLive, fun hl hnone => ?unassigned, fun w hl hw => ?shown⟩⟩
  case notLive => exact andThen_eq_fault.2 (.inl (wtLookup_notLive hl c))
  case unassigned => exact andThen_eq_fault.2 (.inl (wtLookup_absent hl hnone))
  case shown => exact andThen_eq_next.2 ⟨w, wtLookup_eq hl hw, rfl⟩

/-- Settles O32: the table is the one with the permanent word only, and the live flag stays. -/
theorem wtResetKeepsTheEmptyWord : Obligations.WtResetKeepsTheEmptyWord :=
  ⟨fun _ => rfl, fun _ => ⟨fun hl => ⟨_, wtReset_eq hl, rfl, wordAt_emptyTable⟩, wtReset_notLive⟩⟩

/-- Settles O33: a deleted table is not live, which is where the other operations fault. -/
theorem wtDeleteEmptiesTheTable : Obligations.WtDeleteEmptiesTheTable := by
  refine ⟨fun _ => rfl, fun s hl => ⟨_, wtDelete_eq hl, rfl, fun _ => rfl⟩, fun s t ht => ?after⟩
  case after =>
    have hdead : t.wtLive = false := by
      obtain ⟨-, rfl⟩ := wtDelete_eq_next ht
      rfl
    exact ⟨fun c => andThen_eq_fault.2 (.inl (wtLookup_notLive hdead c)), wtAssign_notLive hdead, wtReset_notLive hdead,
      ⟨_, rfl⟩⟩

/-- Settles O34: READ_PAIR tests `rp_code` once the width is legal, and WT_DELETE asks for a live table. -/
theorem stopsTheModelDeduces : Obligations.StopsTheModelDeduces := by
  refine ⟨fun w s hstop h1 h16 => ?sentinel, fun _ => wtDelete_notLive⟩
  case sentinel => exact andThen_eq_fault.2 (.inl (readPair_afterSentinel (widthInRange_iff.2 ⟨h1, h16⟩) hstop))

end Sys2Proof.Machine
end

section
/-! Family 43_codec, the six commands: the words that are commands, and what each command changes and leaves (43_codec.md R154 to
R160). -/

namespace Sys2Proof.Machine

/-! ### RESET and ENC_START -/

theorem statusReg_resetState (s : State) : statusReg (resetState s) = 0 :=
  show (0#1 ++ BitVec.ofBool false ++ 0#3 ++ 0#3 : BitVec 8) = 0#8 by decide

/-- Settles O6: the reset state holds the table of R41, and its STATUS has every bit 0. -/
theorem resetRestoresEveryElement : Obligations.ResetRestoresEveryElement := by
  refine ⟨fun a => ?word, fun s => ⟨resetState s, rfl, ?elements⟩⟩
  case word => exact decodeCmd_cmdWord 0x01#8 a
  case elements =>
    exact ⟨rfl, rfl, rfl, rfl, rfl, rfl, rfl, rfl, rfl, rfl, rfl, rfl, rfl, fun _ _ => rfl, fun _ => rfl, fun _ => rfl,
      fun _ => rfl, fun _ => rfl, rfl, rfl, rfl, rfl, rfl, rfl, rfl, rfl, statusReg_resetState s⟩

/-- Settles O36: every argument is a protection field; in IDLE the header goes out and the run opens, elsewhere ERR_CMD. -/
theorem encStartOpensAnEncodeRun : Obligations.EncStartOpensAnEncodeRun := by
  refine ⟨fun prot => ?word, fun prot s => ⟨?idle, ?elsewhere⟩⟩
  case word => exact decodeCmd_cmdWord 0x02#8 prot
  case idle => exact fun hr => execEncStart_eq hr prot
  case elsewhere => exact fun hr => inState_errCmdEntry _ hr

/-! ### ENC_SYM -/

/-- The child map after a broken match: only the root is left where the epoch ends, else one link more (43_codec.md R152, R157). -/
theorem learn_childAt (s : State) (sym : Byte) (p : Code) (b : Byte) :
    slotGet (if s.nextCode.toNat + 1 = s.cfg.maxCode then [] else slotPut s.child (childSlot s.cur sym) s.nextCode)
        (childSlot p b) =
      if s.nextCode.toNat + 1 = s.cfg.maxCode then none
      else if p = s.cur ∧ b = sym then some s.nextCode else childAt s p b := by
  by_cases hmax : s.nextCode.toNat + 1 = s.cfg.maxCode
  · rw [if_pos hmax, if_pos hmax]
    rfl
  · rw [if_neg hmax, if_neg hmax]
    exact slotGet_putChild s.child s.cur sym s.nextCode p b

/-- The counter after ADVANCE_CODE: START_CODE where the epoch ends, else one more (43_codec.md R152). -/
theorem advanced_of_epochEnd {s : State} (hmax : s.nextCode.toNat + 1 = s.cfg.maxCode) :
    BitVec.ofNat 16 (advancedCode s) = 2#16 := congrArg (BitVec.ofNat 16) (if_pos hmax)

theorem advanced_within_epoch {s : State} (he : EngineInv s) (hmax : s.nextCode.toNat + 1 ≠ s.cfg.maxCode) :
    (BitVec.ofNat 16 (advancedCode s)).toNat = s.nextCode.toNat + 1 :=
  (advancedCode_toNat he).trans (if_neg hmax)

/-- Settles O37: by the child of the match at the byte. Where there is none, the pair's bits follow the sent ones and the child map
and the counter advance together. -/
theorem encSymExtendsOrBreaksTheMatch : Obligations.EncSymExtendsOrBreaksTheMatch := by
  refine ⟨fun a => ?word, fun sym s hr => inState_errCmdEntry _ hr, fun sym s hr he hi => ⟨?extend, ?broken⟩⟩
  case word =>
    refine (decodeCmd_cmdWord 0x03#8 a).trans ?_
    simp only [← high_zero_iff, ← low_byte]
    rfl
  case extend => exact fun node hc => execEncSym_extend hr hi.ready hc
  case broken =>
    intro hc
    have hbits : (pairBits s.cur sym (bitLength s.nextCode.toNat)).length = bitLength s.nextCode.toNat + 8 := pairBits_length _ _ _
    have hchild := learn_childAt s sym
    refine ⟨_, execEncSym_break hr he hi.ready (hi.fresh he) hc, ?whole, putBits_zout _ s, putBits_sent s _,
      fun hmax => ⟨advanced_of_epochEnd hmax, fun p b => (hchild p b).trans (if_pos hmax)⟩,
      fun hmax => ⟨advanced_within_epoch he hmax, fun p b => (hchild p b).trans (if_neg hmax)⟩,
      fun a ha => putBits_other he.cursors.1 _ (by rwa [hbits])⟩
    case whole => rw [← hbits, ← putBits_widx he.cursors.1, putBits_frame]

/-! ### ENC_END -/

/-- With no outstanding match ENC_END leaves the counter alone (43_codec.md R158). -/
theorem endCode_ofNat_of_root {s : State} (hc : s.cur = emptyCode) : BitVec.ofNat 16 (endCode s) = s.nextCode := by
  rw [endCode, if_pos hc, BitVec.ofNat_toNat, BitVec.setWidth_eq]

/-- ENC_END, with or without an outstanding match (43_codec.md R158). -/
theorem execEncEnd_eq {s : State} (hr : s.runState = .enc) (he : EngineInv s) (hl : s.trieLive = true) :
    execEncEnd s = .next { s with
      wbuf := flushedBuffer (endBits s) s
      widx := 0
      zout := s.zout ++ packBytes (pendingBits s ++ endBits s)
      totalBits := s.totalBits + BitVec.ofNat 64 (endBits s).length
      nextCode := BitVec.ofNat 16 (endCode s)
      child := [], trieLive := false, cur := emptyCode, runState := .done } := by
  by_cases hc : s.cur = emptyCode
  · rw [execEncEnd_root hr he hl hc, endCode_ofNat_of_root hc, endBits, if_pos hc, pairBits_length]
  · have hbits : endBits s = finalBits s := if_neg hc
    have hcode : endCode s = advancedCode s := if_neg hc
    have htotal : s.totalBits + BitVec.ofNat 64 (finalBits s).length =
        s.totalBits + BitVec.ofNat 64 (bitLength s.nextCode.toNat + 8) + BitVec.ofNat 64 (bitLength (advancedCode s) + 8) := by
      rw [finalBits, List.length_append, pairBits_length, pairBits_length, BitVec.ofNat_add, BitVec.add_assoc]
    rw [execEncEnd_match hr he hl hc, hbits, hcode, htotal]

theorem endBits_ne_nil (s : State) : endBits s ≠ [] := by
  refine List.ne_nil_of_length_pos ?_
  unfold endBits
  split_ifs <;> simp

/-- Settles O38: the final pair, the sentinel and the padding leave in one flush, and the trie is torn down. -/
theorem encEndClosesTheStream : Obligations.EncEndClosesTheStream := by
  refine ⟨fun a => ?word, fun s hr => inState_errCmdEntry _ hr, fun s hr he hi => ?close⟩
  case word => exact decodeCmd_cmdWord 0x04#8 a
  case close =>
    exact ⟨_, execEncEnd_eq hr he hi.live, rfl, fun a ha => flushedBuffer_other he.cursors.1 (endBits_ne_nil s) ha⟩

/-! ### DEC_START -/

/-- Settles O39: DEC_START by the magic of the bytes pulled, which are the upcoming header. -/
theorem decStartChecksTheMagic : Obligations.DecStartChecksTheMagic := by
  refine ⟨fun a => ?word, fun s => ⟨fun hr => inState_errCmdEntry _ hr, ?reject, ?accept⟩⟩
  case word => exact decodeCmd_cmdWord 0x05#8 a
  all_goals
    have hheader : (pull s.cfg.headerBytes s).1 = upcomingHeader s := pull_bytes _ s
    rw [← hheader, pulledTo_eq]
  case reject => exact fun hr hm => execDecStart_reject hr hm
  case accept => exact fun hr hm => ⟨_, execDecStart_accept hr hm, rfl, wordAt_emptyTable⟩

/-! ### DEC_PAIR -/

/-- What the bits of a pair do to the reader is what DEC_PAIR does to it: the rest of the command leaves RBUF, its cursor, `zin_pos`
and ZIN alone. -/
theorem TookBits.of_sameReader {n : Nat} {s t u : State} (h : TookBits n s t) (hu : SameReader t u) : TookBits n s u where
  cursor := hu.ridx.trans h.cursor
  position := (congrArg BitVec.toNat hu.zinPos).trans h.position
  kept := fun h0 => hu.rbuf.trans (h.kept h0)
  loaded := fun h0 a ha => by rw [hu.rbuf, h.loaded h0 a ha]
  outside := fun a ha => by rw [hu.rbuf, h.outside a ha]
  coming := fun k => by rw [hu.upcoming_eq, h.coming]

/-- The pair taken and latched (40_bitchannel.md R114), field by field. -/
theorem afterPair_eq (s : State) : afterPair s = { s with
    rbuf := (afterPair s).rbuf, ridx := (afterPair s).ridx, zinPos := (afterPair s).zinPos
    rpCode := upcomingCode s, rpSym := upcomingSym s, hasMore := hasMoreOf (upcomingCode s)
    totalBits := s.totalBits + BitVec.ofNat 64 (bitLength s.nextCode.toNat + 8) } := by
  obtain ⟨_, _, _, h⟩ := afterPair_only s
  rw [h]

/-- Settles O40: DEC_PAIR by the code it reads: the sentinel, a code with no word, a code with a word. -/
theorem decPairDecodesOnePair : Obligations.DecPairDecodesOnePair := by
  refine ⟨fun a => ?word, fun s hr => inState_errCmdEntry _ hr, fun s hr he hd hz => ⟨?stop, ?undef, ?data⟩⟩
  case word => exact decodeCmd_cmdWord 0x06#8 a
  all_goals have htook := afterBits_took he hz (bitLength s.nextCode.toNat + 8)
  case stop =>
    intro hc
    have hmore : hasMoreOf (upcomingCode s) = false := by rw [hc]; rfl
    refine ⟨_, execDecPair_stop hr he hz hd.notStopped hd.live hc, ?whole, htook.of_sameReader ⟨rfl, rfl, rfl, rfl, rfl⟩⟩
    case whole =>
      rw [afterPair_eq, hmore, hc]
      rfl
  case undef => exact fun hc hw => execDecPair_undef hr he hz hd.notStopped hd.live hc hw
  case data =>
    intro word hc hw
    have hmore : hasMoreOf (upcomingCode s) = true := decide_eq_true hc
    have htable := learn_wordAt s (word ++ [upcomingSym s])
    refine ⟨_, execDecPair_data hr he hz hd.notStopped hd.live hc hw (hd.fresh he), ?whole,
      htook.of_sameReader ⟨rfl, rfl, rfl, rfl, rfl⟩, putBytesOut_sout _ s, putBytesOut_decoded s _,
      fun hmax => ⟨advanced_of_epochEnd hmax, fun c => (htable c).trans (if_pos hmax)⟩,
      fun hmax => ⟨advanced_within_epoch he hmax, fun c => (htable c).trans (if_neg hmax)⟩,
      fun a ha => putBytesOut_other he.cursors.2.2 _ (by simpa using ha)⟩
    case whole =>
      rw [afterPair_eq, hmore, putBytesOut_oidx_snoc he.cursors.2.2]

end Sys2Proof.Machine
end

section
/-! Family 43_codec, the run states: where a command leads (43_codec.md R153), what leaves DONE and ERROR (R162, 60_exceptions.md
R188), the counter and its width (R151, R152, R165), and a wire with another magic (R164). -/

namespace Sys2Proof.Machine

/-! ### Where a command leads -/

/-- ENC_SYM in an encode run stays in it; it advances the counter exactly if it breaks the match (43_codec.md R157). -/
theorem encSym_eq_next {s t : State} (h : HostInv s) (hr : s.runState = .enc) {sym : Byte} (ht : execEncSym sym s = .next t) :
    t.runState = .enc ∧
      t.nextCode = if childAt s s.cur sym = none then BitVec.ofNat 16 (advancedCode s) else s.nextCode := by
  have hi := h.enc hr
  cases hc : childAt s s.cur sym with
  | some node =>
    rw [execEncSym_extend hr hi.ready hc] at ht
    obtain rfl := Host.Outcome.next.inj ht
    exact ⟨hr, rfl⟩
  | none =>
    rw [execEncSym_break hr h.engine hi.ready (hi.fresh h.engine) hc, putBits_frame] at ht
    obtain rfl := Host.Outcome.next.inj ht
    exact ⟨hr, rfl⟩

/-- DEC_PAIR in a decode run ends it at the sentinel, or advances the counter and stays (43_codec.md R160). It holds whatever
the length of ZIN, so it goes by the bits GetBit returns and not by where they stand. -/
theorem decPair_eq_next {s t : State} (h : HostInv s) (hr : s.runState = .dec) (ht : execDecPair s = .next t) :
    (t.runState = .done ∧ t.hasMore = false ∧ t.nextCode = s.nextCode) ∨
    (t.runState = .dec ∧ t.hasMore = true ∧ t.nextCode = BitVec.ofNat 16 (advancedCode s)) := by
  have hd := h.dec hr
  have hread := readPair_bits h.engine.width_ok hd.notStopped h.engine.cursors.2.1 h.engine.block_pos
  have hue := readPair_engineInv h.engine hread
  unfold execDecPair at ht
  rw [inState_of_eq _ hr, hread, andThen_next] at ht
  obtain ⟨r, i, z, hbits⟩ := getBits_only ((codeWidth s).toNat + 8) s
  unfold afterBits at hue ht
  rw [hbits] at hue ht
  generalize hu : latchPair _ _ _ _ = u at hue ht
  have hlive : u.wtLive = true := by rw [← hu]; exact hd.live
  have hfree : wordAt u u.nextCode = none := by rw [← hu]; exact hd.fresh h.engine
  split_ifs at ht with hmore
  · cases hw : wordAt u u.rpCode with
    | none =>
      rw [appendPair_absent hlive _ hw] at ht
      cases ht
    | some word =>
      rw [appendPair_eq hlive _ hw hfree hue.next_assignable hue.cursors.2.2] at ht
      obtain rfl := Host.Outcome.next.inj ht
      rw [← hu]
      exact .inr ⟨hr, by rw [← hu] at hmore; exact hmore, rfl⟩
  · rw [endOfStream_eq hue.cursors.2.2 hlive] at ht
    obtain rfl := Host.Outcome.next.inj ht
    exact .inl ⟨rfl, Bool.eq_false_iff.2 hmore, by rw [← hu]; rfl⟩

/-- A command legal in the run state leads where the table of 43_codec.md R153 says. -/
theorem legal_command_next {w : BitVec 24} {i : Instr} (hd : decodeCmd w = .ok i) {s t : State} (h : HostInv s)
    (hl : legalIn s.runState i) (ht : exec i s = .next t) : t.runState ∈ nextStates (w.toNat % 256) := by
  rcases decodeCmd_forms hd with ⟨rfl, rfl⟩ | ⟨prot, rfl, rfl⟩ | ⟨sym, rfl, rfl⟩ | ⟨rfl, rfl⟩ | ⟨rfl, rfl⟩ | ⟨rfl, rfl⟩ <;>
    rw [word_opid]
  · obtain rfl := Host.Outcome.next.inj ht
    exact List.mem_singleton.2 rfl
  · obtain rfl := Host.Outcome.next.inj ((execEncStart_eq hl prot).symm.trans ht)
    exact List.mem_singleton.2 rfl
  · exact List.mem_singleton.2 (encSym_eq_next h hl ht).1
  · obtain rfl := Host.Outcome.next.inj ((execEncEnd_eq hl h.engine (h.enc hl).live).symm.trans ht)
    exact List.mem_singleton.2 rfl
  · by_cases hm : headerMagic (pull s.cfg.headerBytes s).1 = s.cfg.magic
    · obtain rfl := Host.Outcome.next.inj ((execDecStart_accept hl hm).symm.trans ht)
      exact List.mem_pair.2 (.inl rfl)
    · obtain rfl := Host.Outcome.next.inj ((execDecStart_reject hl hm).symm.trans ht)
      exact List.mem_pair.2 (.inr rfl)
  · rcases decPair_eq_next h hl ht with ⟨hdone, -⟩ | ⟨hdec, -⟩
    · exact List.mem_pair.2 (.inr hdone)
    · exact List.mem_pair.2 (.inl hdec)

/-- Settles O10: a legal word decodes to a command of the run state, which completes, or is a DEC_PAIR that is U1; an illegal one
enters ERROR. -/
theorem commandsFollowTheStateTable : Obligations.CommandsFollowTheStateTable := by
  intro s w rest h hx
  refine ⟨fun hlegal => ?legal, fun hillegal => ?illegal⟩
  case legal =>
    obtain ⟨i, hd, hl⟩ := (commandLegal_iff s.runState w).1 hlegal
    rw [step_cmd h.noRequest hx hd]
    rcases command_answers hd (h.cmdIn rest) with ⟨t, ht⟩ | ⟨-, hw, hf⟩
    · exact .inl ⟨t, ht, legal_command_next hd (h.cmdIn rest) hl ht⟩
    · exact .inr ⟨hw, hf⟩
  case illegal => exact ⟨_, illegalCommandRaisesErrCmd.1 s w rest h.noRequest hx hillegal, rfl, rfl⟩

/-! ### What leaves DONE and ERROR -/

/-- A command of IDLE, ENC or DEC in DONE or ERROR leads to ERROR (43_codec.md R153). -/
theorem inState_of_ended {r : RunState} {s t : State} {body : Res State} (hs : s.runState = .done ∨ s.runState = .error)
    (hdone : r ≠ .done) (herr : r ≠ .error) (ht : inState r s body = .next t) : t.runState = .error := by
  rcases inState_eq_next ht with ⟨hr, -⟩ | ⟨-, rfl⟩
  · rcases hs with hs | hs
    · exact absurd (hr.symm.trans hs) hdone
    · exact absurd (hr.symm.trans hs) herr
  · exact raiseError_runState _ _

/-- A unit operation leaves the run state alone: it belongs to the orchestration (43_codec.md R150). -/
theorem unit_runState {i : Instr} (hi : isUnitOperation i = true) {s t : State} (ht : exec i s = .next t) :
    t.runState = s.runState := by
  cases i with
  | writeHeader magic prot => obtain rfl := Host.Outcome.next.inj ht; rfl
  | readHeader => obtain rfl := Host.Outcome.next.inj ht; rfl
  | writePair code sym w => exact (writePair_sameTrie ht).runState
  | readPair w =>
    obtain ⟨u, hu, ht⟩ := andThen_eq_next.1 ht
    obtain rfl := Host.Outcome.next.inj ht
    exact (readPair_sameTrie hu).runState
  | flush => exact (flush_sameTrie ht).runState
  | writeWord word => exact (writeWord_sameTrie ht).runState
  | flushWords => exact (flushWords_sameTrie ht).runState
  | trieCreate => obtain rfl := Host.Outcome.next.inj ht; rfl
  | trieStep node byte =>
    obtain ⟨_, -, ht⟩ := andThen_eq_next.1 ht
    obtain rfl := Host.Outcome.next.inj ht
    rfl
  | trieInsert node byte code =>
    obtain ⟨-, -, -, rfl⟩ := trieInsert_eq_next ht
    rfl
  | trieReset => exact trieReset_runState ht
  | trieDelete node => exact trieDelete_runState ht
  | wtCreate => obtain rfl := Host.Outcome.next.inj ht; rfl
  | wtLookup code =>
    obtain ⟨_, -, ht⟩ := andThen_eq_next.1 ht
    obtain rfl := Host.Outcome.next.inj ht
    rfl
  | wtAssign code parent byte => exact (wtAssign_sameTrie ht).runState
  | wtReset => exact (wtReset_sameTrie ht).runState
  | wtDelete => exact (wtDelete_sameTrie ht).runState
  | _ => cases hi

/-- In DONE and in ERROR an operation other than RESET stays there or goes to ERROR (43_codec.md R162, 60_exceptions.md R188). -/
theorem exec_of_ended {i : Instr} {s t : State} (hs : s.runState = .done ∨ s.runState = .error) (hi : i ≠ .reset)
    (ht : exec i s = .next t) : t.runState = s.runState ∨ t.runState = .error := by
  cases hu : isUnitOperation i with
  | true => exact .inl (unit_runState hu ht)
  | false =>
    right
    cases i with
    | reset => exact absurd rfl hi
    | encStart _ | encSym _ | encEnd | decStart | decPair | header _ _ | pairStop _ _ | pairLit _ _ | pairRef _ _ _ =>
      exact inState_of_ended hs (by decide) (by decide) ht
    | pairUndef _ _ _ => cases ht
    | _ => cases hu

/-- Settles O11: by what a step can serve; only RESET and the hardware reset give the reset state. -/
theorem onlyResetLeavesDoneAndError : Obligations.OnlyResetLeavesDoneAndError := by
  intro s t hs ht
  rcases step_cases ht with rfl | ⟨i, xs, r, hexec⟩ | ⟨xs, rfl⟩ | ⟨xs, rfl⟩ | ⟨wire, rest, -, -, rfl⟩
  · exact .inl rfl
  · by_cases hi : i = .reset
    · subst hi
      obtain rfl := Host.Outcome.next.inj hexec
      exact .inr (.inr rfl)
    · rcases exec_of_ended (s := { s with cmdIn := xs, unitIn := r }) hs hi hexec with hstay | herr
      · exact .inl hstay
      · exact .inr (.inl herr)
  · exact .inr (.inl (raiseError_runState _ _))
  · exact .inr (.inr rfl)
  · exact .inl rfl

/-! ### The counter and its width -/

theorem codeWidth_le_max {s : State} (h : EngineInv s) : (codeWidth s).toNat ≤ bitLength (s.cfg.maxCode - 1) := by
  rw [codeWidth_toNat]
  exact bitLength_mono (by have := h.counter; omega)

theorem maxWidth_le {cfg : Config} (h : cfg.Ok) : bitLength (cfg.maxCode - 1) ≤ 16 :=
  bitLength_le (by have := h.1; have := h.2.1; omega)

theorem codeWidth_congr {s t : State} (h : t.nextCode = s.nextCode) : (codeWidth t).toNat = (codeWidth s).toNat := by
  rw [codeWidth_toNat, codeWidth_toNat, h]

/-- A command that advances the counter exactly if it codes a data pair makes the width go as 43_codec.md R165 says. -/
theorem width_of_counter {s t : State} (he : EngineInv s) {coded : Prop}
    (hadvance : coded → t.nextCode = BitVec.ofNat 16 (advancedCode s)) (hkeep : ¬ coded → t.nextCode = s.nextCode) :
    (coded → s.nextCode.toNat + 1 = s.cfg.maxCode → t.nextCode = 2#16 ∧ (codeWidth t).toNat = 2) ∧
    (coded → s.nextCode.toNat + 1 ≠ s.cfg.maxCode →
      t.nextCode.toNat = s.nextCode.toNat + 1 ∧ (codeWidth s).toNat ≤ (codeWidth t).toNat) ∧
    (¬ coded → t.nextCode = s.nextCode ∧ (codeWidth t).toNat = (codeWidth s).toNat) := by
  refine ⟨fun hcoded hmax => ?epochEnd, fun hcoded hmax => ?within, fun hcoded => ⟨hkeep hcoded, codeWidth_congr (hkeep hcoded)⟩⟩
  case epochEnd =>
    have hstart : t.nextCode = 2#16 := (hadvance hcoded).trans (advanced_of_epochEnd hmax)
    refine ⟨hstart, ?_⟩
    rw [codeWidth_toNat, hstart]
    decide
  case within =>
    have hnext : t.nextCode.toNat = s.nextCode.toNat + 1 := by rw [hadvance hcoded, advanced_within_epoch he hmax]
    refine ⟨hnext, ?_⟩
    rw [codeWidth_toNat, codeWidth_toNat, hnext]
    exact bitLength_mono (Nat.le_succ _)

/-- Settles O44: each coding command advances the counter exactly if it codes a data pair. -/
theorem widthGrowsWithinAnEpoch : Obligations.WidthGrowsWithinAnEpoch := by
  refine ⟨fun s h => ⟨codeWidth_toNat s, ?least, codeWidth_le_max h, maxWidth_le h.params⟩, fun i s t h hrun ht => ?command⟩
  case least =>
    rw [codeWidth_toNat]
    exact h.two_le_width
  case command =>
    rcases hrun with ⟨hr, ⟨sym, rfl⟩ | rfl⟩ | ⟨hr, rfl⟩
    · obtain ⟨-, hnext⟩ := encSym_eq_next h hr ht
      exact width_of_counter h.engine (fun hc => hnext.trans (if_pos hc)) (fun hc => hnext.trans (if_neg hc))
    · obtain rfl := Host.Outcome.next.inj ((execEncEnd_eq hr h.engine (h.enc hr).live).symm.trans ht)
      exact width_of_counter h.engine (fun hc => congrArg (BitVec.ofNat 16) (if_neg hc))
        (fun hc => endCode_ofNat_of_root (not_not.1 hc))
    · refine width_of_counter h.engine (fun hc => ?data) (fun hc => ?sentinel)
      all_goals rcases decPair_eq_next h hr ht with ⟨-, hmore, hnext⟩ | ⟨-, hmore, hnext⟩
      case data.inl => exact absurd (hmore.symm.trans hc) (by decide)
      case data.inr => exact hnext
      case sentinel.inl => exact hnext
      case sentinel.inr => exact absurd hmore hc

/-! ### A wire with another magic -/

/-- In ERROR every DEC_PAIR leaves the engine as it is (60_exceptions.md R187). -/
theorem serve_pairInputs_of_error (n : Nat) {s : State} (hs : s.runState = .error) :
    serve (pairInputs n) s = .next (s.withInputs []) := by
  induction n generalizing s with
  | zero => exact serve_nil s
  | succ n ih =>
    have hkeep : exec .decPair (s.withInputs (pairInputs n)) = .next (s.withInputs (pairInputs n)) := by
      have hne : (s.withInputs (pairInputs n)).runState ≠ .dec := fun hd => by cases hs.symm.trans hd
      exact (inState_of_ne _ hne).trans (congrArg _ (raiseError_of_error _ hs))
    rw [show pairInputs (n + 1) = .cmd (cmdWord 0x06#8 0) :: pairInputs n from rfl, serve_cmd decodeCmd_decPair, hkeep]
    exact ih hs

/-- The magic of a header is in its first four bytes (40_bitchannel.md R112). -/
theorem headerMagic_congr {h h' : ByteSeq} (heq : ∀ i < 4, h.getD i 0#8 = h'.getD i 0#8) : headerMagic h = headerMagic h' := by
  unfold headerMagic
  rw [show (0 : Byte) = 0#8 from rfl, heq 0 (by decide), heq 1 (by decide), heq 2 (by decide), heq 3 (by decide)]

/-- Settles O57: DEC_START rejects the wire by its first four bytes, and ERROR is left by no DEC_PAIR. -/
theorem alteredMagicIsRejected : Obligations.AlteredMagicIsRejected := by
  intro s wire n hc hm
  have hmagic : headerMagic (pull s.cfg.headerBytes (wireReady wire (pairInputs n) s)).1 =
      headerMagic ((List.range 4).map (fun i => wire.getD i 0#8)) := by
    refine headerMagic_congr fun i hi => ?_
    rw [pull_getD _ (show i < s.cfg.headerBytes by unfold Config.headerBytes; omega), getD_map_range, if_pos hi, inByte]
    exact congrArg (wire.getD · 0#8) (Nat.zero_add i)
  rw [serve_decodeInputs, execDecStart_reject (s := wireReady wire (pairInputs n) s) rfl
    (fun he => hm (hmagic.symm.trans he)), andThen_next, serve_pairInputs_of_error n rfl]
  exact ⟨_, rfl, rfl, rfl, rfl, rfl⟩

end Sys2Proof.Machine
end

section
/-! Family 43_codec, LZ78 on plain lists of words: codes name words, and the pairs of an encode run spell its input (43_codec.md
R156, R158, R166, R167). No engine stands here. -/

namespace Sys2Proof.Machine

/-! ### The words that have a code -/

/-- A word with a code: the empty word, or a word learned in the epoch. -/
def Known (dict : List ByteSeq) (w : ByteSeq) : Prop := w = [] ∨ w ∈ dict

/-- A dictionary of an engine with the given MAX_CODE: its counter is below MAX_CODE (10_state.md R22), which codes of 16 bits
can name. -/
def InEpoch (maxCode : Nat) (dict : List ByteSeq) : Prop := dict.length + 2 < maxCode ∧ maxCode ≤ 65536

variable {maxCode : Nat} {dict : List ByteSeq} {v w : ByteSeq}

theorem Lz.code_nil (dict : List ByteSeq) : Lz.code dict [] = emptyCode := if_pos rfl

theorem Lz.code_of_ne (dict : List ByteSeq) (hw : w ≠ []) : Lz.code dict w = BitVec.ofNat 16 (dict.idxOf w + 2) := if_neg hw

/-- The code of a learned word is its place counted from START_CODE. -/
theorem Lz.code_toNat (h : InEpoch maxCode dict) (hmem : w ∈ dict) (hw : w ≠ []) :
    (Lz.code dict w).toNat = dict.idxOf w + 2 := by
  have hidx := List.idxOf_lt_length_of_mem hmem
  have hlen := h.1
  have hmax := h.2
  rw [Lz.code_of_ne dict hw, BitVec.toNat_ofNat]
  exact Nat.mod_eq_of_lt (by omega)

theorem Lz.code_lt_counter (h : InEpoch maxCode dict) (hw : Known dict w) : (Lz.code dict w).toNat < dict.length + 2 := by
  by_cases hne : w = []
  · rw [hne, Lz.code_nil]
    exact Nat.succ_pos _
  · have hmem := hw.resolve_left hne
    rw [Lz.code_toNat h hmem hne]
    exact Nat.add_lt_add_right (List.idxOf_lt_length_of_mem hmem) 2

theorem Lz.code_ne_stop (h : InEpoch maxCode dict) (hw : Known dict w) : Lz.code dict w ≠ stopCode := by
  by_cases hne : w = []
  · rw [hne, Lz.code_nil]
    decide
  · intro hstop
    have hcode := Lz.code_toNat h (hw.resolve_left hne) hne
    rw [hstop] at hcode
    exact absurd hcode (by show 1 ≠ _; omega)

/-- Different words have different codes. -/
theorem Lz.code_injective (h : InEpoch maxCode dict) (hv : Known dict v) (hw : Known dict w)
    (heq : Lz.code dict v = Lz.code dict w) : v = w := by
  by_cases hv0 : v = [] <;> by_cases hw0 : w = []
  · rw [hv0, hw0]
  · have hcode := Lz.code_toNat h (hw.resolve_left hw0) hw0
    rw [← heq, hv0, Lz.code_nil] at hcode
    exact absurd hcode (by show 0 ≠ _; omega)
  · have hcode := Lz.code_toNat h (hv.resolve_left hv0) hv0
    rw [heq, hw0, Lz.code_nil] at hcode
    exact absurd hcode (by show 0 ≠ _; omega)
  · have hvm := hv.resolve_left hv0
    have hidx : dict.idxOf v = dict.idxOf w := by
      have hcode := congrArg BitVec.toNat heq
      rw [Lz.code_toNat h hvm hv0, Lz.code_toNat h (hw.resolve_left hw0) hw0] at hcode
      omega
    exact (List.idxOf_inj hvm).1 hidx

/-! ### One word more -/

theorem known_append : Known (dict ++ [v]) w ↔ Known dict w ∨ w = v := by
  unfold Known
  rw [List.mem_append, List.mem_singleton, or_assoc]

/-- A word keeps its code when another is learned. -/
theorem Lz.code_append (hw : Known dict w) (v : ByteSeq) : Lz.code (dict ++ [v]) w = Lz.code dict w := by
  by_cases hne : w = []
  · rw [hne, Lz.code_nil, Lz.code_nil]
  · rw [Lz.code_of_ne _ hne, Lz.code_of_ne _ hne, List.idxOf_append_of_mem (hw.resolve_left hne)]

/-- A new word's code is the counter before it was learned. -/
theorem Lz.code_learned (hv : v ≠ []) (hnew : v ∉ dict) : Lz.code (dict ++ [v]) v = BitVec.ofNat 16 (dict.length + 2) := by
  rw [Lz.code_of_ne _ hv, List.idxOf_append_of_notMem hnew, List.idxOf_cons_self, Nat.add_zero]

/-- Learning a word ends the epoch, or makes the dictionary one word longer (43_codec.md R152). -/
theorem Lz.learn_cases (maxCode : Nat) (dict : List ByteSeq) (v : ByteSeq) :
    (dict.length + 3 = maxCode ∧ Lz.learn maxCode dict v = []) ∨
    (dict.length + 3 ≠ maxCode ∧ Lz.learn maxCode dict v = dict ++ [v]) := by
  by_cases h : dict.length + 3 = maxCode
  · exact .inl ⟨h, if_pos h⟩
  · exact .inr ⟨h, if_neg h⟩

theorem inEpoch_nil (h4 : 4 ≤ maxCode) (hmax : maxCode ≤ 65536) : InEpoch maxCode [] :=
  ⟨Nat.lt_of_lt_of_le (by decide) h4, hmax⟩

theorem InEpoch.learn (h : InEpoch maxCode dict) (v : ByteSeq) : InEpoch maxCode (Lz.learn maxCode dict v) := by
  obtain ⟨hlen, hmax⟩ := h
  rcases Lz.learn_cases maxCode dict v with ⟨hend, hl⟩ | ⟨hne, hl⟩ <;> rw [hl]
  · exact ⟨by simp; omega, hmax⟩
  · exact ⟨by simp; omega, hmax⟩

/-- The number of words learned counts modulo EPOCH_PAIRS (43_codec.md R152, R166). -/
theorem Lz.learn_length (h : InEpoch maxCode dict) (v : ByteSeq) :
    (Lz.learn maxCode dict v).length = (dict.length + 1) % (maxCode - 2) := by
  have hlen := h.1
  rcases Lz.learn_cases maxCode dict v with ⟨hend, hl⟩ | ⟨hne, hl⟩ <;> rw [hl]
  · rw [show dict.length + 1 = maxCode - 2 by omega, Nat.mod_self]
    rfl
  · rw [List.length_append, List.length_singleton, Nat.mod_eq_of_lt (by omega)]

/-! ### The width -/

theorem Lz.width_range (h : InEpoch maxCode dict) : 2 ≤ Lz.width dict ∧ Lz.width dict ≤ 16 := by
  obtain ⟨hlen, hmax⟩ := h
  exact ⟨two_le_bitLength (by omega), bitLength_le (by omega)⟩

theorem Lz.code_fits (h : InEpoch maxCode dict) (hw : Known dict w) : (Lz.code dict w).toNat < 2 ^ Lz.width dict :=
  (Lz.code_lt_counter h hw).trans (lt_two_pow_bitLength _)

theorem stopCode_fits {n : Nat} (h : 2 ≤ n) : (stopCode : Code).toNat < 2 ^ n :=
  show 1 < 2 ^ n from Nat.one_lt_two_pow (by omega)

/-! ### The pairs of a run spell its input -/

/-- The pair that extends a known word by one byte, at the width of the counter (43_codec.md R157). -/
def dataPair (dict : List ByteSeq) (p : ByteSeq) (b : Byte) : WirePair :=
  { code := Lz.code dict p, sym := b, width := Lz.width dict }

/-- The sentinel at the width of the counter (43_codec.md R158). -/
def sentinel (dict : List ByteSeq) : WirePair := { code := stopCode, sym := 0, width := Lz.width dict }

/-- A list of data pairs, read with the dictionary `dict`, spells the bytes `out` and leaves the dictionary `dict'`: each pair names
a known word, which it extends by a byte to the word that is put out and learned. -/
inductive Spells (maxCode : Nat) : List ByteSeq → List WirePair → ByteSeq → List ByteSeq → Prop where
  | nil (dict : List ByteSeq) : Spells maxCode dict [] [] dict
  | cons {dict dict' : List ByteSeq} {ps : List WirePair} {out : ByteSeq} {p : ByteSeq} (b : Byte) (hp : Known dict p)
      (h : Spells maxCode (Lz.learn maxCode dict (p ++ [b])) ps out dict') :
      Spells maxCode dict (dataPair dict p b :: ps) (p ++ [b] ++ out) dict'

theorem Spells.trans {d d' d'' : List ByteSeq} {ps qs : List WirePair} {out out' : ByteSeq} (h : Spells maxCode d ps out d')
    (h' : Spells maxCode d' qs out' d'') : Spells maxCode d (ps ++ qs) (out ++ out') d'' := by
  induction h with
  | nil => exact h'
  | cons b hp _ ih =>
    rw [List.append_assoc]
    exact .cons b hp (ih h')

/-- Data pairs are no sentinels, and their codes fit their widths of 2 to 16 bits (43_codec.md R167, 30_encoding.md R89). -/
theorem Spells.pairs_fit {d d' : List ByteSeq} {ps : List WirePair} {out : ByteSeq} (h : Spells maxCode d ps out d')
    (hd : InEpoch maxCode d) :
    ∀ p ∈ ps, p.code ≠ stopCode ∧ p.code.toNat < 2 ^ p.width ∧ 2 ≤ p.width ∧ p.width ≤ 16 := by
  induction h with
  | nil => intro p hp; cases hp
  | cons b hp _ ih =>
    exact List.forall_mem_cons.2
      ⟨⟨Lz.code_ne_stop hd hp, Lz.code_fits hd hp, Lz.width_range hd⟩, ih (hd.learn _)⟩

/-- The counter cycles with the number of pairs (43_codec.md R166). -/
theorem Spells.length {d d' : List ByteSeq} {ps : List WirePair} {out : ByteSeq} (h : Spells maxCode d ps out d')
    (hd : InEpoch maxCode d) : d'.length = (d.length + ps.length) % (maxCode - 2) := by
  induction h with
  | nil d => exact (Nat.mod_eq_of_lt (show d.length < maxCode - 2 by have := hd.1; omega)).symm
  | @cons d _ ps _ p b _ _ ih =>
    rw [ih (hd.learn _), Lz.learn_length hd, Nat.mod_add_mod, List.length_cons, Nat.add_assoc, Nat.add_comm 1]

/-! ### The encoder's algorithm -/

/-- The outstanding match is a known word, and so is every known word's beginning. -/
structure Lz.Wf (z : Lz) : Prop where
  matched : Known z.dict z.cur
  closed : ∀ p b, p ++ [b] ∈ z.dict → Known z.dict p

theorem Lz.start_wf : Lz.Wf .start where
  matched := .inl rfl
  closed := fun _ _ h => by cases h

variable {z : Lz}

theorem Lz.sym_of_mem {b : Byte} (h : z.cur ++ [b] ∈ z.dict) : Lz.sym maxCode z b = ({ z with cur := z.cur ++ [b] }, []) :=
  if_pos h

theorem Lz.sym_of_notMem {b : Byte} (h : z.cur ++ [b] ∉ z.dict) :
    Lz.sym maxCode z b =
      ({ dict := Lz.learn maxCode z.dict (z.cur ++ [b]), cur := [] }, [dataPair z.dict z.cur b]) := if_neg h

theorem Lz.syms_cons (maxCode : Nat) (z : Lz) (b : Byte) (bs : ByteSeq) :
    Lz.syms maxCode z (b :: bs) = ((Lz.syms maxCode (Lz.sym maxCode z b).1 bs).1,
      (Lz.sym maxCode z b).2 ++ (Lz.syms maxCode (Lz.sym maxCode z b).1 bs).2) := rfl

/-- A learned word that extends a known one keeps the dictionary closed. -/
theorem Lz.learn_closed (h : z.Wf) (b : Byte) (p : ByteSeq) (b' : Byte)
    (hmem : p ++ [b'] ∈ Lz.learn maxCode z.dict (z.cur ++ [b])) : Known (Lz.learn maxCode z.dict (z.cur ++ [b])) p := by
  rcases Lz.learn_cases maxCode z.dict (z.cur ++ [b]) with ⟨-, hl⟩ | ⟨-, hl⟩ <;> rw [hl] at hmem ⊢
  · cases hmem
  · refine known_append.2 (.inl ?_)
    rcases List.mem_append.1 hmem with hold | hnew
    · exact h.closed p b' hold
    · obtain ⟨rfl, -⟩ := List.append_singleton_inj.1 (List.mem_singleton.1 hnew)
      exact h.matched

theorem Lz.Wf.sym (h : z.Wf) (maxCode : Nat) (b : Byte) : (Lz.sym maxCode z b).1.Wf := by
  by_cases hmem : z.cur ++ [b] ∈ z.dict
  · rw [Lz.sym_of_mem hmem]
    exact ⟨.inr hmem, h.closed⟩
  · rw [Lz.sym_of_notMem hmem]
    exact ⟨.inl rfl, Lz.learn_closed h b⟩

/-- The pairs of an input spell the match it began with and the input, but for the match it ends with. -/
theorem Lz.Wf.syms (h : z.Wf) (maxCode : Nat) (input : ByteSeq) :
    (Lz.syms maxCode z input).1.Wf ∧
      ∃ out, Spells maxCode z.dict (Lz.syms maxCode z input).2 out (Lz.syms maxCode z input).1.dict ∧
        out ++ (Lz.syms maxCode z input).1.cur = z.cur ++ input := by
  induction input generalizing z with
  | nil => exact ⟨h, [], .nil z.dict, (List.append_nil _).symm⟩
  | cons b input ih =>
    obtain ⟨hwf, out, hspell, hout⟩ := ih (h.sym maxCode b)
    rw [Lz.syms_cons]
    by_cases hmem : z.cur ++ [b] ∈ z.dict
    · rw [Lz.sym_of_mem hmem] at hwf hspell hout ⊢
      exact ⟨hwf, out, hspell, hout.trans (List.append_assoc _ _ _)⟩
    · rw [Lz.sym_of_notMem hmem] at hwf hspell hout ⊢
      refine ⟨hwf, z.cur ++ [b] ++ out, .cons b h.matched hspell, ?_⟩
      rw [List.append_assoc, hout]
      exact List.append_assoc _ _ _

theorem Lz.finish_of_nil (h : z.cur = []) : Lz.finish maxCode z = [sentinel z.dict] := if_pos h

theorem Lz.finish_of_append {p : ByteSeq} {b : Byte} (h : z.cur = p ++ [b]) :
    Lz.finish maxCode z = [dataPair z.dict p b, sentinel (Lz.learn maxCode z.dict z.cur)] := by
  have hne : z.cur ≠ [] := by rw [h]; exact List.append_ne_nil_of_right_ne_nil p (List.cons_ne_nil b [])
  rw [Lz.finish, if_neg hne, h, List.dropLast_concat, List.getLastD_concat]
  rfl

/-- The last pairs of a run spell the outstanding match; the sentinel ends them. -/
theorem Lz.Wf.finish (h : z.Wf) (maxCode : Nat) :
    ∃ ps dict', Lz.finish maxCode z = ps ++ [sentinel dict'] ∧ Spells maxCode z.dict ps z.cur dict' := by
  rcases List.eq_nil_or_concat z.cur with hnil | ⟨p, b, hcur⟩
  · exact ⟨[], z.dict, Lz.finish_of_nil hnil, by rw [hnil]; exact .nil z.dict⟩
  · rw [List.concat_eq_append] at hcur
    have hp : Known z.dict p := h.closed p b (hcur ▸ h.matched.resolve_left (by rw [hcur]; simp))
    refine ⟨[dataPair z.dict p b], _, Lz.finish_of_append hcur, ?_⟩
    have hspell := Spells.cons (maxCode := maxCode) b hp (.nil _)
    rwa [List.append_nil, ← hcur] at hspell

/-- The pairs of an encode run are data pairs that spell the input, then the sentinel (43_codec.md R158, R161). -/
theorem Lz.encode_spells (maxCode : Nat) (input : ByteSeq) :
    ∃ ps dict', Lz.encode maxCode input = ps ++ [sentinel dict'] ∧ Spells maxCode [] ps input dict' := by
  obtain ⟨hwf, out, hspell, hout⟩ := Lz.start_wf.syms maxCode input
  obtain ⟨ps, dict', hfinish, hlast⟩ := hwf.finish maxCode
  refine ⟨(Lz.syms maxCode .start input).2 ++ ps, dict', ?_, ?_⟩
  · rw [Lz.encode, hfinish, List.append_assoc]
  · have hall := hspell.trans hlast
    rwa [hout] at hall

end Sys2Proof.Machine
end

section
/-! Family 43_codec, encode runs: the engine follows LZ78 on plain lists of words, byte for byte (43_codec.md R156 to R161, R166,
R167). -/

namespace Sys2Proof.Machine

/-! ### What an encode run has written -/

theorem pairListBits_append (ps qs : List WirePair) : pairListBits (ps ++ qs) = pairListBits ps ++ pairListBits qs :=
  List.flatMap_append

/-- From `s` to `t` an encode run wrote the pairs `ps` for `n` input bytes. -/
structure Wrote (s : State) (ps : List WirePair) (n : Nat) (t : State) : Prop where
  cfg : t.cfg = s.cfg
  prot : t.prot = s.prot
  sent : sentBits t = sentBits s ++ pairListBits ps
  bits : t.totalBits = s.totalBits + BitVec.ofNat 64 (pairListBits ps).length
  syms : t.totalSyms = s.totalSyms + BitVec.ofNat 64 n

theorem Wrote.nothing (s : State) : Wrote s [] 0 s :=
  ⟨rfl, rfl, (List.append_nil _).symm, (BitVec.add_zero _).symm, (BitVec.add_zero _).symm⟩

theorem Wrote.trans {s t u : State} {ps qs : List WirePair} {m n : Nat} (h : Wrote s ps m t) (h' : Wrote t qs n u) :
    Wrote s (ps ++ qs) (m + n) u where
  cfg := h'.cfg.trans h.cfg
  prot := h'.prot.trans h.prot
  sent := by rw [h'.sent, h.sent, pairListBits_append, List.append_assoc]
  bits := by rw [h'.bits, h.bits, pairListBits_append, List.length_append, BitVec.ofNat_add, BitVec.add_assoc]
  syms := by rw [h'.syms, h.syms, BitVec.ofNat_add, BitVec.add_assoc]

theorem Wrote.of_withInputs {s t : State} {xs : List HostInput} {ps : List WirePair} {n : Nat}
    (h : Wrote (s.withInputs xs) ps n t) : Wrote s ps n t := ⟨h.cfg, h.prot, h.sent, h.bits, h.syms⟩

theorem HostInv.withInputs {s : State} (h : HostInv s) (xs : List HostInput) : HostInv (s.withInputs xs) := by
  have hs : s.withInputs xs = { s with cmdIn := xs } := by
    unfold State.withInputs
    rw [← h.noRequest]
  rw [hs]
  exact h.cmdIn xs

/-! ### The engine follows the algorithm -/

/-- The child map is the dictionary as a tree: a known word has a child at a byte exactly if the longer word is learned. -/
def Mirrors (dict : List ByteSeq) (s : State) : Prop :=
  ∀ p b, Known dict p →
    childAt s (Lz.code dict p) b = if p ++ [b] ∈ dict then some (Lz.code dict (p ++ [b])) else none

/-- The engine in an encode run, at the place where the algorithm is in the state `z`. -/
structure Follows (z : Lz) (s : State) : Prop where
  host : HostInv s
  running : s.runState = .enc
  wf : z.Wf
  counter : s.nextCode.toNat = z.dict.length + 2
  links : Mirrors z.dict s
  node : s.cur = Lz.code z.dict z.cur
  parent : ∀ p b, z.cur = p ++ [b] → s.prevCode = Lz.code z.dict p ∧ s.prevSym = b

section
variable {z : Lz} {s : State}

theorem Follows.withInputs (h : Follows z s) (xs : List HostInput) : Follows z (s.withInputs xs) :=
  ⟨h.host.withInputs xs, h.running, h.wf, h.counter, h.links, h.node, h.parent⟩

theorem Follows.inEpoch (h : Follows z s) : InEpoch s.cfg.maxCode z.dict := by
  have hlt := h.host.engine.counter.2
  rw [h.counter] at hlt
  exact ⟨hlt, h.host.engine.params.2.1⟩

theorem Follows.nextCode_eq (h : Follows z s) : s.nextCode = BitVec.ofNat 16 (z.dict.length + 2) := by
  rw [← h.counter, BitVec.ofNat_toNat, BitVec.setWidth_eq]

/-- The engine at the start of a run, the trie empty and the match at the root. -/
theorem follows_start (h : HostInv s) (hr : s.runState = .enc) (hchild : s.child = []) (hcur : s.cur = emptyCode)
    (hnext : s.nextCode = startCode) : Follows .start s where
  host := h
  running := hr
  wf := Lz.start_wf
  counter := congrArg BitVec.toNat hnext
  links := fun _ b _ => childAt_of_empty hchild _ b
  node := hcur.trans (Lz.code_nil []).symm
  parent := fun p b h => absurd h.symm (List.append_ne_nil_of_right_ne_nil p (List.cons_ne_nil b []))

/-- Both counters advance alike (43_codec.md R152). -/
theorem advancedCode_learn {dict : List ByteSeq} (h : s.nextCode.toNat = dict.length + 2) (v : ByteSeq) :
    advancedCode s = (Lz.learn s.cfg.maxCode dict v).length + 2 := by
  unfold advancedCode
  rw [h]
  rcases Lz.learn_cases s.cfg.maxCode dict v with ⟨hend, hl⟩ | ⟨hne, hl⟩ <;> rw [hl]
  · exact if_pos hend
  · rw [List.length_append]
    exact if_neg hne

/-- A broken match learned keeps the child map a mirror of the dictionary: the known words keep their children and the match gets
one more, and the new word, whose code is fresh, has none. -/
theorem Follows.links_learned (h : Follows z s) {b : Byte} (hnew : z.cur ++ [b] ∉ z.dict) {t : State}
    (ht : ∀ p b', childAt t p b' = if s.nextCode.toNat + 1 = s.cfg.maxCode then none
      else if p = s.cur ∧ b' = b then some s.nextCode else childAt s p b') :
    Mirrors (Lz.learn s.cfg.maxCode z.dict (z.cur ++ [b])) t := by
  intro p b' hp
  rw [ht]
  rcases Lz.learn_cases s.cfg.maxCode z.dict (z.cur ++ [b]) with ⟨hend, hl⟩ | ⟨hne, hl⟩ <;> rw [hl] at hp ⊢
  · exact if_pos (by rw [h.counter]; exact hend)
  · rw [if_neg (by rw [h.counter]; exact hne)]
    have hcode : Lz.code (z.dict ++ [z.cur ++ [b]]) (z.cur ++ [b]) = s.nextCode :=
      (Lz.code_learned (by simp) hnew).trans h.nextCode_eq.symm
    by_cases hold : Known z.dict p
    · rw [Lz.code_append hold, h.node]
      by_cases hmatch : p = z.cur ∧ b' = b
      · obtain ⟨rfl, rfl⟩ := hmatch
        rw [if_pos ⟨rfl, rfl⟩, if_pos (by simp), hcode]
      · have hcodes : ¬ (Lz.code z.dict p = Lz.code z.dict z.cur ∧ b' = b) := fun ⟨hc, hb⟩ =>
          hmatch ⟨Lz.code_injective h.inEpoch hold h.wf.matched hc, hb⟩
        have hword : p ++ [b'] ≠ z.cur ++ [b] := fun he => hmatch (List.append_singleton_inj.1 he)
        rw [if_neg hcodes, h.links p b' hold]
        by_cases hmem : p ++ [b'] ∈ z.dict
        · rw [if_pos hmem, if_pos (List.mem_append_left _ hmem), Lz.code_append (.inr hmem)]
        · rw [if_neg hmem, if_neg (by simp [hmem, hword])]
    · obtain rfl := (known_append.1 hp).resolve_left hold
      have hfresh := (h.host.enc h.running).fresh h.host.engine
      have hnone : z.cur ++ [b] ++ [b'] ∉ z.dict := fun hmem => hold (h.wf.closed _ _ hmem)
      have hcur : ¬ (s.nextCode = s.cur ∧ b' = b) := fun ⟨hc, _⟩ => by
        have hlt := Lz.code_lt_counter h.inEpoch h.wf.matched
        rw [← h.node, ← hc, h.counter] at hlt
        exact lt_irrefl _ hlt
      rw [hcode, if_neg hcur, if_neg (by simpa using hnone)]
      exact h.host.engine.trie.no_child hfresh b'

/-- A byte that extends the match: the engine and the algorithm both move on and write nothing (43_codec.md R157). -/
theorem encSym_follows_extend (h : Follows z s) {b : Byte} (hmem : z.cur ++ [b] ∈ z.dict) : ∃ t, execEncSym b s = .next t ∧
    Follows { z with cur := z.cur ++ [b] } t ∧ Wrote s [] 1 t := by
  have hi := h.host.enc h.running
  have hlink : childAt s s.cur b = some _ := h.node ▸ (h.links z.cur b h.wf.matched).trans (if_pos hmem)
  have hrun := execEncSym_extend h.running hi.ready hlink
  refine ⟨_, hrun, ⟨encSym_hostInv h.host h.running hrun, h.running, ⟨.inr hmem, h.wf.closed⟩, h.counter, h.links, rfl,
    fun p b' hp => ?parent⟩, ⟨rfl, rfl, (List.append_nil _).symm, (BitVec.add_zero _).symm, rfl⟩⟩
  case parent =>
    obtain ⟨rfl, rfl⟩ := List.append_singleton_inj.1 hp
    exact ⟨h.node, rfl⟩

/-- A byte that breaks the match: both write the same pair and learn the same word (43_codec.md R157). -/
theorem encSym_follows_break (h : Follows z s) {b : Byte} (hnew : z.cur ++ [b] ∉ z.dict) : ∃ t, execEncSym b s = .next t ∧
    Follows { dict := Lz.learn s.cfg.maxCode z.dict (z.cur ++ [b]), cur := [] } t ∧
    Wrote s [dataPair z.dict z.cur b] 1 t := by
  have he := h.host.engine
  have hi := h.host.enc h.running
  have hlink : childAt s s.cur b = none := h.node ▸ (h.links z.cur b h.wf.matched).trans (if_neg hnew)
  have hrun := execEncSym_break h.running he hi.ready (hi.fresh he) hlink
  have hwidth : Lz.width z.dict = bitLength s.nextCode.toNat := by rw [h.counter]; rfl
  have hbits : pairListBits [dataPair z.dict z.cur b] = pairBits s.cur b (bitLength s.nextCode.toNat) := by
    rw [h.node, ← hwidth]
    exact List.append_nil _
  refine ⟨_, hrun, ⟨encSym_hostInv h.host h.running hrun, ?running, ⟨.inl rfl, Lz.learn_closed h.wf b⟩, ?counter,
    h.links_learned hnew (learn_childAt s b), (Lz.code_nil _).symm, fun p b' hp => ?parent⟩,
    ⟨putBits_cfg _ s, ?prot, ?sent, ?bits, rfl⟩⟩
  case running => rw [putBits_frame]; exact h.running
  case counter => exact (advancedCode_toNat he).trans (advancedCode_learn h.counter _)
  case parent => exact absurd hp.symm (List.append_ne_nil_of_right_ne_nil p (List.cons_ne_nil b' []))
  case prot => rw [putBits_frame]
  case sent => rw [hbits]; exact putBits_sent s _
  case bits => rw [hbits, pairBits_length]

/-- ENC_SYM does what the algorithm does with the byte (43_codec.md R156, R157). -/
theorem encSym_follows (h : Follows z s) (b : Byte) : ∃ t, execEncSym b s = .next t ∧
    Follows (Lz.sym s.cfg.maxCode z b).1 t ∧ Wrote s (Lz.sym s.cfg.maxCode z b).2 1 t := by
  by_cases hmem : z.cur ++ [b] ∈ z.dict
  · rw [Lz.sym_of_mem hmem]
    exact encSym_follows_extend h hmem
  · rw [Lz.sym_of_notMem hmem]
    exact encSym_follows_break h hmem

/-- ENC_SYM of every byte of an input. -/
def symInputs (input : ByteSeq) : List HostInput :=
  input.map (fun b => HostInput.cmd (cmdWord 0x03#8 (b.setWidth 16)))

/-- ENC_SYM of every byte of an input does what the algorithm does with the input, whatever inputs follow. -/
theorem serve_syms (input : ByteSeq) (rest : List HostInput) (h : Follows z s) :
    ∃ t, serve (symInputs input ++ rest) s = serve rest t ∧
      Follows (Lz.syms s.cfg.maxCode z input).1 t ∧ Wrote s (Lz.syms s.cfg.maxCode z input).2 input.length t := by
  induction input generalizing z s with
  | nil => exact ⟨s, rfl, h, .nothing s⟩
  | cons b input ih =>
    have hserve := serve_cmd (decodeCmd_encSym b) (symInputs input ++ rest) s
    obtain ⟨u, hu, hfu, hwu⟩ := encSym_follows (h.withInputs _) b
    have hcfg : u.cfg = s.cfg := hwu.cfg
    obtain ⟨t, ht, hft, hwt⟩ := ih hfu
    rw [hcfg] at hft hwt
    refine ⟨t, ?_, hft, ?_⟩
    · exact (hserve.trans (andThen_of hu)).trans ht
    · rw [List.length_cons, Nat.add_comm]
      exact hwu.of_withInputs.trans hwt

/-! ### The end of a run -/

/-- ENC_END writes the pairs that the algorithm ends with (43_codec.md R158). -/
theorem Follows.endBits_eq (h : Follows z s) : endBits s = pairListBits (Lz.finish s.cfg.maxCode z) := by
  have hwidth : Lz.width z.dict = bitLength s.nextCode.toNat := by rw [h.counter]; rfl
  rcases List.eq_nil_or_concat z.cur with hnil | ⟨p, b, hcur⟩
  · have hroot : s.cur = emptyCode := by rw [h.node, hnil, Lz.code_nil]
    rw [Lz.finish_of_nil hnil, endBits, if_pos hroot, ← hwidth]
    exact (List.append_nil _).symm
  · rw [List.concat_eq_append] at hcur
    have hne : z.cur ≠ [] := by rw [hcur]; simp
    have hnode : s.cur ≠ emptyCode := fun hc => hne <|
      Lz.code_injective h.inEpoch h.wf.matched (.inl rfl) (by rw [← h.node, hc, Lz.code_nil])
    obtain ⟨hprev, hsym⟩ := h.parent p b hcur
    rw [Lz.finish_of_append hcur, endBits, if_neg hnode, hprev, hsym, ← hwidth, advancedCode_learn h.counter z.cur]
    show _ = _ ++ (_ ++ [])
    rw [List.append_nil]
    rfl

/-- ENC_END puts the sent bits and those pairs on ZOUT, padded, and ends the run. -/
theorem encEnd_follows (h : Follows z s) : ∃ t, execEncEnd s = .next t ∧ t.runState = .done ∧ t.prot = s.prot ∧
    t.zout = packBytes (sentBits s ++ pairListBits (Lz.finish s.cfg.maxCode z)) ∧ t.totalSyms = s.totalSyms ∧
    t.totalBits = s.totalBits + BitVec.ofNat 64 (pairListBits (Lz.finish s.cfg.maxCode z)).length := by
  refine ⟨_, execEncEnd_eq h.running h.host.engine (h.host.enc h.running).live, rfl, rfl, ?zout, rfl, ?bits⟩
  case zout =>
    rw [← h.endBits_eq, sentBits, List.append_assoc]
    exact (packBytes_bytesBits_append _ _).symm
  case bits => rw [← h.endBits_eq]

/-! ### Whole runs -/

/-- The engine right after RESET and ENC_START, with inputs pending. -/
def runOpened (prot : BitVec 16) (xs : List HostInput) (s : State) : State :=
  { State.resetOf s.cfg with
    prot := prot, zout := headerImage s.cfg s.cfg.magic prot, trieLive := true, runState := .enc
    zin := s.zin, cmdIn := xs, freeIndex := s.freeIndex }

theorem serve_encodeInputs (prot : BitVec 16) (input : ByteSeq) (s : State) :
    serve (encodeInputs prot input) s =
      serve (symInputs input ++ [.cmd (cmdWord 0x04#8 0)])
        (runOpened prot (symInputs input ++ [.cmd (cmdWord 0x04#8 0)]) s) := by
  unfold encodeInputs
  rw [serve_cmd decodeCmd_reset]
  exact serve_cmd (decodeCmd_cmdWord 0x02#8 prot) _ _

theorem runOpened_follows (hc : s.cfg.Ok) (prot : BitVec 16) (xs : List HostInput) : Follows .start (runOpened prot xs s) := by
  have hreset : HostInv (resetState (s.withInputs xs)) := resetState_hostInv hc rfl
  exact follows_start (encStart_hostInv (prot := prot) hreset rfl rfl) rfl rfl rfl rfl

theorem runOpened_sent (prot : BitVec 16) (xs : List HostInput) (s : State) :
    sentBits (runOpened prot xs s) = bytesBits (headerImage s.cfg s.cfg.magic prot) := List.append_nil _

theorem decodeCmd_encEnd : decodeCmd (cmdWord 0x04#8 0) = .ok .encEnd := decodeCmd_cmdWord 0x04#8 0

end

/-- Settles O55: RESET and ENC_START put the engine where the algorithm starts, with the header sent; ENC_SYM follows the algorithm,
and ENC_END flushes the sent bits with the pairs it ends with. -/
theorem encodeEmitsTheLz78Wire : Obligations.EncodeEmitsTheLz78Wire := by
  intro s prot input hc
  rw [serve_encodeInputs]
  obtain ⟨u, hu, hfollows, hwrote⟩ :=
    serve_syms input [.cmd (cmdWord 0x04#8 0)] (runOpened_follows hc prot (symInputs input ++ [.cmd (cmdWord 0x04#8 0)]))
  obtain ⟨t, ht, hdone, hprot, hzout, hsyms, hbits⟩ := encEnd_follows (hfollows.withInputs [])
  have hcfg : (u.withInputs []).cfg = s.cfg := hwrote.cfg
  have hsent := hwrote.sent
  rw [runOpened_sent] at hsent
  have hlist : pairListBits (Lz.encode s.cfg.maxCode input) =
      pairListBits (Lz.syms s.cfg.maxCode .start input).2 ++
        pairListBits (Lz.finish s.cfg.maxCode (Lz.syms s.cfg.maxCode .start input).1) := pairListBits_append _ _
  rw [hcfg] at hzout hbits
  refine ⟨t.withInputs [], hu.trans ?run, hdone, hprot.trans hwrote.prot, ?zout, ?syms, ?bits⟩
  case run =>
    rw [serve_cmd decodeCmd_encEnd]
    exact (andThen_of ht).trans (serve_nil t)
  case zout =>
    refine hzout.trans ?_
    rw [wireImage, hlist, ← packBytes_bytesBits_append, ← List.append_assoc]
    exact congrArg (fun bits => packBytes (bits ++ _)) hsent
  case syms => exact (hsyms.trans hwrote.syms).trans (BitVec.zero_add _)
  case bits =>
    refine hbits.trans ?_
    rw [hlist, List.length_append, BitVec.ofNat_add]
    exact congrArg (· + _) (hwrote.bits.trans (BitVec.zero_add _))

/-- Settles O58: the wire is the one of the algorithm's pairs, which are data pairs that spell the input, then the sentinel. -/
theorem sentinelIsLastAndOnlyLast : Obligations.SentinelIsLastAndOnlyLast := by
  intro s prot input hc
  obtain ⟨t, ht, -, -, hzout, -, -⟩ := encodeEmitsTheLz78Wire s prot input hc
  obtain ⟨ps, dict', hpairs, hspell⟩ := Lz.encode_spells s.cfg.maxCode input
  exact ⟨t, ps, Lz.width dict', ht, hzout.trans (congrArg _ hpairs), hpairs, hspell.pairs_fit (inEpoch_nil hc.1 hc.2.1)⟩

end Sys2Proof.Machine
end

section
/-! Family 43_codec, decode runs: the engine reads the pairs of an encode run back to its input (43_codec.md R160, R163), and both
sides count the pairs of an epoch alike (R166). -/

namespace Sys2Proof.Machine

/-! ### What a decode run has put out -/

/-- From `s` to `t` a decode run took the pairs `ps` and put out the bytes `out`. -/
structure PutOut (s : State) (ps : List WirePair) (out : ByteSeq) (t : State) : Prop where
  cfg : t.cfg = s.cfg
  prot : t.prot = s.prot
  bits : t.totalBits = s.totalBits + BitVec.ofNat 64 (pairListBits ps).length
  syms : t.totalSyms = s.totalSyms + BitVec.ofNat 64 out.length
  decoded : decodedBytes t = decodedBytes s ++ out

theorem PutOut.nothing (s : State) : PutOut s [] [] s :=
  ⟨rfl, rfl, (BitVec.add_zero _).symm, (BitVec.add_zero _).symm, (List.append_nil _).symm⟩

theorem PutOut.trans {s t u : State} {ps qs : List WirePair} {out out' : ByteSeq} (h : PutOut s ps out t)
    (h' : PutOut t qs out' u) : PutOut s (ps ++ qs) (out ++ out') u where
  cfg := h'.cfg.trans h.cfg
  prot := h'.prot.trans h.prot
  bits := by rw [h'.bits, h.bits, pairListBits_append, List.length_append, BitVec.ofNat_add, BitVec.add_assoc]
  syms := by rw [h'.syms, h.syms, List.length_append, BitVec.ofNat_add, BitVec.add_assoc]
  decoded := by rw [h'.decoded, h.decoded, List.append_assoc]

theorem PutOut.of_withInputs {s t : State} {xs : List HostInput} {ps : List WirePair} {out : ByteSeq}
    (h : PutOut (s.withInputs xs) ps out t) : PutOut s ps out t := ⟨h.cfg, h.prot, h.bits, h.syms, h.decoded⟩

/-! ### The word table holds the dictionary -/

/-- The engine in a decode run, at the place where the words learned are `dict`. -/
structure Reads (dict : List ByteSeq) (s : State) : Prop where
  driven : Driven s
  running : s.runState = .dec
  counter : s.nextCode.toNat = dict.length + 2
  words : ∀ w, Known dict w → wordAt s (Lz.code dict w) = some w

section
variable {dict : List ByteSeq} {s : State}

theorem Reads.withInputs (h : Reads dict s) (xs : List HostInput) : Reads dict (s.withInputs xs) :=
  ⟨h.driven.withInputs xs, h.running, h.counter, h.words⟩

theorem Reads.inEpoch (h : Reads dict s) : InEpoch s.cfg.maxCode dict := by
  have hlt := h.driven.host.engine.counter.2
  rw [h.counter] at hlt
  exact ⟨hlt, h.driven.host.engine.params.2.1⟩

theorem Reads.width_eq (h : Reads dict s) : Lz.width dict = bitLength s.nextCode.toNat := by
  rw [h.counter]
  rfl

/-- A pair whose bits come next is the one at the read cursor (30_encoding.md R83, R84). -/
theorem upcoming_pair {p : WirePair} (hw : p.width = bitLength s.nextCode.toNat) (hfits : p.code.toNat < 2 ^ p.width)
    {rest : List Bool} (hc : Coming s (pairBits p.code p.sym p.width ++ rest)) :
    upcomingCode s = p.code ∧ upcomingSym s = p.sym := by
  constructor
  · have h := Coming.upcomingBits_eq (pre := []) (bits := bitsOf p.code.toNat p.width) (post := bitsOf p.sym.toNat 8 ++ rest)
      (by simpa [pairBits] using hc)
    rw [bitsOf_length, hw] at h
    exact (congrArg (BitVec.ofNat 16) h).trans (by rw [← hw, code_of_bits hfits])
  · have h := Coming.upcomingBits_eq (pre := bitsOf p.code.toNat p.width) (bits := bitsOf p.sym.toNat 8) (post := rest) hc
    rw [bitsOf_length, bitsOf_length, hw] at h
    exact (congrArg (BitVec.ofNat 8) h).trans (byte_of_bits p.sym)

/-- The bits after a pair come next once it is taken. -/
theorem Reads.coming_afterPair (h : Reads dict s) {p : WirePair} (hw : p.width = bitLength s.nextCode.toNat) {rest : List Bool}
    (hc : Coming s (pairBits p.code p.sym p.width ++ rest)) {t : State} (ht : SameReader (afterPair s) t) : Coming t rest :=
  hc.taken fun k => by rw [ht.upcoming_eq, h.driven.afterPair_upcomingBit, pairBits_length, hw]

/-- A word learned, whether it is new or not: every known word is found under its code. -/
theorem Reads.words_learned (h : Reads dict s) {v : ByteSeq} (hv : v ≠ []) {t : State}
    (ht : ∀ c, wordAt t c = if s.nextCode.toNat + 1 = s.cfg.maxCode then (if c = emptyCode then some [] else none)
      else if c = s.nextCode then some v else wordAt s c) (w : ByteSeq) (hw : Known (Lz.learn s.cfg.maxCode dict v) w) :
    wordAt t (Lz.code (Lz.learn s.cfg.maxCode dict v) w) = some w := by
  rw [ht]
  rcases Lz.learn_cases s.cfg.maxCode dict v with ⟨hend, hl⟩ | ⟨hne, hl⟩ <;> rw [hl] at hw ⊢
  · obtain rfl : w = [] := hw.resolve_right (by simp)
    rw [if_pos (by rw [h.counter]; exact hend), Lz.code_nil, if_pos rfl]
  · rw [if_neg (by rw [h.counter]; exact hne)]
    by_cases hold : Known dict w
    · have hcode : Lz.code dict w ≠ s.nextCode := fun he => by
        have hlt := Lz.code_lt_counter h.inEpoch hold
        rw [he, h.counter] at hlt
        exact lt_irrefl _ hlt
      rw [Lz.code_append hold, if_neg hcode, h.words w hold]
    · obtain rfl := (known_append.1 hw).resolve_left hold
      have hcode : Lz.code (dict ++ [w]) w = s.nextCode := by
        rw [Lz.code_learned hv (fun hmem => hold (.inr hmem)), ← h.counter, BitVec.ofNat_toNat, BitVec.setWidth_eq]
      rw [if_pos hcode]

/-- DEC_PAIR of a pair that extends a known word puts the longer word out and learns it (43_codec.md R160). -/
theorem decPair_reads (h : Reads dict s) {p : ByteSeq} (hp : Known dict p) {b : Byte} {rest : List Bool}
    (hc : Coming s (pairListBits [dataPair dict p b] ++ rest)) :
    ∃ t, execDecPair s = .next t ∧ Reads (Lz.learn s.cfg.maxCode dict (p ++ [b])) t ∧
      PutOut s [dataPair dict p b] (p ++ [b]) t ∧ Coming t rest := by
  have he := h.driven.host.engine
  have hd := h.driven.host.dec h.running
  have hbits : pairListBits [dataPair dict p b] = pairBits (Lz.code dict p) b (Lz.width dict) := List.append_nil _
  rw [hbits] at hc
  obtain ⟨hcode, hsym⟩ := upcoming_pair (p := dataPair dict p b) h.width_eq (Lz.code_fits h.inEpoch hp) hc
  have hword : wordAt s (upcomingCode s) = some p := by rw [hcode]; exact h.words p hp
  have hstop : upcomingCode s ≠ stopCode := by rw [hcode]; exact Lz.code_ne_stop h.inEpoch hp
  have hrun := execDecPair_data h.running he h.driven.countable hd.notStopped hd.live hstop hword (hd.fresh he)
  rw [hsym] at hrun
  refine ⟨_, hrun, ⟨h.driven.command decodeCmd_decPair hrun, ?running, ?counter,
    h.words_learned (by simp) (learn_wordAt s (p ++ [b]))⟩, ⟨afterPair_cfg s, afterPair_prot s, ?bits, ?syms,
    putBytesOut_decoded s _⟩, h.coming_afterPair (p := dataPair dict p b) h.width_eq hc ⟨rfl, rfl, rfl, rfl, rfl⟩⟩
  case running => exact (afterPair_runState s).trans h.running
  case counter => exact (advancedCode_toNat he).trans (advancedCode_learn h.counter _)
  case bits => rw [hbits, pairBits_length, h.width_eq]; exact afterPair_totalBits s
  case syms => rw [List.length_append]; rfl

/-- DEC_PAIR of the sentinel ends the run with every decoded byte on SOUT (43_codec.md R160). -/
theorem decPair_sentinel (h : Reads dict s) {rest : List Bool} (hc : Coming s (pairListBits [sentinel dict] ++ rest)) :
    ∃ t, execDecPair s = .next t ∧ t.runState = .done ∧ t.sout = decodedBytes s ∧ PutOut s [sentinel dict] [] t := by
  have he := h.driven.host.engine
  have hd := h.driven.host.dec h.running
  have hbits : pairListBits [sentinel dict] = pairBits stopCode 0 (Lz.width dict) := List.append_nil _
  rw [hbits] at hc
  obtain ⟨hcode, -⟩ := upcoming_pair (p := sentinel dict) h.width_eq (stopCode_fits (Lz.width_range h.inEpoch).1) hc
  refine ⟨_, execDecPair_stop h.running he h.driven.countable hd.notStopped hd.live hcode, rfl, rfl,
    ⟨afterPair_cfg s, afterPair_prot s, ?bits, ?syms, rfl⟩⟩
  case bits => rw [hbits, pairBits_length, h.width_eq]; exact afterPair_totalBits s
  case syms => exact (afterPair_totalSyms s).trans (BitVec.add_zero _).symm

/-- DEC_PAIR of pairs that spell bytes puts those bytes out, whatever inputs and bits follow. -/
theorem serve_pairs {maxCode : Nat} {dict' : List ByteSeq} {ps : List WirePair} {out : ByteSeq}
    (hspell : Spells maxCode dict ps out dict') (inputs : List HostInput) (rest : List Bool) (h : Reads dict s)
    (hmax : s.cfg.maxCode = maxCode) (hc : Coming s (pairListBits ps ++ rest)) :
    ∃ t, serve (pairInputs ps.length ++ inputs) s = serve inputs t ∧ Reads dict' t ∧ PutOut s ps out t ∧ Coming t rest := by
  induction hspell generalizing s with
  | nil => exact ⟨s, rfl, h, .nothing s, hc⟩
  | @cons dict dict' ps out p b hp hspell ih =>
    have hserve := serve_cmd decodeCmd_decPair (pairInputs ps.length ++ inputs) s
    have hc1 : Coming s (pairListBits [dataPair dict p b] ++ (pairListBits ps ++ rest)) := by
      rw [← List.append_assoc, ← pairListBits_append]
      exact hc
    obtain ⟨u, hu, hreads, hput, hcu⟩ := decPair_reads (h.withInputs (pairInputs ps.length ++ inputs)) hp hc1
    have hreads : Reads (Lz.learn maxCode dict (p ++ [b])) u := hmax ▸ hreads
    obtain ⟨t, ht, hrt, hpt, hct⟩ := ih hreads ((congrArg Config.maxCode hput.cfg).trans hmax) hcu
    exact ⟨t, (hserve.trans (andThen_of hu)).trans ht, hrt, hput.of_withInputs.trans hpt, hct⟩

end

/-! ### The round trip -/

/-- The engine right after RESET, a wire on ZIN and DEC_START of its header, with inputs pending. -/
def runOpenedOn (prot : BitVec 16) (wire : ByteSeq) (xs : List HostInput) (s : State) : State :=
  { wireReady wire xs s with
    zinPos := pulledTo (wireReady wire xs s) s.cfg.headerBytes, prot := prot
    wt := emptyTable, wtLive := true, nextCode := startCode, runState := .dec }

section
variable {s : State}

/-- DEC_START of a wire that begins with this engine's header opens a run. -/
theorem execDecStart_header {cfg : Config} (hmagic : s.cfg.magic = cfg.magic) (hpad : s.cfg.headerPad = cfg.headerPad)
    (prot : BitVec 16) {wire rest : ByteSeq} (hwire : wire = headerImage cfg cfg.magic prot ++ rest) (xs : List HostInput) :
    execDecStart (wireReady wire xs s) = .next (runOpenedOn prot wire xs s) := by
  have hpull : (pull (wireReady wire xs s).cfg.headerBytes (wireReady wire xs s)).1 = headerImage cfg cfg.magic prot := by
    rw [← headerImage_length_of_pad (cfg' := (wireReady wire xs s).cfg) hpad cfg.magic prot]
    exact pull_front rfl hwire
  have hmagicRead : headerMagic (pull (wireReady wire xs s).cfg.headerBytes (wireReady wire xs s)).1 = s.cfg.magic :=
    (congrArg headerMagic hpull).trans ((headerMagic_image _ _ _).trans hmagic.symm)
  have hprotRead : headerProt (pull (wireReady wire xs s).cfg.headerBytes (wireReady wire xs s)).1 = prot :=
    (congrArg headerProt hpull).trans (headerProt_image _ _ _)
  rw [execDecStart_accept rfl hmagicRead, hprotRead, ← pulledTo_eq]
  rfl

theorem runOpenedOn_reads (hc : s.cfg.Ok) {prot : BitVec 16} {wire : ByteSeq} {xs : List HostInput} (hz : wire.length < 2 ^ 64)
    (hrun : execDecStart (wireReady wire xs s) = .next (runOpenedOn prot wire xs s)) : Reads [] (runOpenedOn prot wire xs s) where
  driven := (wireReady_driven hz xs hc).command decodeCmd_decStart hrun
  running := rfl
  counter := rfl
  words := fun w hw => by
    obtain rfl : w = [] := hw.resolve_right (by simp)
    rfl

/-- The bits after the header come next. -/
theorem runOpenedOn_upcomingBit {wire : ByteSeq} (hz : wire.length < 2 ^ 64) (prot : BitVec 16) (xs : List HostInput) (k : Nat) :
    upcomingBit (runOpenedOn prot wire xs s) k = streamBit s.cfg wire k := by
  have hreader : upcomingBit (runOpenedOn prot wire xs s) k = _ :=
    SameReader.upcoming_eq (s := { wireReady wire xs s with zinPos := pulledTo (wireReady wire xs s) s.cfg.headerBytes })
      ⟨rfl, rfl, rfl, rfl, rfl⟩ k
  exact hreader.trans (readHeader_upcomingBit (s := wireReady wire xs s) rfl rfl hz (execReadHeader_eq _) k)

/-- Decoding a wire of pairs that spell bytes, sentinel last, puts those bytes on SOUT and ends in DONE. -/
theorem serve_decode_wire (hc : s.cfg.Ok) {cfg : Config} (hmagic : s.cfg.magic = cfg.magic)
    (hpad : s.cfg.headerPad = cfg.headerPad) (prot : BitVec 16) {ps : List WirePair} {out : ByteSeq} {dict' : List ByteSeq}
    (hspell : Spells s.cfg.maxCode [] ps out dict') {wire : ByteSeq}
    (hwire : wire = wireImage cfg prot (ps ++ [sentinel dict'])) (hz : wire.length < 2 ^ 64) :
    ∃ u, serve (decodeInputs wire (ps.length + 1)) s = .next u ∧ u.runState = .done ∧ u.sout = out ∧ u.prot = prot ∧
      u.totalSyms = BitVec.ofNat 64 out.length ∧
      u.totalBits = BitVec.ofNat 64 (pairListBits (ps ++ [sentinel dict'])).length := by
  have hstart := execDecStart_header hmagic hpad prot hwire (pairInputs (ps.length + 1))
  have hcoming : Coming (runOpenedOn prot wire (pairInputs (ps.length + 1)) s)
      (pairListBits ps ++ pairListBits [sentinel dict']) := fun k hk => by
    rw [runOpenedOn_upcomingBit hz, hwire]
    rw [← pairListBits_append] at hk ⊢
    exact streamBit_wire (headerImage_length_of_pad hpad cfg.magic prot) _ hk
  have hinputs : pairInputs (ps.length + 1) = pairInputs ps.length ++ [.cmd (cmdWord 0x06#8 0)] := List.replicate_succ'
  obtain ⟨t, ht, hreads, hput, hct⟩ :=
    serve_pairs hspell [.cmd (cmdWord 0x06#8 0)] _ (runOpenedOn_reads hc hz hstart) rfl hcoming
  obtain ⟨u, hu, hdone, hsout, hlast⟩ := decPair_sentinel (rest := []) (hreads.withInputs [])
    (by rw [List.append_nil]; exact hct)
  have hall := hput.trans hlast.of_withInputs
  refine ⟨u.withInputs [], ?run, hdone, ?sout, hall.prot, ?syms, hall.bits.trans (BitVec.zero_add _)⟩
  case run =>
    rw [serve_decodeInputs, andThen_of hstart]
    refine (congrArg (serve · _) hinputs).trans (ht.trans ?_)
    rw [serve_cmd decodeCmd_decPair]
    exact (andThen_of hu).trans (serve_nil u)
  case sout => exact hsout.trans hput.decoded
  case syms =>
    rw [List.append_nil] at hall
    exact hall.syms.trans (BitVec.zero_add _)

end

/-- Settles O56: the wire of an encode run is made of pairs that spell the input, and the decoder puts out what they spell. -/
theorem roundTrip : Obligations.RoundTrip := by
  intro s s' prot input hc hc' hmax hmagic hpad
  obtain ⟨t, ht, -, -, hzout, -, hbits⟩ := encodeEmitsTheLz78Wire s prot input hc
  obtain ⟨ps, dict', hpairs, hspell⟩ := Lz.encode_spells s.cfg.maxCode input
  rw [hpairs] at hzout hbits
  refine ⟨t, ht, fun hz => ⟨ps.length + 1, ?_⟩⟩
  rw [hbits]
  exact serve_decode_wire hc' hmagic hpad prot (hmax ▸ hspell) hzout hz

/-! ### Both sides count the pairs of an epoch alike -/

/-- At START_CODE an encode run's trie has only its root (43_codec.md R168). -/
theorem EncInv.childAt_of_start {s : State} (h : EncInv s) (hn : s.nextCode = startCode) (p : Code) (b : Byte) :
    childAt s p b = none := by
  cases hc : childAt s p b with
  | none => rfl
  | some c =>
    obtain ⟨hge, hlt⟩ := (h.codes c).1 ⟨_, mem_of_slotGet hc, rfl⟩
    rw [hn] at hlt
    exact absurd hge (Nat.not_le.2 hlt)

/-- At START_CODE a decode run's table holds only the empty word (42_wordtable.md R147). -/
theorem DecInv.wordAt_of_start {s : State} (h : DecInv s) (he : EngineInv s) (hn : s.nextCode = startCode) (c : Code) :
    wordAt s c = if c = emptyCode then some [] else none := by
  by_cases hc : c = emptyCode
  · rw [if_pos hc, hc]
    exact he.table.emptyWord h.live
  · rw [if_neg hc]
    refine Option.not_isSome_iff_eq_none.1 fun hsome => ?_
    obtain ⟨hge, hlt⟩ := ((h.slots c).1 hsome).resolve_left hc
    rw [hn] at hlt
    exact absurd hge (Nat.not_le.2 hlt)

/-- The counter, from START_CODE, counts modulo EPOCH_PAIRS (43_codec.md R152). -/
theorem advancedCode_mod {s : State} (h : EngineInv s) :
    advancedCode s = 2 + (s.nextCode.toNat - 2 + 1) % (s.cfg.maxCode - 2) := by
  have hcounter := h.counter
  unfold advancedCode
  by_cases hmax : s.nextCode.toNat + 1 = s.cfg.maxCode
  · rw [if_pos hmax, show s.nextCode.toNat - 2 + 1 = s.cfg.maxCode - 2 by omega, Nat.mod_self]
  · rw [if_neg hmax, Nat.mod_eq_of_lt (by omega)]
    omega

/-- A run of DEC_PAIR that ends in DEC was in DEC all the way, so every one of them advanced the counter. -/
theorem serve_pairInputs_counter (n : Nat) {s t : State} (h : HostInv s) (ht : serve (pairInputs n) s = .next t)
    (hdec : t.runState = .dec) :
    s.runState = .dec ∧ HostInv t ∧ t.nextCode.toNat = 2 + (s.nextCode.toNat - 2 + n) % (s.cfg.maxCode - 2) := by
  induction n generalizing s with
  | zero =>
    obtain rfl := Host.Outcome.next.inj ht
    have hcounter := h.engine.counter
    refine ⟨hdec, h.withInputs [], ?_⟩
    rw [Nat.add_zero, Nat.mod_eq_of_lt (by omega)]
    show s.nextCode.toNat = _
    omega
  | succ n ih =>
    obtain ⟨u, hu, ht⟩ := andThen_eq_next.1 ((serve_cmd decodeCmd_decPair (pairInputs n) s).symm.trans ht)
    have hs := h.withInputs (pairInputs n)
    obtain ⟨hudec, hhost, hcount⟩ := ih (command_hostInv decodeCmd_decPair hs hu) ht
    rcases inState_eq_next hu with ⟨hr, -⟩ | ⟨-, rfl⟩
    · refine ⟨hr, hhost, ?_⟩
      rcases decPair_eq_next hs hr hu with ⟨hdone, -⟩ | ⟨-, -, hnext⟩
      · cases hdone.symm.trans hudec
      · have hadvance : u.nextCode.toNat = advancedCode s := by rw [hnext]; exact advancedCode_toNat hs.engine
        have hcfg : u.cfg = s.cfg := (exec_same hu).cfg
        rw [hcount, hadvance, advancedCode_mod h.engine, hcfg, Nat.add_sub_cancel_left, Nat.mod_add_mod, Nat.add_assoc,
          Nat.add_comm 1]
    · rw [raiseError_runState] at hudec
      cases hudec

/-- Settles O45: the encoder follows the algorithm, whose pairs count the words learned; the decoder advances with every DEC_PAIR that
does not end the run. -/
theorem epochSynchrony : Obligations.EpochSynchrony := by
  refine ⟨fun input s h hr hchild hcur hnext => ?encoder, fun n s t h _ hnext ht hdec => ?decoder⟩
  case encoder =>
    have hfollows := follows_start h hr hchild hcur hnext
    obtain ⟨t, ht, hft, -⟩ := serve_syms input [] hfollows
    rw [List.append_nil] at ht
    obtain ⟨-, out, hspell, -⟩ := Lz.start_wf.syms s.cfg.maxCode input
    refine ⟨t.withInputs [], ht.trans (serve_nil t), ?_, fun hn => ((hft.host.enc hft.running).childAt_of_start hn)⟩
    refine hft.counter.trans ?_
    rw [hspell.length hfollows.inEpoch, Nat.add_comm]
    exact congrArg (fun n => 2 + n % _) (Nat.zero_add _)
  case decoder =>
    obtain ⟨-, hhost, hcount⟩ := serve_pairInputs_counter n h ht hdec
    refine ⟨?_, (hhost.dec hdec).wordAt_of_start hhost.engine⟩
    rw [hcount, hnext]
    exact congrArg (fun n => 2 + n % _) (Nat.zero_add n)

end Sys2Proof.Machine
end

section
/-! Family 60_exceptions: between commands the engine waits (60_exceptions.md R195), and ERROR keeps its first cause (R187). -/

namespace Sys2Proof.Machine

/-- Settles O5: with both ports empty `fetch` finds nothing to serve. -/
theorem engineHoldsItsStateBetweenCommands : Obligations.EngineHoldsItsStateBetweenCommands := by
  intro s hu hx
  simp only [step, fetch_of_nothing hu hx]

/-- In ERROR the only legal command word is RESET (43_codec.md R153). -/
theorem commandLegal_error {w : BitVec 24} (hw : w ≠ 0x000001#24) : commandLegal .error w = false := by
  rw [← Bool.not_eq_true, commandLegal_iff]
  rintro ⟨i, hd, hl⟩
  rcases decodeCmd_forms hd with ⟨hreset, -⟩ | ⟨_, -, rfl⟩ | ⟨_, -, rfl⟩ | ⟨-, rfl⟩ | ⟨-, rfl⟩ | ⟨-, rfl⟩
  · exact hw hreset
  all_goals cases hl

/-- ERR_CMD raised in ERROR leaves the first cause, and all else, as it is (60_exceptions.md R187). -/
theorem errCmdEntry_of_error {s : State} (hs : s.runState = .error) : errCmdEntry s = s := by
  rw [← raiseError_errCmd, raiseError_of_error _ hs]

/-- Settles O9: in ERROR every word but RESET is illegal, and its error entry changes nothing; DEC_START is a command of IDLE. -/
theorem firstErrorCauseIsKept : Obligations.FirstErrorCauseIsKept := by
  refine ⟨fun s w rest hu hx hs hw => ?kept, fun s hidle herror => ?decStart⟩
  case kept =>
    have hillegal : commandLegal s.runState w = false := by rw [hs, commandLegal_error hw]
    exact (illegalCommandRaisesErrCmd.1 s w rest hu hx hillegal).trans (congrArg _ (errCmdEntry_of_error hs))
  case decStart => exact (inState_of_ne _ hidle).trans (congrArg _ (raiseError_of_ne errCmd herror))

end Sys2Proof.Machine
end

section
/-! Family 70_reset_and_hazards: the hardware reset (70_reset_and_hazards.md R200, R201), a wire that ends before its sentinel
(R209), and how far a decode run has read ahead in ZIN (R210). -/

namespace Sys2Proof.Machine

/-! ### The hardware reset -/

/-- Settles O7: the hardware reset and RESET are the same `resetState`, which keeps what the host holds. -/
theorem hardwareResetIsReset : Obligations.HardwareResetIsReset := by
  refine ⟨fun s rest hu hx => step_hardReset hu hx, fun s t ht => ?_⟩
  obtain rfl := Host.Outcome.next.inj ht
  exact ⟨resetState_zin s, resetState_cmdIn s, resetState_unitIn s, resetState_unitOut s, resetState_freeIndex s⟩

/-! ### Past the end of ZIN -/

theorem inByte_of_ended {s : State} {a : Nat} (h : s.zin.length ≤ a) : inByte s a = 0#8 := List.getD_eq_default _ _ h

/-- With RBUF exhausted and ZIN read to its end only zeros come (20_memory.md R60, R76). -/
theorem upcomingBit_of_ended {s : State} (hridx : s.ridx = 8 * s.cfg.block) (hend : s.zin.length ≤ s.zinPos.toNat) (k : Nat) :
    upcomingBit s k = false := by
  rw [upcomingBit_of_exhausted hridx, inByte_of_ended (by omega), BitVec.getLsbD_zero]

theorem upcomingBits_of_zeros {s : State} (h : ∀ k, upcomingBit s k = false) (start n : Nat) : upcomingBits s start n = 0 := by
  refine Nat.zero_of_testBit_eq_false fun i => ?_
  unfold upcomingBits
  rw [natOfBits_testBit, getD_map_range]
  simp [h]

theorem upcomingCode_of_zeros {s : State} (h : ∀ k, upcomingBit s k = false) : upcomingCode s = emptyCode :=
  congrArg (BitVec.ofNat 16) (upcomingBits_of_zeros h _ _)

theorem upcomingSym_of_zeros {s : State} (h : ∀ k, upcomingBit s k = false) : upcomingSym s = 0#8 :=
  congrArg (BitVec.ofNat 8) (upcomingBits_of_zeros h _ _)

/-- Where only zeros come, DEC_PAIR reads the literal of the byte 0x00: it puts that byte out and only zeros come again. -/
theorem decPair_of_zeros {s : State} (h : Driven s) (hr : s.runState = .dec) (hzero : ∀ k, upcomingBit s k = false) :
    ∃ t, execDecPair s = .next t ∧ t.runState = .dec ∧ decodedBytes t = decodedBytes s ++ [0#8] ∧
      ∀ k, upcomingBit t k = false := by
  have he := h.host.engine
  have hd := h.host.dec hr
  have hcode := upcomingCode_of_zeros hzero
  have hword : wordAt s (upcomingCode s) = some [] := by rw [hcode]; exact he.table.emptyWord hd.live
  have hstop : upcomingCode s ≠ stopCode := by rw [hcode]; decide
  have hrun := execDecPair_data hr he h.countable hd.notStopped hd.live hstop hword (hd.fresh he)
  rw [upcomingSym_of_zeros hzero] at hrun
  refine ⟨_, hrun, (afterPair_runState s).trans hr, putBytesOut_decoded s _, fun k => ?_⟩
  exact (h.afterPair_upcomingBit k).trans (hzero _)

/-- Any number of DEC_PAIR, as long as only zeros come. -/
theorem serve_pairInputs_of_zeros (n : Nat) {s : State} (h : Driven s) (hr : s.runState = .dec)
    (hzero : ∀ k, upcomingBit s k = false) :
    ∃ t, serve (pairInputs n) s = .next t ∧ t.runState = .dec ∧
      decodedBytes t = decodedBytes s ++ List.replicate n 0#8 := by
  induction n generalizing s with
  | zero => exact ⟨s.withInputs [], rfl, hr, (List.append_nil _).symm⟩
  | succ n ih =>
    have hs := h.withInputs (pairInputs n)
    obtain ⟨u, hu, hur, hout, huzero⟩ := decPair_of_zeros hs hr hzero
    obtain ⟨t, ht, htr, hrest⟩ := ih (hs.command decodeCmd_decPair hu) hur huzero
    refine ⟨t, ((serve_cmd decodeCmd_decPair (pairInputs n) s).trans (andThen_of hu)).trans ht, htr, ?_⟩
    rw [hrest, hout, List.append_assoc]
    rfl

/-- Settles O46, by induction on the number of DEC_PAIR: each reads the zeros as the literal 0x00 and leaves zeros to come. The
counter is that of any run that stays in DEC. -/
theorem truncatedWireNeverEnds : Obligations.TruncatedWireNeverEnds := by
  refine ⟨fun s hridx hend => upcomingBit_of_ended hridx hend, fun n s h hr hz hzero => ?_⟩
  obtain ⟨t, ht, htr, hout⟩ := serve_pairInputs_of_zeros n ⟨h, hz⟩ hr hzero
  obtain ⟨-, -, hcount⟩ := serve_pairInputs_counter n h ht htr
  exact ⟨t, ht, htr, hout, hcount⟩

/-! ### How far a decode run has read ahead -/

/-- The blocks of ZIN that hold the pair bits read so far, `ceil(ceil(T / 8) / BLOCK)` (70_reset_and_hazards.md R210). -/
def blocksRead (s : State) : Nat := ((s.totalBits.toNat + 7) / 8 + s.cfg.block - 1) / s.cfg.block

/-- The two roundings up, to bytes and to blocks, are one in bits. -/
theorem blocksRead_eq {s : State} (hb : 0 < s.cfg.block) :
    blocksRead s = (s.totalBits.toNat + 8 * s.cfg.block - 1) / (8 * s.cfg.block) := by
  unfold blocksRead
  rw [← Nat.div_div_eq_div_mul]
  congr 1
  omega

/-- A decode run has taken exactly the blocks that hold the pair bits read so far, and RBUF's cursor stands after the last of these
bits (20_memory.md R58, R61, 70_reset_and_hazards.md R210). -/
structure ReadAhead (s : State) : Prop where
  cursor : s.ridx + 8 * s.cfg.block * blocksRead s = s.totalBits.toNat + 8 * s.cfg.block
  position : s.zinPos.toNat = min s.zin.length (s.cfg.headerBytes + s.cfg.block * blocksRead s)

theorem ReadAhead.withInputs {s : State} (h : ReadAhead s) (xs : List HostInput) : ReadAhead (s.withInputs xs) :=
  ⟨h.cursor, h.position⟩

/-- Taking bits refills RBUF once for each block more that the pair bits then reach into. -/
theorem ReadAhead.blocksRead_add {s t : State} (h : ReadAhead s) (hb : 0 < s.cfg.block) {n : Nat} (hn : 0 < n)
    (hcfg : t.cfg = s.cfg) (hbits : t.totalBits.toNat = s.totalBits.toNat + n) : blocksRead t = blocksRead s + refills s n := by
  have hcursor := h.cursor
  have hreach : s.totalBits.toNat + n + 8 * s.cfg.block - 1 = s.ridx + n - 1 + 8 * s.cfg.block * blocksRead s := by omega
  calc
    blocksRead t = (s.ridx + n - 1 + 8 * s.cfg.block * blocksRead s) / (8 * s.cfg.block) := by
      rw [blocksRead_eq (hcfg ▸ hb), hcfg, hbits, hreach]
    _ = refills s n + blocksRead s := Nat.add_mul_div_left _ _ (by omega)
    _ = blocksRead s + refills s n := Nat.add_comm _ _

/-- Bits taken and counted keep `ReadAhead`. -/
theorem ReadAhead.took {s t : State} (h : ReadAhead s) (hb : 0 < s.cfg.block) {n : Nat} (hn : 0 < n) (htook : TookBits n s t)
    (hcfg : t.cfg = s.cfg) (hzin : t.zin = s.zin) (hbits : t.totalBits.toNat = s.totalBits.toNat + n) : ReadAhead t := by
  have hblocks := h.blocksRead_add hb hn hcfg hbits
  have hrefills : 8 * s.cfg.block * refills s n ≤ s.ridx + n := (Nat.mul_div_le _ _).trans (Nat.sub_le _ _)
  have hcursor := h.cursor
  have hposition := h.position
  refine ⟨?cursor, ?position⟩
  case cursor =>
    rw [htook.cursor, hblocks, hcfg, hbits, Nat.mul_add]
    omega
  case position =>
    rw [htook.position, hblocks, hcfg, hzin, Nat.mul_add]
    omega

/-- DEC_PAIR in a decode run takes the bits of one pair, whether it is data or the sentinel, and counts them (43_codec.md R160). -/
theorem decPair_took {s t : State} (h : Driven s) (hr : s.runState = .dec) (ht : execDecPair s = .next t) :
    TookBits (bitLength s.nextCode.toNat + 8) s t ∧
      t.totalBits = s.totalBits + BitVec.ofNat 64 (bitLength s.nextCode.toNat + 8) := by
  have he := h.host.engine
  have hd := h.host.dec hr
  have htook := afterBits_took he h.countable (bitLength s.nextCode.toNat + 8)
  by_cases hc : upcomingCode s = stopCode
  · rw [execDecPair_stop hr he h.countable hd.notStopped hd.live hc] at ht
    obtain rfl := Host.Outcome.next.inj ht
    exact ⟨htook.of_sameReader ⟨rfl, rfl, rfl, rfl, rfl⟩, afterPair_totalBits s⟩
  · cases hw : wordAt s (upcomingCode s) with
    | none =>
      rw [execDecPair_undef hr he h.countable hd.notStopped hd.live hc hw] at ht
      cases ht
    | some word =>
      rw [execDecPair_data hr he h.countable hd.notStopped hd.live hc hw (hd.fresh he)] at ht
      obtain rfl := Host.Outcome.next.inj ht
      exact ⟨htook.of_sameReader ⟨rfl, rfl, rfl, rfl, rfl⟩, afterPair_totalBits s⟩

/-- DEC_PAIR keeps `ReadAhead`, in any run state, and counts at most the 24 bits of the widest pair. -/
theorem decPair_readAhead {s t : State} (h : Driven s) (ha : ReadAhead s) (hbits : s.totalBits.toNat + 24 < 2 ^ 64)
    (ht : execDecPair s = .next t) : ReadAhead t ∧ t.totalBits.toNat ≤ s.totalBits.toNat + 24 := by
  rcases inState_eq_next ht with ⟨hr, -⟩ | ⟨-, rfl⟩
  · obtain ⟨htook, htotal⟩ := decPair_took h hr ht
    have hwidth := width_le s
    have hcount : t.totalBits.toNat = s.totalBits.toNat + (bitLength s.nextCode.toNat + 8) := by
      rw [htotal, BitVec.toNat_add, BitVec.toNat_ofNat, Nat.mod_eq_of_lt (a := bitLength _ + 8) (by omega),
        Nat.mod_eq_of_lt (by omega)]
    have hsame := exec_same (i := .decPair) ht
    exact ⟨ha.took h.host.engine.block_pos (Nat.succ_pos _) htook hsame.cfg hsame.zin hcount, by omega⟩
  · rw [raiseError_eq]
    exact ⟨⟨ha.cursor, ha.position⟩, Nat.le_add_right _ _⟩

/-- Any number of DEC_PAIR that `total_bits` can count keep `ReadAhead`, in the same engine and on the same wire. -/
theorem serve_pairInputs_readAhead (n : Nat) {s t : State} (h : Driven s) (ha : ReadAhead s)
    (hbits : s.totalBits.toNat + 24 * n < 2 ^ 64) (ht : serve (pairInputs n) s = .next t) :
    ReadAhead t ∧ t.cfg = s.cfg ∧ t.zin = s.zin := by
  induction n generalizing s with
  | zero =>
    obtain rfl := Host.Outcome.next.inj ht
    exact ⟨ha.withInputs [], rfl, rfl⟩
  | succ n ih =>
    obtain ⟨u, hu, ht⟩ := andThen_eq_next.1 ((serve_cmd decodeCmd_decPair (pairInputs n) s).symm.trans ht)
    have hs := h.withInputs (pairInputs n)
    have hcount : s.totalBits.toNat + 24 < 2 ^ 64 := by omega
    obtain ⟨hau, hle⟩ : ReadAhead u ∧ u.totalBits.toNat ≤ s.totalBits.toNat + 24 :=
      decPair_readAhead (s := s.withInputs (pairInputs n)) hs (ha.withInputs _) hcount hu
    have hsame := exec_same hu
    obtain ⟨hat, hcfg, hzin⟩ := ih (hs.command decodeCmd_decPair hu) hau (by omega) ht
    exact ⟨hat, hcfg.trans hsame.cfg, hzin.trans hsame.zin⟩

/-- With no pair bit read yet no block is taken, only the header. -/
theorem readAhead_of_noBits {s : State} (hb : 0 < s.cfg.block) (hbits : s.totalBits = 0) (hridx : s.ridx = 8 * s.cfg.block)
    (hpos : s.zinPos.toNat = min s.zin.length s.cfg.headerBytes) : ReadAhead s := by
  have hblocks : blocksRead s = 0 := by
    rw [blocksRead_eq hb, hbits]
    exact Nat.div_eq_of_lt (by rw [BitVec.ofNat_eq_ofNat, BitVec.toNat_zero]; omega)
  exact ⟨by rw [hblocks, hbits, hridx]; exact Nat.add_comm _ _, by rw [hblocks]; exact hpos⟩

/-- DEC_START pulls the header and no pair bit, whether it accepts the header or not (43_codec.md R159). -/
theorem decStart_readAhead {s u : State} {wire : ByteSeq} {xs : List HostInput} (hb : 0 < s.cfg.block) (hz : wire.length < 2 ^ 64)
    (hu : execDecStart (wireReady wire xs s) = .next u) : ReadAhead u ∧ u.totalBits = 0 := by
  have hpos := (pull_pos (s := wireReady wire xs s) hz s.cfg.headerBytes).trans ((Nat.zero_add _).trans (Nat.min_comm _ _))
  by_cases hm : headerMagic (pull s.cfg.headerBytes (wireReady wire xs s)).1 = s.cfg.magic
  · obtain rfl := Host.Outcome.next.inj ((execDecStart_accept (s := wireReady wire xs s) rfl hm).symm.trans hu)
    exact ⟨readAhead_of_noBits hb rfl rfl hpos, rfl⟩
  · obtain rfl := Host.Outcome.next.inj ((execDecStart_reject (s := wireReady wire xs s) rfl hm).symm.trans hu)
    exact ⟨readAhead_of_noBits hb rfl rfl hpos, rfl⟩

/-- Settles O47: DEC_START leaves `ReadAhead` true and every DEC_PAIR keeps it, in whatever run state the run ends. -/
theorem decoderReadsAheadByBlocks : Obligations.DecoderReadsAheadByBlocks := by
  intro s t wire n hc hz hn ht _
  obtain ⟨u, hu, ht⟩ := andThen_eq_next.1 ((serve_decodeInputs wire n s).symm.trans ht)
  obtain ⟨hau, hbits⟩ := decStart_readAhead hc.2.2.2 hz hu
  have hcfg : u.cfg = s.cfg := (exec_same (i := .decStart) hu).cfg
  have hzin : u.zin = wire := (exec_same (i := .decStart) hu).zin
  have hdriven := (wireReady_driven hz (pairInputs n) hc).command decodeCmd_decStart hu
  obtain ⟨hat, htcfg, htzin⟩ := serve_pairInputs_readAhead n hdriven hau (by rw [hbits]; simpa using hn) ht
  rw [hat.position, blocksRead, htzin, hzin, htcfg, hcfg]

end Sys2Proof.Machine
end
